-- ==== Sys2Proof/Word.lean ====
section
/-! DEFINITION. The word types of TSCORE (rules R6, R9). All quantities are unsigned; lengths, offsets and
counts are natural numbers without wrap-around (R113), so they are `Nat`, not words. -/

namespace Sys2Proof

/-- A byte: 8 bits, bit 7 the most significant (R9, R52). -/
abbrev Byte := BitVec 8

/-- A packet identifier: `PID_W` = 13 bits, 0 to 8191 (R6, R76). -/
abbrev Pid := BitVec 13

/-- A continuity counter: `CC_W` = 4 bits, 0 to 15, the only modular quantity (R6, R9). -/
abbrev Cc := BitVec 4

/-- The sync byte `SYNCB` (R6). -/
abbrev syncByte : Byte := 0x47#8

end Sys2Proof
end

