-- ==== Sys2Proof/Config.lean ====
section
/-! DEFINITION. What a build of TSCORE fixes (rules R6, R7, R34). `Config` is what the spec leaves OPEN: it is
a field of the machine's state that no operation writes and reset does not touch, so that every statement
about all states is a statement about all builds. The constants of R6 (188 bytes a packet, 4 header bytes, 184
payload bytes) are written as numerals where they are used ("a model hard-codes them"). -/

namespace Sys2Proof

/-- The OPEN parameters of R7, fixed when the hardware is built (R34). `none` is the spec's `inf`. -/
structure Config where
  /-- `CHAIN`: every run SYNC emits is at once executed by DMX as a DWRITE (D6). -/
  chain : Bool
  /-- `ACC_CAP`: most bytes the accumulator can hold (D7, R66). -/
  accCap : Option Nat
  /-- `UNIT_CAP`: most bytes one reassembly buffer can hold (D8, R67). -/
  unitCap : Option Nat
  /-- `COUNT_W`: bits of an event's count field (D5); counts themselves are unbounded naturals. -/
  countW : Option Nat
deriving DecidableEq, Repr

/-- The model's defaults of R7: `CHAIN` = 1, no capacity bound, unbounded counts. -/
def Config.default : Config := { chain := true, accCap := none, unitCap := none, countW := none }

/-- A count fits a field of the given width (R7: `2^COUNT_W` is greater than every count). -/
def countFits (w : Option Nat) (n : Nat) : Bool :=
  match w with
  | none => true
  | some b => decide (n < 2 ^ b)

/-- The constraints R7 puts on a build: a finite `ACC_CAP` is at least `(255+1)*188`, and `COUNT_W` holds
every count that finite capacities allow. -/
def Config.wf (c : Config) : Bool :=
  (match c.accCap with | none => true | some a => decide (48128 ≤ a) && countFits c.countW a) &&
  (match c.unitCap with | none => true | some u => countFits c.countW u)

/-- `NLOCK_DEFAULT` (R6, R23, R210). -/
abbrev nlockDefault : BitVec 8 := 5#8

/-- `RMF_DROPS_CTX` = 1: `RMF pid` destroys the reassembly context of `pid` (R7, D15; C5 describes the other
reading, which TSCORE is not). -/
def rmfDropsCtx : Bool := true

/-- The constant table of well-known PIDs (R59), "for display purposes only": nothing else reads it. -/
def wellKnownPids : List (Pid × String) :=
  [(0x0000#13, "PAT"), (0x0001#13, "CAT"), (0x0002#13, "TSDT"), (0x0010#13, "NIT/ST"),
   (0x0011#13, "SDT/BAT/ST"), (0x0012#13, "EIT/ST/CIT"), (0x0013#13, "RST/ST")] ++
  [(0x0014#13, "TDT/TOT/ST"), (0x0015#13, "network-sync"), (0x0016#13, "RNT"),
   (0x001c#13, "in-band-signalling"), (0x001d#13, "measurement"), (0x001e#13, "DIT"),
   (0x001f#13, "SIT"), (0x1fff#13, "null-packet")]

end Sys2Proof
end

