-- ==== Sys2Proof/Syntax.lean ====
section
/-! DEFINITION. The operations and packet classes of TSCORE (rules R70 to R74, R80), one constructor for each
row of spec/opcode_table.json, and the four encoded formats they are read from. -/

namespace Sys2Proof

/-- The fields of the header word `h` (R71). -/
structure Header where
  sync : Byte
  tei : Bool
  pusi : Bool
  tp : Bool
  pid : Pid
  sc : BitVec 2
  hasAf : Bool
  hasPl : Bool
  cc : Cc
deriving DecidableEq, Repr

/-- A TS packet (R70): its four header bytes as fields, and the bytes at packet offsets 4 to 187. -/
structure Packet where
  header : Header
  body : List Byte
deriving DecidableEq, Repr

/-- The packet classes, one for each TSH row of the opcode table (R80); the table gives `P_SCR` two rows. -/
inductive PacketClass where
  | badsync
  | tei
  | scrHi
  | scrLo
  | nopl
  | start
  | cont
deriving DecidableEq, Repr

/-- One constructor for each row of spec/opcode_table.json. -/
inductive Instr where
  /-- `SWRITE chunk` (R100). -/
  | swrite (chunk : List Byte)
  /-- `DWRITE bytes` (R130). -/
  | dwrite (chunk : List Byte)
  /-- `SETN n` (R111). -/
  | setn (n : BitVec 8)
  /-- `ADDF pid` (R170). -/
  | addf (pid : Pid)
  /-- `RMF pid` (R171). -/
  | rmf (pid : Pid)
  /-- `ADDP pid` (R172). -/
  | addp (pid : Pid)
  /-- `RMP pid` (R173). -/
  | rmp (pid : Pid)
  /-- `SETFALL b` (R174). -/
  | setfall (b : Bool)
  /-- `SETPALL b` (R175). -/
  | setpall (b : Bool)
  /-- `RESET` (R177). -/
  | reset
  /-- Packet class `P_BADSYNC` (R132). -/
  | pBadsync (p : Packet)
  /-- Packet class `P_TEI` (R133). -/
  | pTei (p : Packet)
  /-- Packet class `P_SCR`, the table's row `sc[1]=1` (R150). -/
  | pScrHi (p : Packet)
  /-- Packet class `P_SCR`, the table's row `sc=0b01` (R150). -/
  | pScrLo (p : Packet)
  /-- Packet class `P_NOPL` (R151). -/
  | pNopl (p : Packet)
  /-- Packet class `P_START` (R153). -/
  | pStart (p : Packet)
  /-- Packet class `P_CONT` (R154). -/
  | pCont (p : Packet)
deriving DecidableEq, Repr

/-- The encoded forms: `DATA` (R72), `CMD` (R73), `PIN` (R74), and `TS` (R70), the 188 bytes of one stride
that a DWRITE hands to the packet procedure. The first three come from the ports, the fourth never does. -/
inductive OpWord where
  | data (inDest : Bool) (chunk : List Byte)
  | cmd (word : BitVec 17)
  | pin
  | ts (bytes : List Byte)
deriving DecidableEq, Repr

end Sys2Proof
end

