-- ==== Sys2Proof/Machine/State.lean ====
section
/-! DEFINITION. The state of TSCORE (rules R20 to R28, R210), the events it emits (R75), the ways a step can
stop, and the state after reset. -/

namespace Sys2Proof.Machine

/-- The six error kinds (R75, R185 to R191). -/
inductive ErrKind where
  | invalidSync
  | transportError
  | scrambled
  | orphan
  | discontinuity
  | lengthNotMultiple
deriving DecidableEq, Repr

/-- The events (R75). An error carries the PID or does not, as R75's second table says of its kind. -/
inductive Event where
  | run (data : List Byte)
  | discard (count : Nat)
  | raw (pid : Pid) (data : List Byte)
  | unit (pid : Pid) (data : List Byte)
  | err (kind : ErrKind) (pid : Option Pid)
deriving DecidableEq, Repr

/-- A reassembly context with `V = 1` (R28): the last-seen continuity counter and the bytes of the unit in
progress. An entry with `V = 0` is absent from the table. -/
structure Ctx where
  cc : Cc
  buf : List Byte
deriving DecidableEq, Repr

/-- One beat of the `IN` port (R90): `in_data`, `in_last`, `in_dest`. -/
structure InBeat where
  data : Byte
  last : Bool
  dest : Bool
deriving DecidableEq, Repr

/-- What the caller drives at one rising edge (R89, R90, R92): `rst`, the word of `CMD` if `cmd_valid`, the
beat of `IN` if `in_valid`. -/
structure Edge where
  rst : Bool
  cmd : Option (BitVec 17)
  beat : Option InBeat
deriving DecidableEq, Repr

/-- A chunk whose first beats have been transferred and whose last has not (R90): the destination sampled on
its first beat, and its bytes so far. -/
structure PartChunk where
  dest : Bool
  bytes : List Byte
deriving DecidableEq, Repr

/-- The reasons a step can stop with a fault. The spec knows none ("no input stops it", 93_implementation_defined). -/
inductive Fault where
  /-- Raised by `drain` alone, if the bound R101 derives on the passes of a DRAIN (`len(ACC) div 188 + 2`) were
  exceeded. Safe: the machine stops where the hardware goes on. No state reaches it (an obligation says so). -/
  | drainBound
deriving DecidableEq, Repr

/-- The reasons a step can refuse, collected in 93_implementation_defined section 3. -/
inductive Refusal where
  /-- Raised by `exec` for an instruction that has no meaning yet; no arm does. Safe. -/
  | notModelled (mnemonic : String)
  /-- `refuse(illegal_command)` (R178, R86, D18): raised by `step` for a command word that the decoder rejects,
  and by `execSetn` for the operand 0. Safe: the hardware ignores the word. -/
  | illegalCommand
  /-- `refuse(acc_overflow)` (R66, R100, D7): raised by `execSwrite` in a build with a finite `ACC_CAP`. Safe. -/
  | accOverflow
  /-- `refuse(unit_overflow)` (R67, R155, D8): raised by `appendUnit` in a build with a finite `UNIT_CAP`. Safe. -/
  | unitOverflow
deriving DecidableEq, Repr

/-- The machine. The first eight fields are the complete architectural state of R20. PID-indexed tables are
sparse and sorted, so that equal tables are equal data. -/
structure State where
  /-- `ACC`, the byte accumulator, oldest byte first (R21). -/
  acc : List Byte
  /-- `LOCKED`, the lock state (R22). -/
  locked : Bool
  /-- `NLOCK` (R23). -/
  nlock : BitVec 8
  /-- `PSET`, the passthrough set: the PIDs whose bit is 1, rising (R24). -/
  pset : List Pid
  /-- `PALL` (R25). -/
  pall : Bool
  /-- `FSET`, the filter set: the PIDs whose bit is 1, rising (R26). -/
  fset : List Pid
  /-- `FALL` (R27). -/
  fall : Bool
  /-- `CTX`: the entries with `V = 1`, PIDs rising (R28). -/
  ctx : List (Pid × Ctx)
  /-- The `IN` port's half-transferred chunk, if one has begun (R90, R211). -/
  part : Option PartChunk
  /-- The model's own: what the caller will drive at the coming edges at which no operation is executing. -/
  wires : List Edge
  /-- The model's own: every event delivered at the `EVT` port so far, oldest first (R61). No rule reads it. -/
  events : List Event
  /-- The build-time parameters, which are not state (R34): no operation writes them. -/
  cfg : Config
deriving DecidableEq, Repr

/-- The state after reset (R210), idle, in the build with the model's default parameters (R7), with nothing
offered at the ports and nothing yet delivered. -/
def State.reset : State where
  acc := []
  locked := false
  nlock := nlockDefault
  pset := []
  pall := false
  fset := []
  fall := false
  ctx := []
  part := none
  wires := []
  events := []
  cfg := Config.default

/-- The outcome of an operation. -/
abbrev Out := Host.Outcome State Fault Refusal

end Sys2Proof.Machine
end

