-- ==== Sys2Proof/Machine/Ops.lean ====
section
/-! DEFINITION. The named operations over the state: the byte stores' three mutations (R11, R21), the
PID-indexed tables (R24, R26, R28), emission (R11, R61), raising an error and going on after it (R185, R196,
R197). -/

namespace Sys2Proof.Machine

/-- Run `f` on the next state; a fault or a refusal stays. -/
def andThen (o : Out) (f : State → Out) : Out :=
  match o with
  | .next s => f s
  | .fault r => .fault r
  | .refused r => .refused r

/-- The next state, if the outcome is one. -/
def nextState? (o : Out) : Option State :=
  match o with
  | .next s => some s
  | .fault _ => none
  | .refused _ => none

/-- The refusal, if the outcome is one. -/
def refusal? (o : Out) : Option Refusal :=
  match o with
  | .next _ => none
  | .fault _ => none
  | .refused r => some r

/-! ### Capacities (R66, R67) -/

/-- A length is within a capacity; every length is within `inf`. -/
def withinCap (cap : Option Nat) (n : Nat) : Bool :=
  match cap with
  | none => true
  | some c => decide (n ≤ c)

/-! ### Events and errors -/

/-- `emit E(...)`: append the event to the operation's list (R11, R61). -/
def emit (e : Event) (s : State) : State := { s with events := s.events ++ [e] }

/-- Which error kinds carry the PID (R75, D13). -/
def ErrKind.carriesPid : ErrKind → Bool
  | .invalidSync => false
  | .transportError => false
  | .scrambled => true
  | .orphan => true
  | .discontinuity => true
  | .lengthNotMultiple => false

/-- Taking an error, this hardware's exception entry (R185, R196): the `ERR` event is appended, with the PID
if the kind carries it, and nothing else: no state is saved, no mode changes, nothing is masked. Abandoning the
packet is the caller's: it answers this state as the packet's last. There is no return instruction (R197):
the stride loop of DWRITE goes on with the next stride by itself. -/
def raiseError (k : ErrKind) (pid : Pid) (s : State) : State :=
  emit (.err k (if k.carriesPid then some pid else none)) s

/-! ### The accumulator (R21) -/

/-- `ACC <- ACC ++ chunk`. -/
def accAppend (chunk : List Byte) (s : State) : State := { s with acc := s.acc ++ chunk }

/-- `ACC <- ACC[n:]`. -/
def accDrop (n : Nat) (s : State) : State := { s with acc := s.acc.drop n }

/-- `ACC <- []`. -/
def accClear (s : State) : State := { s with acc := [] }

/-- `LOCKED <- b`. -/
def setLocked (b : Bool) (s : State) : State := { s with locked := b }

/-- `NLOCK <- n`. -/
def setNlock (n : BitVec 8) (s : State) : State := { s with nlock := n }

/-! ### PID sets (R24, R26): strictly rising lists -/

/-- Set the bit of `p`. -/
def pidInsert (p : Pid) : List Pid → List Pid
  | [] => [p]
  | q :: qs => if p < q then p :: q :: qs else if p = q then q :: qs else q :: pidInsert p qs

/-- Clear the bit of `p`. -/
def pidErase (p : Pid) (l : List Pid) : List Pid := l.filter fun q => decide (q ≠ p)

/-- `FSET[pid] <- 1`. -/
def fsetAdd (p : Pid) (s : State) : State := { s with fset := pidInsert p s.fset }

/-- `FSET[pid] <- 0`. -/
def fsetRemove (p : Pid) (s : State) : State := { s with fset := pidErase p s.fset }

/-- `PSET[pid] <- 1`. -/
def psetAdd (p : Pid) (s : State) : State := { s with pset := pidInsert p s.pset }

/-- `PSET[pid] <- 0`. -/
def psetRemove (p : Pid) (s : State) : State := { s with pset := pidErase p s.pset }

/-- `FALL <- b`. -/
def setFall (b : Bool) (s : State) : State := { s with fall := b }

/-- `PALL <- b`. -/
def setPall (b : Bool) (s : State) : State := { s with pall := b }

/-! ### The context table (R28): a strictly rising list of the entries with `V = 1` -/

/-- `CTX[pid]`, absent when `V = 0`. -/
def tableGet (p : Pid) : List (Pid × Ctx) → Option Ctx
  | [] => none
  | (q, c) :: es => if p = q then some c else tableGet p es

/-- `CTX[pid] <- {V: 1, ...}`. -/
def tablePut (p : Pid) (c : Ctx) : List (Pid × Ctx) → List (Pid × Ctx)
  | [] => [(p, c)]
  | (q, d) :: es =>
    if p < q then (p, c) :: (q, d) :: es else if p = q then (p, c) :: es else (q, d) :: tablePut p c es

/-- `CTX[pid].V <- 0`. -/
def tableDrop (p : Pid) (t : List (Pid × Ctx)) : List (Pid × Ctx) := t.filter fun e => decide (e.1 ≠ p)

/-- Read one context. -/
def ctxGet (p : Pid) (s : State) : Option Ctx := tableGet p s.ctx

/-- Write one context. -/
def ctxPut (p : Pid) (c : Ctx) (s : State) : State := { s with ctx := tablePut p c s.ctx }

/-- Destroy one context. -/
def ctxDrop (p : Pid) (s : State) : State := { s with ctx := tableDrop p s.ctx }

/-! ### Canonical form -/

/-- A PID set is in canonical form: strictly rising. -/
abbrev pidsRising (l : List Pid) : Prop := l.Pairwise (· < ·)

/-- A context table is in canonical form: its PIDs strictly rise. -/
abbrev tableRising (t : List (Pid × Ctx)) : Prop := t.Pairwise fun a b => a.1 < b.1

end Sys2Proof.Machine
end

