-- ==== Sys2Proof/Machine/Control.lean ====
section
/-! DEFINITION. The configuration operations and RESET (R170 to R177). None emits an event. -/

namespace Sys2Proof.Machine

/-- `ADDF pid` (R170). -/
def execAddf (p : Pid) (s : State) : Out := .next (fsetAdd p s)

/-- `RMF pid` (R171): the context and its bytes are destroyed with the membership. -/
def execRmf (p : Pid) (s : State) : Out :=
  .next (if rmfDropsCtx then ctxDrop p (fsetRemove p s) else fsetRemove p s)

/-- `ADDP pid` (R172). -/
def execAddp (p : Pid) (s : State) : Out := .next (psetAdd p s)

/-- `RMP pid` (R173). -/
def execRmp (p : Pid) (s : State) : Out := .next (psetRemove p s)

/-- `SETFALL b` (R174). -/
def execSetfall (b : Bool) (s : State) : Out := .next (setFall b s)

/-- `SETPALL b` (R175). -/
def execSetpall (b : Bool) (s : State) : Out := .next (setPall b s)

/-- `RESET` (R177, R210, R211): every element to its reset value, a half-transferred chunk lost; the
build-time parameters are not touched. What lies outside the machine stays: the events already delivered and
what the caller will drive. -/
def execReset (s : State) : Out :=
  .next { State.reset with cfg := s.cfg, wires := s.wires, events := s.events }

end Sys2Proof.Machine
end

