-- ==== Sys2Proof/Machine/Flags.lean ====
section
/-! DEFINITION. What the two kinds of status bit depend on: the continuity validator (R156) and the stride
scan that decides `LOCKED` (R107). -/

namespace Sys2Proof.Machine

/-- `(prev + 1) mod 16`, a 4-bit add with the carry dropped (R156). -/
def nextCc (prev : Cc) : Cc := prev + 1#4

/-- The continuity validator `CV(prev, cc)` (R156). -/
def cvOk (prev cc : Cc) : Bool := cc == nextCc prev

/-- Of the first `n` strides of `b`, how many come before the first whose first byte is not the sync byte
(R107). Only the first byte of each stride is read. -/
def goodStrides : Nat → List Byte → Nat
  | 0, _ => 0
  | n + 1, b => if b.head? = some syncByte then goodStrides n (b.drop 188) + 1 else 0

/-- The complete strides held (R107: a stride is examined only when all 188 of its bytes are). -/
def strideCount (b : List Byte) : Nat := b.length / 188

/-- `ptr` where the scan of R107 ends: the total bytes covered by valid strides. -/
def scanPtr (b : List Byte) : Nat := 188 * goodStrides (strideCount b) b

/-- The scan met a complete stride whose first byte is not the sync byte (R107): the lock is lost. -/
def scanLost (b : List Byte) : Bool := decide (goodStrides (strideCount b) b < strideCount b)

end Sys2Proof.Machine
end

