-- ==== Sys2Proof/WellFormed.lean ====
section
/-! DEFINITION. Which terms of `Instr` stand for an operation the encodings admit (rules R70, R73, R80, R86). -/

namespace Sys2Proof

/-- The selecting condition of a packet class, as R80's table and the opcode table's match and mask give it,
on the header's fields. -/
def PacketClass.selects : PacketClass → Header → Bool
  | .badsync, h => h.sync != syncByte
  | .tei, h => h.sync == syncByte && h.tei
  | .scrHi, h => h.sync == syncByte && !h.tei && h.sc.getLsbD 1
  | .scrLo, h => h.sync == syncByte && !h.tei && h.sc == 1#2
  | .nopl, h => h.sync == syncByte && !h.tei && h.sc == 0#2 && !h.hasPl
  | .start, h => h.sync == syncByte && !h.tei && h.sc == 0#2 && h.hasPl && h.pusi
  | .cont, h => h.sync == syncByte && !h.tei && h.sc == 0#2 && h.hasPl && !h.pusi

/-- A packet has exactly 188 bytes (R70): 4 of header and 184 more. -/
def Packet.wf (p : Packet) : Bool := p.body.length == 184

/-- A well-formed instruction: `SETN`'s operand is 1 to 255 (R111), a packet class holds a whole packet of
that class (R80); every chunk is legal in the model (R72), and so is every other operand. -/
def Instr.wf : Instr → Bool
  | .swrite _ => true
  | .dwrite _ => true
  | .setn n => n != 0#8
  | .addf _ => true
  | .rmf _ => true
  | .addp _ => true
  | .rmp _ => true
  | .setfall _ => true
  | .setpall _ => true
  | .reset => true
  | .pBadsync p => p.wf && PacketClass.badsync.selects p.header
  | .pTei p => p.wf && PacketClass.tei.selects p.header
  | .pScrHi p => p.wf && PacketClass.scrHi.selects p.header
  | .pScrLo p => p.wf && PacketClass.scrLo.selects p.header
  | .pNopl p => p.wf && PacketClass.nopl.selects p.header
  | .pStart p => p.wf && PacketClass.start.selects p.header
  | .pCont p => p.wf && PacketClass.cont.selects p.header

end Sys2Proof
end

