-- ==== Sys2Proof/Decode.lean ====
section
/-! DEFINITION. The decoder and the encoder of TSCORE's formats (rules R51, R52, R70 to R74, R76, R77, R79,
R80, R86, R137), written from the spec's tables: the header parser `HP`, the command word, and the numbering of
spec/opcode_table.json. -/

namespace Sys2Proof

/-- Why a word is no instruction. The first three are the illegal command words of R86. -/
inductive Reject where
  /-- `op` is 0x0 or 0x8 to 0xF. -/
  | reservedOp
  /-- Argument bits that must be 0 are not: `SETFALL`, `SETPALL` with `arg[12:1] != 0`, `SETN` with
  `arg[12:8] != 0`. -/
  | reservedArg
  /-- `SETN` with `arg[7:0] = 0`. -/
  | zeroThreshold
  /-- A byte sequence that is not 188 bytes long is no packet (R70); no port offers one. -/
  | notAPacket
deriving DecidableEq, Repr

/-! ### The header word (R51, R71, R137) -/

/-- The big-endian 32-bit header word `h = {p[0], p[1], p[2], p[3]}` (R51). -/
def headerWord (b0 b1 b2 b3 : Byte) : BitVec 32 := b0 ++ b1 ++ b2 ++ b3

/-- The header parser `HP` (R71, R76, R77, R137). -/
def parseHeader (h : BitVec 32) : Header where
  sync := h.extractLsb' 24 8
  tei := h.getLsbD 23
  pusi := h.getLsbD 22
  tp := h.getLsbD 21
  pid := h.extractLsb' 8 13
  sc := h.extractLsb' 6 2
  hasAf := h.getLsbD 5
  hasPl := h.getLsbD 4
  cc := h.extractLsb' 0 4

/-- Byte `i` of a header's 32-bit word, offset 0 being bits 31:24 (R51, R71). -/
def Header.bytes (h : Header) : List Byte :=
  [h.sync,
   BitVec.ofBool h.tei ++ BitVec.ofBool h.pusi ++ BitVec.ofBool h.tp ++ h.pid.extractLsb' 8 5,
   h.pid.extractLsb' 0 8,
   h.sc ++ BitVec.ofBool h.hasAf ++ BitVec.ofBool h.hasPl ++ h.cc]

/-- A packet read from its bytes (R70, R137). -/
def parsePacket (p : List Byte) : Packet where
  header := parseHeader (headerWord (p.getD 0 0) (p.getD 1 0) (p.getD 2 0) (p.getD 3 0))
  body := p.drop 4

/-- The bytes of a packet, offset 0 first (R70). -/
def Packet.bytes (p : Packet) : List Byte := p.header.bytes ++ p.body

/-- The class of a header, tested in the order of the steps of R131 (R80, R81). -/
def Header.cls (h : Header) : PacketClass :=
  if h.sync ≠ syncByte then .badsync
  else if h.tei then .tei
  else if h.sc ≠ 0#2 then (if h.sc.getLsbD 1 then .scrHi else .scrLo)
  else if !h.hasPl then .nopl
  else if h.pusi then .start
  else .cont

/-- The instruction that a packet of a class is. -/
def PacketClass.instr : PacketClass → Packet → Instr
  | .badsync, p => .pBadsync p
  | .tei, p => .pTei p
  | .scrHi, p => .pScrHi p
  | .scrLo, p => .pScrLo p
  | .nopl, p => .pNopl p
  | .start, p => .pStart p
  | .cont, p => .pCont p

/-- The packet class instruction of a stride's bytes. -/
def decodePacket (bytes : List Byte) : Except Reject Instr :=
  if bytes.length = 188 then
    .ok ((parsePacket bytes).header.cls.instr (parsePacket bytes))
  else .error .notAPacket

/-! ### The command word (R73, R79, R86) -/

/-- The 17-bit command word `{op[3:0], arg[12:0]}`. -/
def cmdWord (op : BitVec 4) (arg : BitVec 13) : BitVec 17 := op ++ arg

/-- `op = cmd[16:13]`. -/
def cmdOp (w : BitVec 17) : BitVec 4 := w.extractLsb' 13 4

/-- `arg = cmd[12:0]`. -/
def cmdArg (w : BitVec 17) : BitVec 13 := w.extractLsb' 0 13

/-- A flag operand: `b = arg[0]`, and `arg[12:1]` must be 0 (R79, R86). -/
def flagOperand (arg : BitVec 13) : Except Reject Bool :=
  if arg.extractLsb' 1 12 = 0#12 then .ok (arg.getLsbD 0) else .error .reservedArg

/-- `SETN`'s operand: `n = arg[7:0]`, not 0, and `arg[12:8]` must be 0 (R79, R86). -/
def thresholdOperand (arg : BitVec 13) : Except Reject (BitVec 8) :=
  if arg.extractLsb' 8 5 ≠ 0#5 then .error .reservedArg
  else if arg.extractLsb' 0 8 = 0#8 then .error .zeroThreshold
  else .ok (arg.extractLsb' 0 8)

/-- The command map of R73. -/
def decodeCmd (w : BitVec 17) : Except Reject Instr :=
  match (cmdOp w).toNat with
  | 0x1 => .ok (.addf (cmdArg w))
  | 0x2 => .ok (.rmf (cmdArg w))
  | 0x3 => .ok (.addp (cmdArg w))
  | 0x4 => .ok (.rmp (cmdArg w))
  | 0x5 => (flagOperand (cmdArg w)).map .setfall
  | 0x6 => (flagOperand (cmdArg w)).map .setpall
  | 0x7 => (thresholdOperand (cmdArg w)).map .setn
  | _ => .error .reservedOp

/-- The decoder, total on every encoded form: `DATA` by `in_dest` (R72), `CMD` by `op` (R73), `PIN` is `RESET`
(R74), `TS` by the header word (R80). -/
def decode : OpWord → Except Reject Instr
  | .data false c => .ok (.swrite c)
  | .data true c => .ok (.dwrite c)
  | .cmd w => decodeCmd w
  | .pin => .ok .reset
  | .ts bytes => decodePacket bytes

/-! ### The encoder -/

/-- The encoded form of an instruction, from the same tables (R72, R73, R74, R70 with R71). -/
def encode : Instr → OpWord
  | .swrite c => .data false c
  | .dwrite c => .data true c
  | .setn n => .cmd (cmdWord 0x7#4 (0#5 ++ n))
  | .addf p => .cmd (cmdWord 0x1#4 p)
  | .rmf p => .cmd (cmdWord 0x2#4 p)
  | .addp p => .cmd (cmdWord 0x3#4 p)
  | .rmp p => .cmd (cmdWord 0x4#4 p)
  | .setfall b => .cmd (cmdWord 0x5#4 (0#12 ++ BitVec.ofBool b))
  | .setpall b => .cmd (cmdWord 0x6#4 (0#12 ++ BitVec.ofBool b))
  | .reset => .pin
  | .pBadsync p => .ts p.bytes
  | .pTei p => .ts p.bytes
  | .pScrHi p => .ts p.bytes
  | .pScrLo p => .ts p.bytes
  | .pNopl p => .ts p.bytes
  | .pStart p => .ts p.bytes
  | .pCont p => .ts p.bytes

/-! ### The opcode table's numbering -/

/-- The packet whose header word is `w` and whose other 184 bytes are 0. The header is big-endian in the
stream (R51): bits 31:24 of `w` are packet byte 0. -/
def tableWordBytes (w : Nat) : List Byte :=
  [BitVec.ofNat 8 (w / 2 ^ 24), BitVec.ofNat 8 (w / 2 ^ 16), BitVec.ofNat 8 (w / 2 ^ 8), BitVec.ofNat 8 w]
    ++ List.replicate 184 0#8

/-- The encoded form of a word as the opcode table numbers its bits. One byte: a `DATA` row, bit 0 is
`in_dest`, the chunk is the one zero byte of its single beat. Three bytes: a `CMD` row, the 17 low bits. Four
bytes: a `TSH` row. The `PIN` row of `RESET` has the same bits as `DWRITE`'s and cannot be told from it by a
number (log entry 12). -/
def tableOpWord (nbits w : Nat) : OpWord :=
  if nbits ≤ 8 then .data (w.testBit 0) [0#8]
  else if nbits ≤ 24 then .cmd (BitVec.ofNat 17 w)
  else .ts (tableWordBytes w)

/-- The instruction the decoder reads from a word of the opcode table. -/
def decodeTableWord (nbits w : Nat) : Option Instr := (decode (tableOpWord nbits w)).toOption

end Sys2Proof
end

