-- ==== Sys2Proof/Machine/Operands.lean ====
section
/-! DEFINITION. The operands of the packet classes: where the payload starts and what it is (R78, R84, R152),
and which PIDs are selected (R134, R135). -/

namespace Sys2Proof.Machine

/-- `start`, the packet offset of the payload (R78): 4, or 5 plus the adaptation-field length, which is
packet byte 4; 5 to 260, computed without 8-bit wrap (R156). -/
def payloadStart (p : Packet) : Nat :=
  if p.header.hasAf then 5 + (p.body.headD 0).toNat else 4

/-- `Payload(p)` (R152). Where the adaptation field leaves no room (`afl` 184 to 255) the payload is empty, by
the spec's decision D12 (R84; log entry 7). -/
def payload (p : Packet) : List Byte :=
  if payloadStart p ≤ 188 then p.body.drop (payloadStart p - 4) else []

/-- The PID is selected for filtering (R135): `FSET[pid] = 1 or FALL = 1`. -/
def selected (p : Pid) (s : State) : Bool := decide (p ∈ s.fset) || s.fall

/-- The PID is passed through (R134): `PSET[pid] = 1 or PALL = 1`. -/
def passed (p : Pid) (s : State) : Bool := decide (p ∈ s.pset) || s.pall

end Sys2Proof.Machine
end

