-- ==== Sys2Proof/Machine/Packets.lean ====
section
/-! DEFINITION. The six packet classes (R132, R133, R150, R151, R153, R154), each the whole of what R131's
procedure does to a packet of that class: passthrough (R134), the filter gate (R135), then the class's own
steps. -/

namespace Sys2Proof.Machine

/-- Passthrough, step 3 (R134): the whole packet is emitted unmodified if its PID is passed through. -/
def passthrough (p : Packet) (s : State) : State :=
  if passed p.header.pid s then emit (.raw p.header.pid p.bytes) s else s

/-- Append, step 9 (R155), and the context written with it: `CTX[pid] <- {V: 1, CC: cc, BUF: buf ++ pl}`,
refused if the buffer would be longer than `UNIT_CAP` (R67). -/
def appendUnit (pid : Pid) (cc : Cc) (buf pl : List Byte) (s : State) : Out :=
  if withinCap s.cfg.unitCap (buf ++ pl).length then .next (ctxPut pid ⟨cc, buf ++ pl⟩ s)
  else .refused .unitOverflow

/-- A scrambled packet (R150): after passthrough, an error if the PID is selected. -/
def scrambledPacket (p : Packet) (s : State) : State :=
  if selected p.header.pid s then raiseError .scrambled p.header.pid (passthrough p s)
  else passthrough p s

/-- The unit in progress leaves as a completed unit, if there is one, even if it is empty (R153, D14). -/
def emitUnit (pid : Pid) (s : State) : State :=
  match ctxGet pid s with
  | some c => emit (.unit pid c.buf) s
  | none => s

/-- `P_BADSYNC` (R132, R186): step 1 raises; nothing else happens to the packet. -/
def execPBadsync (p : Packet) (s : State) : Out := .next (raiseError .invalidSync p.header.pid s)

/-- `P_TEI` (R133, R187): step 2 raises; no passthrough. -/
def execPTei (p : Packet) (s : State) : Out := .next (raiseError .transportError p.header.pid s)

/-- `P_SCR`, row `sc[1]=1` (R150, R188). -/
def execPScrHi (p : Packet) (s : State) : Out := .next (scrambledPacket p s)

/-- `P_SCR`, row `sc=0b01` (R150, R188). -/
def execPScrLo (p : Packet) (s : State) : Out := .next (scrambledPacket p s)

/-- `P_NOPL` (R151): passthrough, and nothing to reassemble. -/
def execPNopl (p : Packet) (s : State) : Out := .next (passthrough p s)

/-- `P_START` (R153): the unit in progress is emitted, a fresh context is seeded with this packet's counter
and holds this packet's payload; the counter is not checked. -/
def execPStart (p : Packet) (s : State) : Out :=
  if selected p.header.pid s then
    appendUnit p.header.pid p.header.cc [] (payload p) (emitUnit p.header.pid (passthrough p s))
  else .next (passthrough p s)

/-- `P_CONT` (R154): without a context an orphan, whose payload is dropped; with one the counter is checked and
stored as observed, and the payload is appended whether or not it matched. -/
def execPCont (p : Packet) (s : State) : Out :=
  if selected p.header.pid s then
    match ctxGet p.header.pid s with
    | none => .next (raiseError .orphan p.header.pid (passthrough p s))
    | some c =>
      appendUnit p.header.pid p.header.cc c.buf (payload p)
        (if cvOk c.cc p.header.cc then passthrough p s
         else raiseError .discontinuity p.header.pid (passthrough p s))
  else .next (passthrough p s)

end Sys2Proof.Machine
end

