-- ==== Sys2Proof/Machine/Demux.lean ====
section
/-! DEFINITION. DWRITE (R130): the stride loop, each stride decoded to its packet class and run. -/

namespace Sys2Proof.Machine

/-- `PACKET(p)` (R131): run the packet's class (R80). -/
def execPacket (p : Packet) (s : State) : Out :=
  match p.header.cls with
  | .badsync => execPBadsync p s
  | .tei => execPTei p s
  | .scrHi => execPScrHi p s
  | .scrLo => execPScrLo p s
  | .nopl => execPNopl p s
  | .start => execPStart p s
  | .cont => execPCont p s

/-- The first `n` strides of a chunk (R54, R130): stride `k` is `bytes[188k : 188k+188]`. -/
def strides : Nat → List Byte → List (List Byte)
  | 0, _ => []
  | n + 1, b => b.take 188 :: strides n (b.drop 188)

/-- The strides in order, each parsed independently (R130): an error on one does not stop the next (R196). -/
def runStrides : List (List Byte) → State → Out
  | [], s => .next s
  | p :: ps, s => andThen (execPacket (parsePacket p) s) (runStrides ps)

/-- The length error (R191), raised once, after all complete strides; it carries no PID. -/
def lengthCheck (bytes : List Byte) (s : State) : State :=
  if bytes.length % 188 = 0 then s else raiseError .lengthNotMultiple 0 s

/-- `DWRITE(bytes)` (R130). -/
def demuxWrite (bytes : List Byte) (s : State) : Out :=
  andThen (runStrides (strides (bytes.length / 188) bytes) s) fun t => .next (lengthCheck bytes t)

/-- `DWRITE` (R130). -/
def execDwrite (bytes : List Byte) (s : State) : Out := demuxWrite bytes s

end Sys2Proof.Machine
end

