-- ==== Sys2Proof/Machine/Sync.lean ====
section
/-! DEFINITION. The synchronizer: the lock search (R103), the drain (R101 to R109), SWRITE (R100), SETN
(R111). -/

namespace Sys2Proof.Machine

/-- Every probe offset `o + 188*i`, `i` in 0..N, holds the sync byte (R103: `N+1` of them, C2). -/
def probesMatch (b : List Byte) (n o : Nat) : Bool :=
  (List.range (n + 1)).all fun i => b[o + 188 * i]? == some syncByte

/-- `FindLock(B, N)` (R103): the least candidate offset, of `0` to `len(B) - 188*N - 1`, that matches. -/
def findLock (b : List Byte) (n : Nat) : Option Nat :=
  (List.range (b.length - 188 * n)).find? (probesMatch b n)

/-- Remove `n` bytes from the front of `ACC` and report exactly them (R104, R192). -/
def discardFront (n : Nat) (s : State) : State := emit (.discard n) (accDrop n s)

/-- Step 1 of a drain pass (R101): the fill check (R102), the failed lock (R104), lock acquisition (R105; the
lock is set first, and a discard is reported only if bytes were dropped). The flag says whether the pass goes
on to step 2. -/
def hunt (s : State) : State × Bool :=
  if s.locked then (s, true)
  else if s.acc.length < (s.nlock.toNat + 1) * 188 then (s, false)
  else
    match findLock s.acc s.nlock.toNat with
    | none => (discardFront (s.acc.length - s.nlock.toNat * 188) s, false)
    | some o => (if o = 0 then setLocked true s else discardFront o (setLocked true s), true)

/-- Step 4's emission (R108): the valid strides leave as one run, and with `CHAIN = 1` are at once executed as a
DWRITE (R62); nothing is emitted for `ptr = 0` (C7). -/
def emitRun (ptr : Nat) (s : State) : Out :=
  if ptr = 0 then .next s
  else
    let t := emit (.run (s.acc.take ptr)) (accDrop ptr s)
    if s.cfg.chain then demuxWrite (s.acc.take ptr) t else .next t

/-- One pass of the drain's loop (R101): step 1, the locked wait (R106), the stride scan (R107), the run (R108),
and `again` if the lock was lost in this pass (R109). -/
def drainBody (again : State → Out) (s : State) : Out :=
  match hunt s with
  | (s1, false) => .next s1
  | (s1, true) =>
    if s1.acc.length < 188 then .next s1
    else
      andThen (emitRun (scanPtr s1.acc) (setLocked (!scanLost s1.acc) s1)) fun t =>
        if t.locked then .next t else again t

/-- At most `n` passes. -/
def drainLoop : Nat → State → Out
  | 0 => fun _ => .fault .drainBound
  | n + 1 => drainBody (drainLoop n)

/-- `DRAIN()` (R101), with R101's bound on its passes, `len(ACC) div 188 + 2`. -/
def drain (s : State) : Out := drainLoop (s.acc.length / 188 + 2) s

/-- `SWRITE chunk` (R100): refused beyond `ACC_CAP` (R66), else the chunk is appended and drained once. -/
def execSwrite (chunk : List Byte) (s : State) : Out :=
  if withinCap s.cfg.accCap (s.acc.length + chunk.length) then drain (accAppend chunk s)
  else .refused .accOverflow

/-- `SETN n` (R111): a hard reset of the synchronizer, then the threshold; 0 is illegal (R178). -/
def execSetn (n : BitVec 8) (s : State) : Out :=
  if n = 0#8 then .refused .illegalCommand
  else .next (setNlock n (setLocked false (accClear s)))

end Sys2Proof.Machine
end

