-- ==== Sys2Proof/Machine/Dispatch.lean ====
section
/-! DEFINITION. One arm for each constructor of Instr. -/

namespace Sys2Proof.Machine

def exec (i : Instr) (s : State) : Host.Outcome State Fault Refusal :=
  match i with
  | .swrite chunk => Sys2Proof.Machine.execSwrite chunk s
  | .dwrite chunk => Sys2Proof.Machine.execDwrite chunk s
  | .setn n => Sys2Proof.Machine.execSetn n s
  | .addf pid => Sys2Proof.Machine.execAddf pid s
  | .rmf pid => Sys2Proof.Machine.execRmf pid s
  | .addp pid => Sys2Proof.Machine.execAddp pid s
  | .rmp pid => Sys2Proof.Machine.execRmp pid s
  | .setfall b => Sys2Proof.Machine.execSetfall b s
  | .setpall b => Sys2Proof.Machine.execSetpall b s
  | .reset => Sys2Proof.Machine.execReset s
  | .pBadsync p => Sys2Proof.Machine.execPBadsync p s
  | .pTei p => Sys2Proof.Machine.execPTei p s
  | .pScrHi p => Sys2Proof.Machine.execPScrHi p s
  | .pScrLo p => Sys2Proof.Machine.execPScrLo p s
  | .pNopl p => Sys2Proof.Machine.execPNopl p s
  | .pStart p => Sys2Proof.Machine.execPStart p s
  | .pCont p => Sys2Proof.Machine.execPCont p s

end Sys2Proof.Machine
end

