-- ==== Sys2Proof/Machine/Ports.lean ====
section
/-! DEFINITION. The physical binding (R75's codes, R89 to R92, R210's ports): how the signals driven at the ports
become the sequence of accepted operations, how an event becomes beats of the `EVT` port, and what the hardware
drives on its outputs at each edge. -/

namespace Sys2Proof.Machine

/-! ### Input side: `rst`, `CMD`, `IN` -/

/-- `cmd_ready` at an edge where no operation executes (R89, R92): not in reset, no chunk begun. -/
def cmdReady (c : Option PartChunk) (e : Edge) : Bool := !e.rst && c.isNone

/-- `in_ready` at an edge where no operation executes (R89, R92, R210): 1 but in reset, with one exception: in
an idle cycle in which a command and a chunk's first beat are both offered the beat waits (log entry 17). That it
is 1 at every edge of a chunk already begun is a DESIGN CHOICE (log entry 23): R92 says only when it may be. -/
def inReady (c : Option PartChunk) (e : Edge) : Bool :=
  !e.rst && (c.isSome || e.cmd.isNone || e.beat.isNone)

/-- One beat of `IN` is transferred (R90): `in_dest` counts on the first beat only; the last beat completes
the chunk. -/
def takeBeat (c : Option PartChunk) (b : InBeat) : Option OpWord × Option PartChunk :=
  let chunk : PartChunk :=
    match c with
    | none => ⟨b.dest, [b.data]⟩
    | some c => ⟨c.dest, c.bytes ++ [b.data]⟩
  if b.last then (some (.data chunk.dest chunk.bytes), none) else (none, some chunk)

/-- One rising edge at which no operation is executing: the operation it completes, if any, and the chunk then
begun. `rst` performs RESET whatever else is offered and loses a half-transferred chunk (R89, R211). A word or
beat that is not transferred waits: the caller drives it again. -/
def portEdge (c : Option PartChunk) (e : Edge) : Option OpWord × Option PartChunk :=
  if e.rst then (some .pin, none)
  else if cmdReady c e && e.cmd.isSome then (e.cmd.map .cmd, c)
  else
    match e.beat with
    | some b => if inReady c e then takeBeat c b else (none, c)
    | none => (none, c)

/-- Edges pass until one completes an operation: that operation, the chunk begun, the edges left (R92: the
order in which operations execute is the order of these transfers). -/
def nextOp : Option PartChunk → List Edge → Option OpWord × Option PartChunk × List Edge
  | c, [] => (none, c, [])
  | c, e :: es =>
    match portEdge c e with
    | (some w, c') => (some w, c', es)
    | (none, c') => nextOp c' es

/-- An edge at which only a command word is offered. -/
def Edge.ofCmd (w : BitVec 17) : Edge := ⟨false, some w, none⟩

/-- An edge at which only a beat is offered. -/
def Edge.ofBeat (b : InBeat) : Edge := ⟨false, none, some b⟩

/-- An edge with `rst` asserted and nothing offered. -/
def Edge.ofRst : Edge := ⟨true, none, none⟩

/-! ### Output side: `EVT` -/

/-- The `kind` codes of R75. -/
def Event.kindCode : Event → BitVec 3
  | .run _ => 0#3
  | .discard _ => 1#3
  | .raw _ _ => 2#3
  | .unit _ _ => 3#3
  | .err _ _ => 4#3

/-- The `err` codes of R75. -/
def ErrKind.code : ErrKind → BitVec 3
  | .invalidSync => 1#3
  | .transportError => 2#3
  | .scrambled => 3#3
  | .orphan => 4#3
  | .discontinuity => 5#3
  | .lengthNotMultiple => 6#3

/-- One beat of the `EVT` port (R91). -/
structure EvtBeat where
  kind : BitVec 3
  err : BitVec 3
  pid : Pid
  pidv : Bool
  count : Nat
  data : Byte
  dv : Bool
  last : Bool
deriving DecidableEq, Repr

/-- `ev_err`: the error code of an `ERR` event, 0 on every other (R75, R91). -/
def Event.errCode : Event → BitVec 3
  | .err k _ => k.code
  | .run _ => 0#3
  | .discard _ => 0#3
  | .raw _ _ => 0#3
  | .unit _ _ => 0#3

/-- The PID an event carries, if it carries one (R75). -/
def Event.pid? : Event → Option Pid
  | .run _ => none
  | .discard _ => none
  | .raw p _ => some p
  | .unit p _ => some p
  | .err _ p => p

/-- The bytes an event carries (R75, R91). -/
def Event.data : Event → List Byte
  | .run d => d
  | .discard _ => []
  | .raw _ d => d
  | .unit _ d => d
  | .err _ _ => []

/-- `ev_count` (R91). -/
def Event.count : Event → Nat
  | .run d => d.length
  | .discard n => n
  | .raw _ d => d.length
  | .unit _ d => d.length
  | .err _ _ => 0

/-- A beat of an event: the fields that hold the same value on every beat, and one byte or none. -/
def Event.beat (e : Event) (d : Option Byte) (last : Bool) : EvtBeat where
  kind := e.kindCode
  err := e.errCode
  pid := e.pid?.getD 0
  pidv := e.pid?.isSome
  count := e.count
  data := d.getD 0
  dv := d.isSome
  last := last

/-- The data beats of an event: one a byte, the last marked. -/
def Event.dataBeats (e : Event) : List Byte → List EvtBeat
  | [] => []
  | d :: ds => e.beat (some d) ds.isEmpty :: Event.dataBeats e ds

/-- The beats of an event (R91): one for each of its bytes, or a single beat without data. -/
def Event.beats (e : Event) : List EvtBeat :=
  if e.data.isEmpty then [e.beat none true] else e.dataBeats e.data

/-- What leaves the `EVT` port: each event complete before the next begins (R61, R91). -/
def evtStream (es : List Event) : List EvtBeat := es.flatMap Event.beats

/-- Beats leave the `EVT` port, one at each edge at which the consumer drives `ev_ready` = 1 (R91): those that
have left and those still to come. An edge with `ev_ready` = 0 stalls the hardware (D19). That `ev_valid` is 1 at
every one of these edges until all have left is a DESIGN CHOICE (log entry 24). -/
def deliver : List Bool → List EvtBeat → List EvtBeat × List EvtBeat
  | [], q => ([], q)
  | true :: rs, b :: q => (b :: (deliver rs q).1, (deliver rs q).2)
  | true :: rs, [] => deliver rs []
  | false :: rs, q => deliver rs q

/-! ### What the hardware drives at one edge -/

/-- The hardware's outputs at one rising edge (R89 to R92): `ev_valid` is 1 with a beat on the port, or 0. -/
structure Outputs where
  inReady : Bool
  cmdReady : Bool
  evt : Option EvtBeat
deriving DecidableEq, Repr

/-- `ev_valid`. -/
def Outputs.evValid (o : Outputs) : Bool := o.evt.isSome

/-- The outputs at an edge where no operation executes, idle or with a chunk begun (R92, R210): every event of
the last operation has been delivered, so `ev_valid` = 0. -/
def waitingOutputs (c : Option PartChunk) (e : Edge) : Outputs := ⟨inReady c e, cmdReady c e, none⟩

/-- The outputs at an edge where an operation executes (R92, R211): nothing is accepted, and the first of its
beats that are ready and not yet delivered is offered, unless `rst` is asserted. That it is offered at every such
edge is a DESIGN CHOICE (log entry 24). -/
def executingOutputs (rst : Bool) (pending : List EvtBeat) : Outputs :=
  ⟨false, false, if rst then none else pending.head?⟩

end Sys2Proof.Machine
end

