-- ==== Sys2Proof/Machine/Step.lean ====
section
/-! DEFINITION. One step is one whole operation, from an idle state to an idle state (R8, R56): the ports are
watched until an operation is accepted, it is decoded and executed. -/

namespace Sys2Proof.Machine

/-- The state once the ports have been watched: the chunk begun and the edges left are as they stand. -/
def State.afterPorts (s : State) : State :=
  { s with part := (nextOp s.part s.wires).2.1, wires := (nextOp s.part s.wires).2.2 }

/-- One step. If nothing completes an operation the hardware waits, idle or with a chunk begun (R92, R210); a
command word the decoder rejects is refused (R178). -/
def step (s : State) : Host.Outcome State Fault Refusal :=
  match (nextOp s.part s.wires).1 with
  | none => .next s.afterPorts
  | some w =>
    match decode w with
    | .ok i => exec i s.afterPorts
    | .error _ => .refused .illegalCommand

/-- The state in which the caller offers one more chunk before everything else: its bytes but the last have
been transferred and the last is driven at the next edge (R90). -/
def State.offerChunk (s : State) (dest : Bool) (bytes : List Byte) : State :=
  { s with
    part := if bytes.dropLast.isEmpty then none else some ⟨dest, bytes.dropLast⟩
    wires := Edge.ofBeat ⟨bytes.getLastD 0, true, dest⟩ :: s.wires }

/-- `s` with the operation that a word of the opcode table encodes offered as the very next one. A `DATA` row is
offered as its one beat, a `CMD` row as its command word, a `TSH` row as a DWRITE of that one packet, which is how
the hardware meets a packet (R130). -/
def State.withFetchWord (s : State) (nbits w : Nat) : State :=
  match tableOpWord nbits w with
  | .data dest chunk => s.offerChunk dest chunk
  | .cmd word => { s with part := none, wires := Edge.ofCmd word :: s.wires }
  | .pin => { s with part := none, wires := Edge.ofRst :: s.wires }
  | .ts bytes => s.offerChunk true bytes

end Sys2Proof.Machine
end

