-- ==== Sys2Proof/Safety.lean ====
section
/-! DEFINITION. The terms the claims use: the invariant of every idle state (R33), which operation may write
which element (R20), literal transcriptions of the spec's two complete pseudocodes (R101, R131) to hold the
machine against, and readings of an event list (R112, R158). -/

namespace Sys2Proof.Machine

/-! ### The idle-state invariant -/

/-- What holds in every idle state: I1, I2 and I3 of R33, the canonical form of the PID-indexed tables, the
capacities of the build (R66, R67), and that a chunk that has begun holds a byte (R90). -/
abbrev State.Inv (s : State) : Prop :=
  s.nlock ≠ 0#8 ∧
  (s.locked = true → s.acc.length < 188) ∧
  (s.locked = false → s.acc.length < (s.nlock.toNat + 1) * 188) ∧
  pidsRising s.pset ∧ pidsRising s.fset ∧ tableRising s.ctx ∧
  withinCap s.cfg.accCap s.acc.length = true ∧
  (∀ e ∈ s.ctx, withinCap s.cfg.unitCap e.2.buf.length = true) ∧
  s.part.all (fun c => !c.bytes.isEmpty) = true

/-- A build with a finite `UNIT_CAP` has room for `n` more packets' payloads in every context, and for a fresh
context of as many (R67, R219: what the caller must see to). -/
abbrev roomFor (n : Nat) (s : State) : Prop :=
  ∀ u, s.cfg.unitCap = some u → (∀ e ∈ s.ctx, e.2.buf.length + 184 * n ≤ u) ∧ 184 * n ≤ u

/-! ### Events -/

/-- The state with events appended to what has been delivered. -/
def State.addEvents (s : State) (es : List Event) : State := { s with events := s.events ++ es }

/-- The events an operation emitted, given the states before and after it. -/
def newEvents (s t : State) : List Event := t.events.drop s.events.length

/-- The passthrough events of one packet (R134). -/
def rawEvents (p : Packet) (s : State) : List Event :=
  if p.header.pid ∈ s.pset ∨ s.pall = true then [.raw p.header.pid p.bytes] else []

/-- The PID is selected for filtering (R135). -/
abbrev filtered (pid : Pid) (s : State) : Prop := pid ∈ s.fset ∨ s.fall = true

/-- The concatenated data of the `RUN` events. -/
def runBytes (es : List Event) : List Byte :=
  es.flatMap fun e => match e with
    | .run d => d
    | .discard _ => []
    | .raw _ _ => []
    | .unit _ _ => []
    | .err _ _ => []

/-- The `RAW` events of a list, in order. -/
def rawsOf (es : List Event) : List Event :=
  es.filter fun e => match e with
    | .raw _ _ => true
    | .run _ => false
    | .discard _ => false
    | .unit _ _ => false
    | .err _ _ => false

/-- The events of a list that are not `RAW`, in order. -/
def nonRawsOf (es : List Event) : List Event :=
  es.filter fun e => match e with
    | .raw _ _ => false
    | .run _ => true
    | .discard _ => true
    | .unit _ _ => true
    | .err _ _ => true

/-- The units of one PID in a list of events, in order. -/
def unitsOf (pid : Pid) (es : List Event) : List (List Byte) :=
  es.filterMap fun e => match e with
    | .unit p d => if p = pid then some d else none
    | .run _ => none
    | .discard _ => none
    | .raw _ _ => none
    | .err _ _ => none

/-- Account for a byte sequence by the synchronizer's events (R112 c): a `RUN` must be the next bytes, a
`DISCARD` takes as many as it counts, the demultiplexer's events take none. What is left, if the events fit. -/
def account : List Event → List Byte → Option (List Byte)
  | [], b => some b
  | .run d :: es, b => if b.take d.length = d then account es (b.drop d.length) else none
  | .discard n :: es, b => if n ≤ b.length then account es (b.drop n) else none
  | .raw _ _ :: es, b => account es b
  | .unit _ _ :: es, b => account es b
  | .err _ _ :: es, b => account es b

/-- An event's fields are as R75's tables allow. -/
def Event.shapeOk : Event → Bool
  | .run d => decide (0 < d.length) && d.length % 188 == 0
  | .discard n => decide (1 ≤ n)
  | .raw _ d => d.length == 188
  | .unit _ _ => true
  | .err k p => p.isSome == k.carriesPid

/-- The outcome with events put before everything delivered. -/
def prependEvents (es : List Event) : Out → Out
  | .next s => .next { s with events := es ++ s.events }
  | .fault r => .fault r
  | .refused r => .refused r

/-! ### Which operation may write which element (R20, the column "written by") -/

/-- `ACC` and `LOCKED`: `SWRITE`, `SETN`, `RESET`. -/
def Instr.writesSync : Instr → Bool
  | .swrite _ => true
  | .setn _ => true
  | .reset => true
  | _ => false

/-- `NLOCK`: `SETN`, `RESET`. -/
def Instr.writesNlock : Instr → Bool
  | .setn _ => true
  | .reset => true
  | _ => false

/-- `PSET`: `ADDP`, `RMP`, `RESET`. -/
def Instr.writesPset : Instr → Bool
  | .addp _ => true
  | .rmp _ => true
  | .reset => true
  | _ => false

/-- `PALL`: `SETPALL`, `RESET`. -/
def Instr.writesPall : Instr → Bool
  | .setpall _ => true
  | .reset => true
  | _ => false

/-- `FSET`: `ADDF`, `RMF`, `RESET`. -/
def Instr.writesFset : Instr → Bool
  | .addf _ => true
  | .rmf _ => true
  | .reset => true
  | _ => false

/-- `FALL`: `SETFALL`, `RESET`. -/
def Instr.writesFall : Instr → Bool
  | .setfall _ => true
  | .reset => true
  | _ => false

/-- `CTX`: `DWRITE` and the packets it runs, of the two classes that reach step 8 (R157); `SWRITE` only through
the DWRITE that a run triggers with `CHAIN = 1`; `RMF`; `RESET`. -/
def Instr.writesCtx (chain : Bool) : Instr → Bool
  | .dwrite _ => true
  | .pStart _ => true
  | .pCont _ => true
  | .swrite _ => chain
  | .rmf _ => true
  | .reset => true
  | _ => false

/-! ### The spec's pseudocode, transcribed to hold the machine against -/

/-- `Payload(p)` on the packet's bytes, as R152 writes it. -/
def payloadR152 (b : List Byte) : List Byte :=
  if (b.getD 3 0).getLsbD 5 = false then (b.take 188).drop 4
  else if 5 + (b.getD 4 0).toNat ≤ 188 then (b.take 188).drop (5 + (b.getD 4 0).toNat)
  else []

/-- `CTX[pid].BUF <- CTX[pid].BUF ++ payload`, as R155 writes it. -/
def appendR155 (pid : Pid) (pl : List Byte) (s : State) : Out :=
  match ctxGet pid s with
  | none => .next s
  | some c =>
    if withinCap s.cfg.unitCap (c.buf.length + pl.length) then .next (ctxPut pid ⟨c.cc, c.buf ++ pl⟩ s)
    else .refused .unitOverflow

/-- `PACKET(p)`, line by line as R131 writes it, on the packet's bytes. -/
def packetR131 (b : List Byte) (s : State) : Out :=
  let h := headerWord (b.getD 0 0) (b.getD 1 0) (b.getD 2 0) (b.getD 3 0)
  if h.extractLsb' 24 8 ≠ 0x47#8 then .next (s.addEvents [.err .invalidSync none])
  else if h.getLsbD 23 = true then .next (s.addEvents [.err .transportError none])
  else
    let pid := h.extractLsb' 8 13
    let s1 := if pid ∈ s.pset ∨ s.pall = true then s.addEvents [.raw pid b] else s
    if pid ∉ s.fset ∧ s.fall = false then .next s1
    else if h.extractLsb' 6 2 ≠ 0#2 then .next (s1.addEvents [.err .scrambled (some pid)])
    else if h.getLsbD 4 = false then .next s1
    else
      let pl := payloadR152 b
      let cc := h.extractLsb' 0 4
      if h.getLsbD 22 = true then
        let s2 := match ctxGet pid s1 with
          | some c => s1.addEvents [.unit pid c.buf]
          | none => s1
        appendR155 pid pl (ctxPut pid ⟨cc, []⟩ s2)
      else
        match ctxGet pid s1 with
        | none => .next (s1.addEvents [.err .orphan (some pid)])
        | some c =>
          let exp := (c.cc.toNat + 1) % 16
          let s2 := ctxPut pid ⟨cc, c.buf⟩ s1
          let s3 := if cc.toNat ≠ exp then s2.addEvents [.err .discontinuity (some pid)] else s2
          appendR155 pid pl s3

/-- Steps 2 to 4 of the drain as R101 writes them, from the state in which step 1 leaves the lock held. -/
def scanR101 (again : State → Out) (s : State) : Out :=
  if s.acc.length < 188 then .next s
  else
    let ptr := scanPtr s.acc
    let s1 := if ptr + 188 ≤ s.acc.length then { s with locked := false } else s
    let goRound : State → Out := fun t => if t.locked = true then .next t else again t
    if ptr > 0 then
      let r := s1.acc.take ptr
      let s2 := { s1 with acc := s1.acc.drop ptr }.addEvents [.run r]
      if s2.cfg.chain = true then andThen (exec (.dwrite r) s2) goRound else goRound s2
    else goRound s1

/-- One round of the loop of `DRAIN()` as R101 writes it; `again` is going round. -/
def drainR101 (again : State → Out) (s : State) : Out :=
  if s.locked = false then
    let len := s.acc.length
    if len < (s.nlock.toNat + 1) * 188 then .next s
    else
      match findLock s.acc s.nlock.toNat with
      | none =>
        let d := len - s.nlock.toNat * 188
        .next ({ s with acc := s.acc.drop d }.addEvents [.discard d])
      | some o =>
        let s1 := { s with locked := true }
        scanR101 again (if o ≠ 0 then { s1 with acc := s1.acc.drop o }.addEvents [.discard o] else s1)
  else scanR101 again s

/-- Deliver the synchronizer's events, each `RUN` followed at once by the DWRITE of its bytes (R62). -/
def feedRuns : List Event → State → Out
  | [], s => .next s
  | .run d :: es, s => andThen (exec (.dwrite d) (s.addEvents [.run d])) (feedRuns es)
  | .discard n :: es, s => feedRuns es (s.addEvents [.discard n])
  | .raw p d :: es, s => feedRuns es (s.addEvents [.raw p d])
  | .unit p d :: es, s => feedRuns es (s.addEvents [.unit p d])
  | .err k p :: es, s => feedRuns es (s.addEvents [.err k p])

/-! ### Where a step overflows a finite `UNIT_CAP` (R67, R155; 93_implementation_defined section 3) -/

/-- Appending this packet's payload would make its PID's buffer longer than a finite `UNIT_CAP`. -/
abbrev overflowsUnit (p : Packet) (s : State) : Prop :=
  filtered p.header.pid s ∧ ∃ u, s.cfg.unitCap = some u ∧
    ((p.header.cls = .start ∧ u < (payload p).length) ∨
     (p.header.cls = .cont ∧ ∃ old, tableGet p.header.pid s.ctx = some old ∧
       u < old.buf.length + (payload p).length))

/-- A DWRITE comes to a stride that overflows, in the state in which the strides before it leave the machine. -/
def dwriteOverflows (c : List Byte) (s : State) : Prop :=
  ∃ k t, 188 * k + 188 ≤ c.length ∧ exec (.dwrite (c.take (188 * k))) s = .next t ∧
    overflowsUnit (parsePacket ((c.drop (188 * k)).take 188)) t

/-- A chained SWRITE comes to a run whose DWRITE overflows, in the state in which the events before it, each
earlier run executed, leave the machine. The runs are those that the synchronizer alone emits. -/
def swriteOverflows (c : List Byte) (s : State) : Prop :=
  s.cfg.chain = true ∧ ∃ t es d fs u,
    exec (.swrite c) { s with cfg := { s.cfg with chain := false }, events := [] } = .next t ∧
    t.events = es ++ .run d :: fs ∧ feedRuns es s = .next u ∧ dwriteOverflows d (u.addEvents [.run d])

/-- The beats by which a chunk is driven (R90); what `in_dest` shows on the beats after the first is the
caller's (`ds`, one for each byte). -/
def beatsOf : List Byte → List Bool → List InBeat
  | [], _ => []
  | b :: bs, ds => ⟨b, bs.isEmpty, ds.headD false⟩ :: beatsOf bs ds.tail

end Sys2Proof.Machine
end

