-- ==== Sys2Proof/Certificates/Slice0/Obligations.lean ====
section
/-! DEFINITION. The statements for the provers. -/

open Sys2Proof Sys2Proof.Machine

/-! ### Encoding -/

/-- Words written out from the spec's encodings (the vectors DH1 to DH9 and DF7 of 95_test_vectors.md and its
list of command words) decode to the instructions they stand for. -/
def Obligations.SpecWordsDecode : Prop :=
  decode (.cmd 0x02100#17) = .ok (.addf 0x100#13) ∧
  decode (.cmd 0x04020#17) = .ok (.rmf 0x20#13) ∧
  decode (.cmd 0x07FFF#17) = .ok (.addp 0x1FFF#13) ∧
  decode (.cmd 0x08011#17) = .ok (.rmp 0x11#13) ∧
  decode (.cmd 0x0A001#17) = .ok (.setfall true) ∧
  decode (.cmd 0x0C000#17) = .ok (.setpall false) ∧
  decode (.cmd 0x0E0FF#17) = .ok (.setn 255#8) ∧
  decode (.cmd 0x0E100#17) = .error .reservedArg ∧
  (parseHeader 0x4741001E#32).cls = .start ∧
  (parseHeader 0x471FFF10#32).cls = .cont ∧
  (parseHeader 0x47E0113F#32).cls = .tei ∧
  (parseHeader 0x461FFF10#32).cls = .badsync ∧
  (parseHeader 0x47010095#32).cls = .scrHi ∧
  (parseHeader 0x47010065#32).cls = .scrLo ∧
  (parseHeader 0x475FFF27#32).cls = .nopl

/-- For every well-formed instruction, decoding its encoded form gives it back: no bit of an operand is lost. -/
def Obligations.DecodeOfEncodeIsInstruction : Prop :=
  ∀ i : Instr, i.wf = true → decode (encode i) = .ok i

/-- Whatever decodes, decodes to a well-formed instruction that encodes to the very same word: no two words of
one format mean the same, and no decoded instruction is ill-formed. -/
def Obligations.EncodeOfDecodeIsWord : Prop :=
  ∀ (w : OpWord) (i : Instr), decode w = .ok i → i.wf = true ∧ encode i = w

/-- R73, R79: the command map, word by word, operands included, and nothing else decodes. -/
def Obligations.CommandWordMap : Prop :=
  ∀ w : BitVec 17,
    (∀ p : Pid, decode (.cmd w) = .ok (.addf p) ↔ w.toNat = 0x1 * 8192 + p.toNat) ∧
    (∀ p : Pid, decode (.cmd w) = .ok (.rmf p) ↔ w.toNat = 0x2 * 8192 + p.toNat) ∧
    (∀ p : Pid, decode (.cmd w) = .ok (.addp p) ↔ w.toNat = 0x3 * 8192 + p.toNat) ∧
    (∀ p : Pid, decode (.cmd w) = .ok (.rmp p) ↔ w.toNat = 0x4 * 8192 + p.toNat) ∧
    (∀ b : Bool, decode (.cmd w) = .ok (.setfall b) ↔ w.toNat = 0x5 * 8192 + b.toNat) ∧
    (∀ b : Bool, decode (.cmd w) = .ok (.setpall b) ↔ w.toNat = 0x6 * 8192 + b.toNat) ∧
    (∀ n : BitVec 8, decode (.cmd w) = .ok (.setn n) ↔ n ≠ 0#8 ∧ w.toNat = 0x7 * 8192 + n.toNat) ∧
    (w.toNat / 8192 = 0 ∨ 8 ≤ w.toNat / 8192 → decode (.cmd w) = .error .reservedOp)

/-- The illegal command words are exactly those R86 lists, and a step that takes one is refused: R86 and R178
say that the hardware ignores the word and that a model refuses it (log entry 6). -/
def Obligations.IllegalCommandsAreRefused : Prop :=
  ∀ w : BitVec 17,
    ((∀ i, decode (.cmd w) ≠ .ok i) ↔
      (w.toNat / 8192 = 0 ∨ 8 ≤ w.toNat / 8192 ∨
       ((w.toNat / 8192 = 5 ∨ w.toNat / 8192 = 6) ∧ 2 ≤ w.toNat % 8192) ∨
       (w.toNat / 8192 = 7 ∧ (256 ≤ w.toNat % 8192 ∨ w.toNat % 256 = 0)))) ∧
    (∀ (s : State) (es : List Edge), s.part = none → s.wires = Edge.ofCmd w :: es →
      (∀ i, decode (.cmd w) ≠ .ok i) → step s = .refused .illegalCommand)

/-- R76, R77, R137: the header word is big-endian and its fields are these bits of the four bytes. -/
def Obligations.HeaderFieldsOfBytes : Prop :=
  ∀ b0 b1 b2 b3 : Byte,
    (headerWord b0 b1 b2 b3).toNat = b0.toNat * 2 ^ 24 + b1.toNat * 2 ^ 16 + b2.toNat * 2 ^ 8 + b3.toNat ∧
    (parseHeader (headerWord b0 b1 b2 b3)).sync = b0 ∧
    (parseHeader (headerWord b0 b1 b2 b3)).tei = b1.getLsbD 7 ∧
    (parseHeader (headerWord b0 b1 b2 b3)).pusi = b1.getLsbD 6 ∧
    (parseHeader (headerWord b0 b1 b2 b3)).tp = b1.getLsbD 5 ∧
    (parseHeader (headerWord b0 b1 b2 b3)).pid.toNat = b1.toNat % 32 * 256 + b2.toNat ∧
    (parseHeader (headerWord b0 b1 b2 b3)).sc.toNat = b3.toNat / 64 ∧
    (parseHeader (headerWord b0 b1 b2 b3)).hasAf = b3.getLsbD 5 ∧
    (parseHeader (headerWord b0 b1 b2 b3)).hasPl = b3.getLsbD 4 ∧
    (parseHeader (headerWord b0 b1 b2 b3)).cc.toNat = b3.toNat % 16

/-- R80, by the match and mask of spec/opcode_table.json: the class the machine gives a header word is the row
the table selects (`P_BADSYNC`'s row is the negated one), for each of the table's seven TSH rows. -/
def Obligations.PacketClassesAreTheTablesRows : Prop :=
  ∀ h : BitVec 32,
    ((parseHeader h).cls = .badsync ↔ h &&& 0xFF000000#32 ≠ 0x47000000#32) ∧
    ((parseHeader h).cls = .tei ↔ h &&& 0xFF800000#32 = 0x47800000#32) ∧
    ((parseHeader h).cls = .scrHi ↔ h &&& 0xFF800080#32 = 0x47000080#32) ∧
    ((parseHeader h).cls = .scrLo ↔ h &&& 0xFF8000C0#32 = 0x47000040#32) ∧
    ((parseHeader h).cls = .nopl ↔ h &&& 0xFF8000D0#32 = 0x47000000#32) ∧
    ((parseHeader h).cls = .start ↔ h &&& 0xFFC000D0#32 = 0x47400010#32) ∧
    ((parseHeader h).cls = .cont ↔ h &&& 0xFFC000D0#32 = 0x47000010#32)

/-! ### The step and the ports -/

/-- A step runs the decoded instruction: when the ports complete an operation and it decodes to `i`, the step
is `exec i` of the state with the ports as they then stand; when they complete none, the hardware waits and
nothing but the ports has moved. -/
def Obligations.StepRunsDecodedInstruction : Prop :=
  (∀ (s : State) (w : OpWord) (i : Instr), (nextOp s.part s.wires).1 = some w → decode w = .ok i →
    step s = exec i { s with part := (nextOp s.part s.wires).2.1, wires := (nextOp s.part s.wires).2.2 }) ∧
  (∀ (s : State), (nextOp s.part s.wires).1 = none →
    step s = .next { s with part := (nextOp s.part s.wires).2.1, wires := (nextOp s.part s.wires).2.2 })

/-- R92's order at an idle edge: `rst` before everything, with nothing else accepted, then the command, and
only where no command is offered the beat; while a chunk is being collected no command is accepted, and that the
beat is taken at every such edge is the model's choice (log entry 23). -/
def Obligations.CommandBeforeChunkAtIdleEdge : Prop :=
  (∀ (s : State) (e : Edge) (es : List Edge), s.wires = e :: es → e.rst = true →
    step s = exec .reset { s with part := none, wires := es }) ∧
  (∀ (s : State) (w : BitVec 17) (b : Option InBeat) (es : List Edge) (i : Instr),
    s.part = none → s.wires = ⟨false, some w, b⟩ :: es → decode (.cmd w) = .ok i →
    step s = exec i { s with wires := es }) ∧
  (∀ (s : State) (c : PartChunk) (w : Option (BitVec 17)) (b : InBeat) (es : List Edge),
    s.part = some c → s.wires = ⟨false, w, some b⟩ :: es → b.last = true →
    step s = exec (if c.dest then .dwrite (c.bytes ++ [b.data]) else .swrite (c.bytes ++ [b.data]))
      { s with part := none, wires := es })

/-- R90: the beats of a chunk, whatever `in_dest` shows after the first, are one `write` of all its bytes, to
the component that `in_dest` named on the first. That each is taken at the edge at which it is offered is the
model's choice (log entry 23). -/
def Obligations.BeatsFormOneWrite : Prop :=
  ∀ (s : State) (bytes : List Byte) (dests : List Bool) (es : List Edge),
    s.part = none → bytes ≠ [] → s.wires = (beatsOf bytes dests).map Edge.ofBeat ++ es →
    step s = exec (if dests.headD false then .dwrite bytes else .swrite bytes) { s with wires := es }

/-- A packet offered as a DWRITE of its 188 bytes runs its class: the step is `exec` of the packet class that
the bytes decode to. -/
def Obligations.OfferedPacketRunsItsClass : Prop :=
  ∀ (s : State) (b : List Byte) (i : Instr), b.length = 188 → decode (.ts b) = .ok i →
    step (s.offerChunk true b) = exec i { s with part := none }

/-- R91: how many beats each event has and what stands on them. -/
def Obligations.EventBeatsCarryTheEvent : Prop :=
  (∀ d : List Byte, d ≠ [] → (Event.run d).beats.length = d.length ∧
    (Event.run d).beats.map (·.data) = d ∧
    ∀ b ∈ (Event.run d).beats, b.kind = 0#3 ∧ b.dv = true ∧ b.count = d.length ∧ b.pidv = false ∧
      b.pid = 0#13 ∧ b.err = 0#3) ∧
  (∀ n, ∃ b, (Event.discard n).beats = [b] ∧ b.kind = 1#3 ∧ b.dv = false ∧ b.data = 0#8 ∧ b.count = n ∧
    b.pidv = false ∧ b.pid = 0#13 ∧ b.err = 0#3) ∧
  (∀ (p : Pid) (d : List Byte), d ≠ [] → (Event.raw p d).beats.length = d.length ∧
    (Event.raw p d).beats.map (·.data) = d ∧
    ∀ b ∈ (Event.raw p d).beats, b.kind = 2#3 ∧ b.dv = true ∧ b.count = d.length ∧ b.pidv = true ∧ b.pid = p ∧
      b.err = 0#3) ∧
  (∀ (p : Pid) (d : List Byte), d ≠ [] → (Event.unit p d).beats.length = d.length ∧
    (Event.unit p d).beats.map (·.data) = d ∧
    ∀ b ∈ (Event.unit p d).beats, b.kind = 3#3 ∧ b.dv = true ∧ b.count = d.length ∧ b.pidv = true ∧ b.pid = p ∧
      b.err = 0#3) ∧
  (∀ p : Pid, ∃ b, (Event.unit p []).beats = [b] ∧ b.kind = 3#3 ∧ b.dv = false ∧ b.data = 0#8 ∧ b.count = 0 ∧
    b.pidv = true ∧ b.pid = p ∧ b.err = 0#3) ∧
  (∀ (k : ErrKind) (p : Pid), ∃ b, (Event.err k (some p)).beats = [b] ∧ b.kind = 4#3 ∧ b.dv = false ∧
    b.data = 0#8 ∧ b.count = 0 ∧ b.pidv = true ∧ b.pid = p ∧ b.err = k.code) ∧
  (∀ k : ErrKind, ∃ b, (Event.err k none).beats = [b] ∧ b.kind = 4#3 ∧ b.dv = false ∧ b.data = 0#8 ∧
    b.count = 0 ∧ b.pidv = false ∧ b.pid = 0#13 ∧ b.err = k.code) ∧
  (∀ e : Event, ∃ bs b, e.beats = bs ++ [b] ∧ b.last = true ∧ ∀ a ∈ bs, a.last = false)

/-- The beats at the `EVT` port tell the events apart: two lists of events of R75's shapes that give the same
beats are the same list. -/
def Obligations.EventStreamIsUnambiguous : Prop :=
  ∀ es fs : List Event, (∀ e ∈ es, e.shapeOk = true) → (∀ f ∈ fs, f.shapeOk = true) →
    evtStream es = evtStream fs → es = fs

/-- R210's ports and R89 to R92's handshakes, edge by edge: nothing ready or valid in reset; idle, both ready and
no event, but that the beat waits where a command is offered with it (log entry 17); with a chunk begun, `in_ready`
only; executing, neither, and the first pending beat on `EVT`. A word or beat is transferred exactly where it is
offered and its ready signal is 1. That `in_ready` is 1 at every edge of a chunk begun (log entry 23) and a pending
beat is offered at every executing edge (log entry 24) are the model's choices. -/
def Obligations.PortSignals : Prop :=
  (∀ (c : Option PartChunk) (e : Edge), e.rst = true →
    waitingOutputs c e = ⟨false, false, none⟩ ∧ portEdge c e = (some .pin, none)) ∧
  (∀ q : List EvtBeat, executingOutputs true q = ⟨false, false, none⟩ ∧
    executingOutputs false q = ⟨false, false, q.head?⟩ ∧
    ((executingOutputs false q).evValid = true ↔ q ≠ [])) ∧
  (∀ e : Edge, e.rst = false → (e.cmd = none ∨ e.beat = none) → waitingOutputs none e = ⟨true, true, none⟩) ∧
  (∀ (w : BitVec 17) (b : InBeat), waitingOutputs none ⟨false, some w, some b⟩ = ⟨false, true, none⟩) ∧
  (∀ (c : PartChunk) (e : Edge), e.rst = false → waitingOutputs (some c) e = ⟨true, false, none⟩) ∧
  (∀ (c : Option PartChunk) (e : Edge), e.rst = false →
    (∀ w, (waitingOutputs c e).cmdReady = true → e.cmd = some w → portEdge c e = (some (.cmd w), c)) ∧
    (∀ b, (waitingOutputs c e).inReady = true → e.beat = some b → portEdge c e = takeBeat c b) ∧
    (((waitingOutputs c e).cmdReady = false ∨ e.cmd = none) → ((waitingOutputs c e).inReady = false ∨ e.beat = none) →
      portEdge c e = (none, c)))

/-- R91: a consumer that stalls changes no result. Whatever it drives on `ev_ready`, the beats that have left and
those to come are, in order, the beats of the events, and after as many ready edges as beats all have left. That
a beat leaves at every ready edge until then is the model's choice (log entry 24). -/
def Obligations.StallingChangesNoEvent : Prop :=
  ∀ (es : List Event) (ready : List Bool),
    (deliver ready (evtStream es)).1 ++ (deliver ready (evtStream es)).2 = evtStream es ∧
    (deliver ready (evtStream es)).1.length = min (ready.count true) (evtStream es).length

/-! ### Reset and configuration -/

/-- R210, R177: every element has its reset value after RESET, whatever the state before it; nothing is
emitted, a half-transferred chunk is lost (R211), the build is not touched. That what has been delivered and what the
caller will drive stay is the model's choice (log entry 3). -/
def Obligations.ResetValues : Prop :=
  ∀ s : State, exec .reset s = .next
    { acc := [], locked := false, nlock := 5#8, pset := [], pall := false, fset := [], fall := false, ctx := [],
      part := none, wires := s.wires, events := s.events, cfg := s.cfg } ∧
    decode .pin = .ok .reset

/-- R111: SETN is a hard reset of the synchronizer that loads the threshold; the demultiplexer is untouched and
nothing is emitted. That `exec` refuses the instruction `setn 0` is the model's choice (log entries 6 and 18): no
word decodes to that instruction, and of its word R178 says that the hardware ignores it. -/
def Obligations.SetnResetsSynchronizer : Prop :=
  (∀ (n : BitVec 8) (s : State), n ≠ 0#8 →
    exec (.setn n) s = .next { s with acc := [], locked := false, nlock := n }) ∧
  (∀ s : State, exec (.setn 0#8) s = .refused .illegalCommand) ∧
  (∀ n : BitVec 8, n ≠ 0#8 → ∀ w : BitVec 17, w.toNat = 0xE000 + n.toNat → decode (.cmd w) = .ok (.setn n))

/-- R170, R172: ADDF and ADDP set one bit of one set and change nothing else. -/
def Obligations.AddSetsOneBit : Prop :=
  ∀ (p : Pid) (s : State),
    (∃ f, exec (.addf p) s = .next { s with fset := f } ∧ ∀ q, q ∈ f ↔ q = p ∨ q ∈ s.fset) ∧
    (∃ f, exec (.addp p) s = .next { s with pset := f } ∧ ∀ q, q ∈ f ↔ q = p ∨ q ∈ s.pset) ∧
    (∀ w : BitVec 17, w.toNat = 0x02000 + p.toNat → decode (.cmd w) = .ok (.addf p)) ∧
    (∀ w : BitVec 17, w.toNat = 0x06000 + p.toNat → decode (.cmd w) = .ok (.addp p))

/-- R171: RMF clears one bit of `FSET` and destroys that PID's context; no other context changes and nothing
else does. That the context is destroyed is one of two readings of the source (C5), the one that D15 takes and the
model follows (log entry 19). -/
def Obligations.RmfDestroysContext : Prop :=
  ∀ (p : Pid) (s : State),
    (∃ f c, exec (.rmf p) s = .next { s with fset := f, ctx := c } ∧
      (∀ q, q ∈ f ↔ q ≠ p ∧ q ∈ s.fset) ∧ tableGet p c = none ∧
      ∀ q, q ≠ p → tableGet q c = tableGet q s.ctx) ∧
    (∀ w : BitVec 17, w.toNat = 0x04000 + p.toNat → decode (.cmd w) = .ok (.rmf p))

/-- R173: RMP clears one bit of `PSET` and changes nothing else. -/
def Obligations.RmpClearsOneBit : Prop :=
  ∀ (p : Pid) (s : State),
    (∃ f, exec (.rmp p) s = .next { s with pset := f } ∧ ∀ q, q ∈ f ↔ q ≠ p ∧ q ∈ s.pset) ∧
    (∀ w : BitVec 17, w.toNat = 0x08000 + p.toNat → decode (.cmd w) = .ok (.rmp p))

/-- R174, R175: SETFALL and SETPALL write their flag and nothing else; the sets and the contexts are kept. -/
def Obligations.FlagWrites : Prop :=
  ∀ (b : Bool) (s : State),
    exec (.setfall b) s = .next { s with fall := b } ∧
    exec (.setpall b) s = .next { s with pall := b } ∧
    (∀ w : BitVec 17, w.toNat = 0x0A000 + b.toNat → decode (.cmd w) = .ok (.setfall b)) ∧
    (∀ w : BitVec 17, w.toNat = 0x0C000 + b.toNat → decode (.cmd w) = .ok (.setpall b))

/-- R57: the set operations, the flag operations and SETN are idempotent; SWRITE and DWRITE are not. -/
def Obligations.ConfigurationIsIdempotent : Prop :=
  (∀ (s t : State) (i : Instr),
    ((∃ p, i = .addf p ∨ i = .rmf p ∨ i = .addp p ∨ i = .rmp p) ∨
     (∃ b, i = .setfall b ∨ i = .setpall b) ∨ (∃ n, i = .setn n)) →
    exec i s = .next t → exec i t = .next t) ∧
  (∃ (c : List Byte) (s t u : State), exec (.swrite c) s = .next t ∧ exec (.swrite c) t = .next u ∧ u.acc ≠ t.acc) ∧
  (∃ (c : List Byte) (s t u : State), exec (.dwrite c) s = .next t ∧ exec (.dwrite c) t = .next u ∧ u.ctx ≠ t.ctx)

/-! ### The packet classes -/

/-- R132, R186: `P_BADSYNC` raises and does nothing else; no passthrough, whatever `PALL` holds. -/
def Obligations.BadSyncOnlyRaises : Prop :=
  (∀ h : BitVec 32, (parseHeader h).cls = .badsync ↔ h.extractLsb' 24 8 ≠ 0x47#8) ∧
  (∀ (p : Packet) (s : State), exec (.pBadsync p) s = .next (s.addEvents [.err .invalidSync none])) ∧
  ErrKind.code .invalidSync = 1#3

/-- R133, R187: `P_TEI` raises and does nothing else: dropped, not emitted, not buffered. -/
def Obligations.TransportErrorOnlyRaises : Prop :=
  (∀ h : BitVec 32, (parseHeader h).cls = .tei ↔ h.extractLsb' 24 8 = 0x47#8 ∧ h.getLsbD 23 = true) ∧
  (∀ (p : Packet) (s : State), exec (.pTei p) s = .next (s.addEvents [.err .transportError none])) ∧
  ErrKind.code .transportError = 2#3

/-- R150, R188: `P_SCR`, both rows: passthrough, then an error if the PID is selected; no state is written. -/
def Obligations.ScrambledRaisesAfterPassthrough : Prop :=
  (∀ h : BitVec 32, ((parseHeader h).cls = .scrHi ∨ (parseHeader h).cls = .scrLo) ↔
    h.extractLsb' 24 8 = 0x47#8 ∧ h.getLsbD 23 = false ∧ h.extractLsb' 6 2 ≠ 0#2) ∧
  (∀ (p : Packet) (s : State), filtered p.header.pid s →
    exec (.pScrHi p) s = .next (s.addEvents (rawEvents p s ++ [.err .scrambled (some p.header.pid)])) ∧
    exec (.pScrLo p) s = .next (s.addEvents (rawEvents p s ++ [.err .scrambled (some p.header.pid)]))) ∧
  (∀ (p : Packet) (s : State), ¬ filtered p.header.pid s →
    exec (.pScrHi p) s = .next (s.addEvents (rawEvents p s)) ∧
    exec (.pScrLo p) s = .next (s.addEvents (rawEvents p s))) ∧
  ErrKind.code .scrambled = 3#3

/-- R151: `P_NOPL` stops silently after the passthrough; no context is read or written. -/
def Obligations.NoPayloadStopsSilently : Prop :=
  (∀ h : BitVec 32, (parseHeader h).cls = .nopl ↔
    h.extractLsb' 24 8 = 0x47#8 ∧ h.getLsbD 23 = false ∧ h.extractLsb' 6 2 = 0#2 ∧ h.getLsbD 4 = false) ∧
  (∀ (p : Packet) (s : State), exec (.pNopl p) s = .next (s.addEvents (rawEvents p s)))

/-- R153: `P_START` of a selected PID emits the unit in progress, if a context exists, even an empty one, and
replaces the context by this packet's counter and payload; no other context changes. An unselected PID's packet is
only passed through (R135). Where the payload does not fit `UNIT_CAP` the model refuses (R155, R67). -/
def Obligations.StartReplacesContext : Prop :=
  (∀ h : BitVec 32, (parseHeader h).cls = .start ↔
    h.extractLsb' 24 8 = 0x47#8 ∧ h.getLsbD 23 = false ∧ h.extractLsb' 6 2 = 0#2 ∧ h.getLsbD 4 = true ∧
      h.getLsbD 22 = true) ∧
  (∀ (p : Packet) (s : State), filtered p.header.pid s →
    withinCap s.cfg.unitCap (payload p).length = true →
    ∃ c, exec (.pStart p) s = .next { s with
        ctx := c
        events := s.events ++ rawEvents p s ++
          (match tableGet p.header.pid s.ctx with
           | some old => [.unit p.header.pid old.buf]
           | none => []) } ∧
      tableGet p.header.pid c = some ⟨p.header.cc, payload p⟩ ∧
      ∀ q, q ≠ p.header.pid → tableGet q c = tableGet q s.ctx) ∧
  (∀ (p : Packet) (s : State), filtered p.header.pid s →
    withinCap s.cfg.unitCap (payload p).length = false → exec (.pStart p) s = .refused .unitOverflow) ∧
  (∀ (p : Packet) (s : State), ¬ filtered p.header.pid s →
    exec (.pStart p) s = .next (s.addEvents (rawEvents p s)))

/-- R154: `P_CONT` of a selected PID with a context checks the counter against `(stored + 1) mod 16`, stores
it as observed, reports a mismatch, and appends the payload in either case; without a context it is an orphan,
and nothing is stored. An unselected PID's packet is only passed through (R135). Where the unit would not fit
`UNIT_CAP` the model refuses (R155, R67). -/
def Obligations.ContinuationAppends : Prop :=
  (∀ h : BitVec 32, (parseHeader h).cls = .cont ↔
    h.extractLsb' 24 8 = 0x47#8 ∧ h.getLsbD 23 = false ∧ h.extractLsb' 6 2 = 0#2 ∧ h.getLsbD 4 = true ∧
      h.getLsbD 22 = false) ∧
  (∀ (p : Packet) (s : State) (old : Ctx), filtered p.header.pid s → tableGet p.header.pid s.ctx = some old →
    withinCap s.cfg.unitCap (old.buf.length + (payload p).length) = true →
    ∃ c, exec (.pCont p) s = .next { s with
        ctx := c
        events := s.events ++ rawEvents p s ++
          (if p.header.cc.toNat = (old.cc.toNat + 1) % 16 then []
           else [.err .discontinuity (some p.header.pid)]) } ∧
      tableGet p.header.pid c = some ⟨p.header.cc, old.buf ++ payload p⟩ ∧
      ∀ q, q ≠ p.header.pid → tableGet q c = tableGet q s.ctx) ∧
  (∀ (p : Packet) (s : State) (old : Ctx), filtered p.header.pid s → tableGet p.header.pid s.ctx = some old →
    withinCap s.cfg.unitCap (old.buf.length + (payload p).length) = false →
    exec (.pCont p) s = .refused .unitOverflow) ∧
  (∀ (p : Packet) (s : State), filtered p.header.pid s → tableGet p.header.pid s.ctx = none →
    exec (.pCont p) s = .next (s.addEvents (rawEvents p s ++ [.err .orphan (some p.header.pid)]))) ∧
  (∀ (p : Packet) (s : State), ¬ filtered p.header.pid s →
    exec (.pCont p) s = .next (s.addEvents (rawEvents p s))) ∧
  ErrKind.code .orphan = 4#3 ∧ ErrKind.code .discontinuity = 5#3

/-- R78, R84, R152: the payload of a packet is these of its bytes, and its length is 184, or 183 less the
adaptation-field length, or 0. The clause for a length above 183 is the spec's decision D12, which it says
claims should not rely on (log entry 7): it is stated of the model only. -/
def Obligations.PayloadOfPacketBytes : Prop :=
  ∀ b : List Byte, b.length = 188 →
    ((b.getD 3 0).getLsbD 5 = false →
      payload (parsePacket b) = b.drop 4 ∧ (payload (parsePacket b)).length = 184) ∧
    ((b.getD 3 0).getLsbD 5 = true → (b.getD 4 0).toNat ≤ 183 →
      payload (parsePacket b) = b.drop (5 + (b.getD 4 0).toNat) ∧
      (payload (parsePacket b)).length = 183 - (b.getD 4 0).toNat) ∧
    ((b.getD 3 0).getLsbD 5 = true → 183 < (b.getD 4 0).toNat → payload (parsePacket b) = [])

/-- R156: the continuity validator is `cc = (prev + 1) mod 16`, and exactly sixteen of the 256 ordered pairs are
valid successions. -/
def Obligations.ContinuityIsModSixteen : Prop :=
  (∀ prev cc : Cc, cvOk prev cc = true ↔ cc.toNat = (prev.toNat + 1) % 16) ∧
  (∀ prev : Cc, ∃ cc, cvOk prev cc = true ∧ ∀ cc', cvOk prev cc' = true → cc' = cc) ∧
  cvOk 15#4 0#4 = true ∧ cvOk 15#4 15#4 = false

/-- R131: for every 188 bytes and every state, running the class the bytes decode to is the spec's procedure
`PACKET`, transcribed line by line. For an adaptation-field length of 184 to 255 both sides take the empty
payload of D12, which is the model's choice between the two treatments that U4 allows (log entry 7). -/
def Obligations.ClassesRefinePacketProcedure : Prop :=
  ∀ (b : List Byte) (s : State), b.length = 188 → ∃ i, decode (.ts b) = .ok i ∧ exec i s = packetR131 b s

/-- What a packet emits (R131): at most one `RAW`, at most one `UNIT`, at most one `ERR`, in this order, and
never both of the last two. -/
def Obligations.PacketEventsAreOrdered : Prop :=
  ∀ (b : List Byte) (i : Instr) (s t : State), decode (.ts b) = .ok i → exec i s = .next t →
    ∃ raw rest, t.events = s.events ++ raw ++ rest ∧
      (raw = [] ∨ ∃ p, raw = [.raw p b]) ∧
      (rest = [] ∨ (∃ p d, rest = [.unit p d]) ∨ ∃ k p, rest = [.err k p])

/-! ### DWRITE -/

/-- R130: DWRITE is the packet procedure on each complete stride in order, an error on one never stopping the
next, and one length error, after them all, for a remainder. The clauses say it for every byte sequence. -/
def Obligations.DwriteRunsStridesInOrder : Prop :=
  (∀ b : List Byte, decode (.data true b) = .ok (.dwrite b)) ∧
  (∀ s : State, exec (.dwrite []) s = .next s) ∧
  (∀ (b : List Byte) (s : State), 0 < b.length → b.length < 188 →
    exec (.dwrite b) s = .next (s.addEvents [.err .lengthNotMultiple none])) ∧
  (∀ (b rest : List Byte) (i : Instr) (s : State), b.length = 188 → decode (.ts b) = .ok i →
    exec (.dwrite (b ++ rest)) s = andThen (exec i s) (exec (.dwrite rest))) ∧
  ErrKind.code .lengthNotMultiple = 6#3

/-- DWRITE completes for every chunk wherever the build's buffers have room (always, in the default build), and
writes nothing but the contexts and the event list, to which it only appends (R130, R54). -/
def Obligations.DwriteCompletes : Prop :=
  ∀ (c : List Byte) (s : State), roomFor (c.length / 188) s →
    ∃ t, exec (.dwrite c) s = .next t ∧ t = { s with ctx := t.ctx, events := t.events } ∧
      s.events <+: t.events

/-- R136: the passthrough pair decides the `RAW` events of a DWRITE and nothing else; the filter pair decides
contexts and all other events; with all four empty well-formed packets have no effect at all, and only the three
errors that need no selection can occur. -/
def Obligations.SelectorsAreIndependent : Prop :=
  (∀ (c : List Byte) (s s' t t' : State), s.pset = s'.pset → s.pall = s'.pall →
    exec (.dwrite c) s = .next t → exec (.dwrite c) s' = .next t' →
    rawsOf (newEvents s t) = rawsOf (newEvents s' t')) ∧
  (∀ (c : List Byte) (s s' t : State), s.fset = s'.fset → s.fall = s'.fall → s.ctx = s'.ctx →
    s.cfg.unitCap = s'.cfg.unitCap → exec (.dwrite c) s = .next t →
    ∃ t', exec (.dwrite c) s' = .next t' ∧ t'.ctx = t.ctx ∧
      nonRawsOf (newEvents s t) = nonRawsOf (newEvents s' t')) ∧
  (∀ (c : List Byte) (s t : State), s.pset = [] → s.pall = false → s.fset = [] → s.fall = false →
    exec (.dwrite c) s = .next t → ∀ e ∈ newEvents s t,
      e = .err .invalidSync none ∨ e = .err .transportError none ∨ e = .err .lengthNotMultiple none) ∧
  (∀ (c : List Byte) (s : State), s.pset = [] → s.pall = false → s.fset = [] → s.fall = false →
    c.length % 188 = 0 →
    (∀ k, 188 * k + 188 ≤ c.length →
      (parsePacket ((c.drop (188 * k)).take 188)).header.cls ≠ .badsync ∧
      (parsePacket ((c.drop (188 * k)).take 188)).header.cls ≠ .tei) →
    exec (.dwrite c) s = .next s)

/-- R158: between two payload-unit-starts of a selected PID, whatever packets stand in between, exactly one
unit of that PID is emitted beyond the one then in progress, and it holds the payloads of the opening packet
and of that PID's continuations, in order, and nothing else. -/
def Obligations.UnitIsConcatenationOfPayloads : Prop :=
  ∀ (s : State) (pid : Pid) (k0 k1 : Packet) (ks : List Packet),
    s.cfg.unitCap = none → filtered pid s →
    (Instr.pStart k0).wf = true → k0.header.pid = pid →
    (Instr.pStart k1).wf = true → k1.header.pid = pid →
    (∀ k ∈ ks, k.wf = true ∧ (k.header.cls ≠ .start ∨ k.header.pid ≠ pid)) →
    ∃ t, exec (.dwrite ((k0 :: ks ++ [k1]).flatMap Packet.bytes)) s = .next t ∧
      unitsOf pid (newEvents s t) =
        (match tableGet pid s.ctx with
         | some old => [old.buf]
         | none => []) ++
        [payload k0 ++ (ks.filter fun k => k.header.cls == .cont && k.header.pid == pid).flatMap payload] ∧
      tableGet pid t.ctx = some ⟨k1.header.cc, payload k1⟩

/-! ### The synchronizer -/

/-- R103: `FindLock` answers the least offset at which `N+1` sync bytes stand 188 apart within the bytes held,
and none exactly when there is none. -/
def Obligations.FindLockIsLeastMatch : Prop :=
  ∀ (b : List Byte) (n : Nat),
    (∀ o, findLock b n = some o ↔
      (∀ i, i ≤ n → b[o + 188 * i]? = some 0x47#8) ∧
      ∀ o', o' < o → ∃ i, i ≤ n ∧ b[o' + 188 * i]? ≠ some 0x47#8) ∧
    (findLock b n = none ↔ ∀ o, ∃ i, i ≤ n ∧ b[o + 188 * i]? ≠ some 0x47#8)

/-- R107: the stride scan stops at the first complete stride whose first byte is not the sync byte, or for want
of a complete stride; the lock is lost in the first case only. -/
def Obligations.StrideScanStops : Prop :=
  ∀ b : List Byte,
    scanPtr b % 188 = 0 ∧ scanPtr b ≤ b.length ∧
    (∀ j, 188 * j < scanPtr b → b[188 * j]? = some 0x47#8) ∧
    (scanLost b = true ↔ scanPtr b + 188 ≤ b.length) ∧
    (scanLost b = true → b[scanPtr b]? ≠ some 0x47#8) ∧
    (scanLost b = false → scanPtr b = 188 * (b.length / 188))

/-- R101: the drain satisfies the spec's loop, transcribed line by line, in every state, and always ends: the
bound R101 gives on its passes is never met. -/
def Obligations.DrainSatisfiesItsLoop : Prop :=
  ∀ s : State, drain s = drainR101 drain s ∧ ∀ r, drain s ≠ .fault r

/-- R100, R66: SWRITE appends the whole chunk and drains once; beyond a finite `ACC_CAP` the model refuses. -/
def Obligations.SwriteAppendsThenDrains : Prop :=
  ∀ (c : List Byte) (s : State),
    decode (.data false c) = .ok (.swrite c) ∧
    (withinCap s.cfg.accCap (s.acc.length + c.length) = true →
      exec (.swrite c) s = drain { s with acc := s.acc ++ c }) ∧
    (withinCap s.cfg.accCap (s.acc.length + c.length) = false → exec (.swrite c) s = .refused .accOverflow)

/-- SWRITE completes for every chunk the accumulator has room for (and, with `CHAIN = 1`, the reassembly
buffers): it leaves fewer than 188 bytes if locked, fewer than `(NLOCK+1)*188` if not, touches no configuration,
and only appends events. -/
def Obligations.SwriteCompletes : Prop :=
  ∀ (c : List Byte) (s : State), withinCap s.cfg.accCap (s.acc.length + c.length) = true →
    (s.cfg.chain = true → roomFor ((s.acc.length + c.length) / 188) s) →
    ∃ t, exec (.swrite c) s = .next t ∧
      t = { s with acc := t.acc, locked := t.locked, ctx := t.ctx, events := t.events } ∧
      (t.locked = true → t.acc.length < 188) ∧
      (t.locked = false → t.acc.length < (s.nlock.toNat + 1) * 188) ∧ s.events <+: t.events

/-- R102 and R106, the two waits: too little to search while hunting, no complete packet while locked. The
bytes are kept and nothing else happens. -/
def Obligations.DrainWaitsForData : Prop :=
  (∀ (c : List Byte) (s : State), withinCap s.cfg.accCap (s.acc.length + c.length) = true →
    s.locked = false → s.acc.length + c.length < (s.nlock.toNat + 1) * 188 →
    exec (.swrite c) s = .next { s with acc := s.acc ++ c }) ∧
  (∀ (c : List Byte) (s : State), withinCap s.cfg.accCap (s.acc.length + c.length) = true →
    s.locked = true → s.acc.length + c.length < 188 →
    exec (.swrite c) s = .next { s with acc := s.acc ++ c })

/-- R104: a failed lock keeps exactly `NLOCK*188` trailing bytes and reports exactly the others. -/
def Obligations.FailedLockDiscards : Prop :=
  ∀ (c : List Byte) (s : State), withinCap s.cfg.accCap (s.acc.length + c.length) = true →
    s.locked = false → (s.nlock.toNat + 1) * 188 ≤ s.acc.length + c.length →
    findLock (s.acc ++ c) s.nlock.toNat = none →
    exec (.swrite c) s = .next { s with
      acc := (s.acc ++ c).drop (s.acc.length + c.length - s.nlock.toNat * 188)
      events := s.events ++ [.discard (s.acc.length + c.length - s.nlock.toNat * 188)] } ∧
    ((s.acc ++ c).drop (s.acc.length + c.length - s.nlock.toNat * 188)).length = s.nlock.toNat * 188 ∧
    188 ≤ s.acc.length + c.length - s.nlock.toNat * 188

/-- While locked, a stream whose complete strides all begin with the sync byte is emitted whole, as one run,
with nothing discarded; the partial stride at its end stays and the lock is kept (the source's framing
property, S2, with R106 to R108). -/
def Obligations.LockedStreamIsEmittedWhole : Prop :=
  ∀ (c : List Byte) (s : State), withinCap s.cfg.accCap (s.acc.length + c.length) = true →
    s.cfg.chain = false → s.locked = true →
    (∀ j, 188 * j + 188 ≤ s.acc.length + c.length → (s.acc ++ c)[188 * j]? = some 0x47#8) →
    188 ≤ s.acc.length + c.length →
    exec (.swrite c) s = .next { s with
      acc := (s.acc ++ c).drop (188 * ((s.acc.length + c.length) / 188))
      events := s.events ++ [.run ((s.acc ++ c).take (188 * ((s.acc.length + c.length) / 188)))] }

/-- Lock acquired at a nonzero offset or at offset 0, then a first run (R105, R107, R108), in a build with
`CHAIN = 0`: the first events of the write are the discard of exactly the bytes before the offset, if there are
any, and a run that begins at the offset. -/
def Obligations.LockAcquisitionEmits : Prop :=
  ∀ (c : List Byte) (s : State) (o : Nat), withinCap s.cfg.accCap (s.acc.length + c.length) = true →
    s.cfg.chain = false → s.locked = false → s.nlock ≠ 0#8 →
    (s.nlock.toNat + 1) * 188 ≤ s.acc.length + c.length →
    findLock (s.acc ++ c) s.nlock.toNat = some o →
    ∃ t r, exec (.swrite c) s = .next t ∧
      (s.events ++ (if o = 0 then [] else [.discard o]) ++ [.run r]) <+: t.events ∧
      r <+: (s.acc ++ c).drop o ∧ s.nlock.toNat * 188 ≤ r.length

/-- R22: the lock is gained only where `NLOCK+1` sync bytes stand 188 apart in the bytes held, and lost, apart
from SETN and RESET, only where a complete stride at a packet boundary does not begin with the sync byte. -/
def Obligations.LockChangesOnlyOnEvidence : Prop :=
  ∀ (i : Instr) (s t : State), exec i s = .next t →
    (s.locked = false → t.locked = true →
      ∃ c o, i = .swrite c ∧ ∀ k, k ≤ s.nlock.toNat → (s.acc ++ c)[o + 188 * k]? = some 0x47#8) ∧
    (s.locked = true → t.locked = false →
      i = .reset ∨ (∃ n, i = .setn n) ∨
      ∃ c j, i = .swrite c ∧ 188 * j + 188 ≤ (s.acc ++ c).length ∧ (s.acc ++ c)[188 * j]? ≠ some 0x47#8)

/-- R112 c, for one write: the bytes held and the bytes written are, in order, the runs and the discarded bytes
in event order, followed by the bytes then held. Nothing is lost, repeated or reordered. -/
def Obligations.SwriteConservesBytes : Prop :=
  ∀ (c : List Byte) (s t : State), exec (.swrite c) s = .next t →
    account (newEvents s t) (s.acc ++ c) = some t.acc

/-- R112 a, b, d: every run of a write is a nonzero number of whole packets, each beginning with the sync byte;
every discard counts at least one byte; with `CHAIN = 0` there is no other event, and no state of the
demultiplexer changes. -/
def Obligations.SynchronizerOutputIsAligned : Prop :=
  ∀ (c : List Byte) (s t : State), exec (.swrite c) s = .next t →
    (∀ d, Event.run d ∈ newEvents s t → 188 ≤ d.length ∧ d.length % 188 = 0 ∧
      ∀ j, 188 * j < d.length → d[188 * j]? = some 0x47#8) ∧
    (∀ n, Event.discard n ∈ newEvents s t → 1 ≤ n) ∧
    (s.cfg.chain = false →
      t = { s with acc := t.acc, locked := t.locked, events := t.events } ∧
      ∀ e ∈ newEvents s t, (∃ d, e = .run d) ∨ ∃ n, e = .discard n)

/-- R62: with `CHAIN = 1` a write does what the synchronizer alone does, with each run executed as a DWRITE at
the place of its event and before the synchronizer's next: same accumulator, same lock, the demultiplexer's
events right behind each run, and a refusal exactly where a DWRITE refuses. -/
def Obligations.ChainedWriteInterleavesDwrites : Prop :=
  ∀ (c : List Byte) (s t : State), s.cfg.chain = true →
    exec (.swrite c) { s with cfg := { s.cfg with chain := false }, events := [] } = .next t →
    exec (.swrite c) s =
      andThen (feedRuns t.events s) fun u => .next { u with acc := t.acc, locked := t.locked }

/-- The forms of chunk-invariance that hold (S1 c and b, C11), for one cut: two writes emit no packet bytes that
one write of the same bytes does not, in the same order; and if both end locked they have emitted the same bytes
and hold the same. -/
def Obligations.CuttingAChunkNeverDisagrees : Prop :=
  ∀ (a b : List Byte) (s t u v : State),
    exec (.swrite (a ++ b)) s = .next t → exec (.swrite a) s = .next u → exec (.swrite b) u = .next v →
    runBytes (newEvents s v) <+: runBytes (newEvents s t) ∧
    (t.locked = true → v.locked = true →
      runBytes (newEvents s v) = runBytes (newEvents s t) ∧ v.acc = t.acc)

/-! ### The whole machine -/

/-- R20: each element has its reset value after reset, and is written only by the operations its row names. -/
def Obligations.ElementsAreWrittenOnlyByTheirOperations : Prop :=
  (State.reset.acc = [] ∧ State.reset.locked = false ∧ State.reset.nlock = 5#8 ∧ State.reset.pset = [] ∧
    State.reset.pall = false ∧ State.reset.fset = [] ∧ State.reset.fall = false ∧ State.reset.ctx = []) ∧
  (∀ (i : Instr) (s t : State), exec i s = .next t →
    (Instr.writesSync i = false → t.acc = s.acc ∧ t.locked = s.locked) ∧
    (Instr.writesNlock i = false → t.nlock = s.nlock) ∧
    (Instr.writesPset i = false → t.pset = s.pset) ∧
    (Instr.writesPall i = false → t.pall = s.pall) ∧
    (Instr.writesFset i = false → t.fset = s.fset) ∧
    (Instr.writesFall i = false → t.fall = s.fall) ∧
    (Instr.writesCtx s.cfg.chain i = false → t.ctx = s.ctx))

/-- R28: a context is destroyed only by RMF of its PID and by RESET, and created only by a payload-unit-start
packet of its PID: the packet itself, one among the strides of a DWRITE, or, with `CHAIN = 1`, one among the
strides of a run that an SWRITE emitted. -/
def Obligations.ContextLifecycle : Prop :=
  ∀ (i : Instr) (s t : State) (pid : Pid), exec i s = .next t →
    (tableGet pid s.ctx ≠ none → tableGet pid t.ctx = none → i = .rmf pid ∨ i = .reset) ∧
    (tableGet pid s.ctx = none → tableGet pid t.ctx ≠ none →
      (∃ p, i = .pStart p ∧ p.header.pid = pid) ∨
      (∃ c k, i = .dwrite c ∧ 188 * k + 188 ≤ c.length ∧
        (parsePacket ((c.drop (188 * k)).take 188)).header.cls = .start ∧
        (parsePacket ((c.drop (188 * k)).take 188)).header.pid = pid) ∨
      (s.cfg.chain = true ∧ ∃ c d k, i = .swrite c ∧ Event.run d ∈ newEvents s t ∧ 188 * k + 188 ≤ d.length ∧
        (parsePacket ((d.drop (188 * k)).take 188)).header.cls = .start ∧
        (parsePacket ((d.drop (188 * k)).take 188)).header.pid = pid))

/-- Events are delivered once and for all (R61, R65): every operation only appends to them; and no operation
changes the build (R34) or what the caller will drive. -/
def Obligations.EventsAreOnlyAppended : Prop :=
  ∀ (i : Instr) (s t : State), exec i s = .next t →
    s.events <+: t.events ∧ t.cfg = s.cfg ∧ t.wires = s.wires

/-- No operation reads what has been delivered: with other events delivered before, it does the same and emits
the same. -/
def Obligations.DeliveredEventsAreNeverRead : Prop :=
  ∀ (i : Instr) (s : State) (es : List Event),
    exec i { s with events := es ++ s.events } = prependEvents es (exec i s)

/-- R75: every event a well-formed operation emits has the shape its row gives: a run of whole packets, a
positive count, 188 raw bytes, a PID on exactly the error kinds that carry one. -/
def Obligations.EmittedEventsHaveTheirShape : Prop :=
  ∀ (i : Instr) (s t : State), i.wf = true → exec i s = .next t → ∀ e ∈ newEvents s t, e.shapeOk = true

/-- R33 I5, with R130 for DWRITE: in an idle state a write of zero bytes does nothing. -/
def Obligations.EmptyWritesDoNothing : Prop :=
  ∀ s : State, s.Inv → exec (.swrite []) s = .next s ∧ exec (.dwrite []) s = .next s

/-- The invariant holds after reset. -/
def Obligations.ResetIsIdle : Prop := State.reset.Inv

/-- R33: every step keeps the invariant of idle states: the legal threshold, the bounds on what the
accumulator holds, the canonical form of the tables, the capacities of the build. -/
def Obligations.StepKeepsIdleInvariant : Prop :=
  ∀ s t : State, s.Inv → step s = .next t → t.Inv

/-- No step from any state faults: the drain's bound is never met. A step is refused only at an illegal command
word, at a chunk that would make the accumulator longer than a finite `ACC_CAP`, and at a packet whose payload
would make its unit longer than a finite `UNIT_CAP`, in a DWRITE or in a run of a chained SWRITE (the reasons of
93_implementation_defined section 3; log entries 6 and 8). -/
def Obligations.NoStepFaults : Prop :=
  (∀ (s : State) (r : Fault), step s ≠ .fault r) ∧
  (∀ (s : State) (r : Refusal), step s = .refused r →
    (r = .illegalCommand ∧ ∃ w, (nextOp s.part s.wires).1 = some (.cmd w) ∧ ∀ i, decode (.cmd w) ≠ .ok i) ∨
    (r = .accOverflow ∧ ∃ c a, (nextOp s.part s.wires).1 = some (.data false c) ∧ s.cfg.accCap = some a ∧
      a < s.acc.length + c.length) ∨
    (r = .unitOverflow ∧ ∃ c,
      ((nextOp s.part s.wires).1 = some (.data true c) ∧ dwriteOverflows c s.afterPorts) ∨
      ((nextOp s.part s.wires).1 = some (.data false c) ∧ swriteOverflows c s.afterPorts)))

/-- R7, U16: in a build that satisfies R7's constraints and whose capacities are finite, every count that a step
from an idle state emits fits the count field. -/
def Obligations.CountsFitTheirField : Prop :=
  ∀ s t : State, s.Inv → s.cfg.wf = true → s.cfg.accCap ≠ none → s.cfg.unitCap ≠ none → step s = .next t →
    ∀ e ∈ newEvents s t, countFits s.cfg.countW e.count = true
end

