-- ==== Sys2Proof/Laws/State.lean ====
section
/-! SUPPORT. What each named update of the state does to each field, one lemma a field, so that no proof
unfolds a record update. -/

namespace Sys2Proof.Machine

variable (s : State)

/-! ### `emit` -/

@[simp] theorem emit_acc (e : Event) : (emit e s).acc = s.acc := rfl
@[simp] theorem emit_locked (e : Event) : (emit e s).locked = s.locked := rfl
@[simp] theorem emit_nlock (e : Event) : (emit e s).nlock = s.nlock := rfl
@[simp] theorem emit_pset (e : Event) : (emit e s).pset = s.pset := rfl
@[simp] theorem emit_pall (e : Event) : (emit e s).pall = s.pall := rfl
@[simp] theorem emit_fset (e : Event) : (emit e s).fset = s.fset := rfl
@[simp] theorem emit_fall (e : Event) : (emit e s).fall = s.fall := rfl
@[simp] theorem emit_ctx (e : Event) : (emit e s).ctx = s.ctx := rfl
@[simp] theorem emit_part (e : Event) : (emit e s).part = s.part := rfl
@[simp] theorem emit_wires (e : Event) : (emit e s).wires = s.wires := rfl
@[simp] theorem emit_events (e : Event) : (emit e s).events = s.events ++ [e] := rfl
@[simp] theorem emit_cfg (e : Event) : (emit e s).cfg = s.cfg := rfl

/-! ### `raiseError` -/

@[simp] theorem raiseError_acc (k : ErrKind) (p : Pid) : (raiseError k p s).acc = s.acc := rfl
@[simp] theorem raiseError_locked (k : ErrKind) (p : Pid) : (raiseError k p s).locked = s.locked := rfl
@[simp] theorem raiseError_nlock (k : ErrKind) (p : Pid) : (raiseError k p s).nlock = s.nlock := rfl
@[simp] theorem raiseError_pset (k : ErrKind) (p : Pid) : (raiseError k p s).pset = s.pset := rfl
@[simp] theorem raiseError_pall (k : ErrKind) (p : Pid) : (raiseError k p s).pall = s.pall := rfl
@[simp] theorem raiseError_fset (k : ErrKind) (p : Pid) : (raiseError k p s).fset = s.fset := rfl
@[simp] theorem raiseError_fall (k : ErrKind) (p : Pid) : (raiseError k p s).fall = s.fall := rfl
@[simp] theorem raiseError_ctx (k : ErrKind) (p : Pid) : (raiseError k p s).ctx = s.ctx := rfl
@[simp] theorem raiseError_part (k : ErrKind) (p : Pid) : (raiseError k p s).part = s.part := rfl
@[simp] theorem raiseError_wires (k : ErrKind) (p : Pid) : (raiseError k p s).wires = s.wires := rfl
@[simp] theorem raiseError_events (k : ErrKind) (p : Pid) : (raiseError k p s).events = s.events ++ [.err k (if k.carriesPid then some p else none)] := rfl
@[simp] theorem raiseError_cfg (k : ErrKind) (p : Pid) : (raiseError k p s).cfg = s.cfg := rfl

/-! ### `accAppend` -/

@[simp] theorem accAppend_acc (c : List Byte) : (accAppend c s).acc = s.acc ++ c := rfl
@[simp] theorem accAppend_locked (c : List Byte) : (accAppend c s).locked = s.locked := rfl
@[simp] theorem accAppend_nlock (c : List Byte) : (accAppend c s).nlock = s.nlock := rfl
@[simp] theorem accAppend_pset (c : List Byte) : (accAppend c s).pset = s.pset := rfl
@[simp] theorem accAppend_pall (c : List Byte) : (accAppend c s).pall = s.pall := rfl
@[simp] theorem accAppend_fset (c : List Byte) : (accAppend c s).fset = s.fset := rfl
@[simp] theorem accAppend_fall (c : List Byte) : (accAppend c s).fall = s.fall := rfl
@[simp] theorem accAppend_ctx (c : List Byte) : (accAppend c s).ctx = s.ctx := rfl
@[simp] theorem accAppend_part (c : List Byte) : (accAppend c s).part = s.part := rfl
@[simp] theorem accAppend_wires (c : List Byte) : (accAppend c s).wires = s.wires := rfl
@[simp] theorem accAppend_events (c : List Byte) : (accAppend c s).events = s.events := rfl
@[simp] theorem accAppend_cfg (c : List Byte) : (accAppend c s).cfg = s.cfg := rfl

/-! ### `accDrop` -/

@[simp] theorem accDrop_acc (n : Nat) : (accDrop n s).acc = s.acc.drop n := rfl
@[simp] theorem accDrop_locked (n : Nat) : (accDrop n s).locked = s.locked := rfl
@[simp] theorem accDrop_nlock (n : Nat) : (accDrop n s).nlock = s.nlock := rfl
@[simp] theorem accDrop_pset (n : Nat) : (accDrop n s).pset = s.pset := rfl
@[simp] theorem accDrop_pall (n : Nat) : (accDrop n s).pall = s.pall := rfl
@[simp] theorem accDrop_fset (n : Nat) : (accDrop n s).fset = s.fset := rfl
@[simp] theorem accDrop_fall (n : Nat) : (accDrop n s).fall = s.fall := rfl
@[simp] theorem accDrop_ctx (n : Nat) : (accDrop n s).ctx = s.ctx := rfl
@[simp] theorem accDrop_part (n : Nat) : (accDrop n s).part = s.part := rfl
@[simp] theorem accDrop_wires (n : Nat) : (accDrop n s).wires = s.wires := rfl
@[simp] theorem accDrop_events (n : Nat) : (accDrop n s).events = s.events := rfl
@[simp] theorem accDrop_cfg (n : Nat) : (accDrop n s).cfg = s.cfg := rfl

/-! ### `accClear` -/

@[simp] theorem accClear_acc : (accClear s).acc = [] := rfl
@[simp] theorem accClear_locked : (accClear s).locked = s.locked := rfl
@[simp] theorem accClear_nlock : (accClear s).nlock = s.nlock := rfl
@[simp] theorem accClear_pset : (accClear s).pset = s.pset := rfl
@[simp] theorem accClear_pall : (accClear s).pall = s.pall := rfl
@[simp] theorem accClear_fset : (accClear s).fset = s.fset := rfl
@[simp] theorem accClear_fall : (accClear s).fall = s.fall := rfl
@[simp] theorem accClear_ctx : (accClear s).ctx = s.ctx := rfl
@[simp] theorem accClear_part : (accClear s).part = s.part := rfl
@[simp] theorem accClear_wires : (accClear s).wires = s.wires := rfl
@[simp] theorem accClear_events : (accClear s).events = s.events := rfl
@[simp] theorem accClear_cfg : (accClear s).cfg = s.cfg := rfl

/-! ### `setLocked` -/

@[simp] theorem setLocked_acc (b : Bool) : (setLocked b s).acc = s.acc := rfl
@[simp] theorem setLocked_locked (b : Bool) : (setLocked b s).locked = b := rfl
@[simp] theorem setLocked_nlock (b : Bool) : (setLocked b s).nlock = s.nlock := rfl
@[simp] theorem setLocked_pset (b : Bool) : (setLocked b s).pset = s.pset := rfl
@[simp] theorem setLocked_pall (b : Bool) : (setLocked b s).pall = s.pall := rfl
@[simp] theorem setLocked_fset (b : Bool) : (setLocked b s).fset = s.fset := rfl
@[simp] theorem setLocked_fall (b : Bool) : (setLocked b s).fall = s.fall := rfl
@[simp] theorem setLocked_ctx (b : Bool) : (setLocked b s).ctx = s.ctx := rfl
@[simp] theorem setLocked_part (b : Bool) : (setLocked b s).part = s.part := rfl
@[simp] theorem setLocked_wires (b : Bool) : (setLocked b s).wires = s.wires := rfl
@[simp] theorem setLocked_events (b : Bool) : (setLocked b s).events = s.events := rfl
@[simp] theorem setLocked_cfg (b : Bool) : (setLocked b s).cfg = s.cfg := rfl

/-! ### `setNlock` -/

@[simp] theorem setNlock_acc (n : BitVec 8) : (setNlock n s).acc = s.acc := rfl
@[simp] theorem setNlock_locked (n : BitVec 8) : (setNlock n s).locked = s.locked := rfl
@[simp] theorem setNlock_nlock (n : BitVec 8) : (setNlock n s).nlock = n := rfl
@[simp] theorem setNlock_pset (n : BitVec 8) : (setNlock n s).pset = s.pset := rfl
@[simp] theorem setNlock_pall (n : BitVec 8) : (setNlock n s).pall = s.pall := rfl
@[simp] theorem setNlock_fset (n : BitVec 8) : (setNlock n s).fset = s.fset := rfl
@[simp] theorem setNlock_fall (n : BitVec 8) : (setNlock n s).fall = s.fall := rfl
@[simp] theorem setNlock_ctx (n : BitVec 8) : (setNlock n s).ctx = s.ctx := rfl
@[simp] theorem setNlock_part (n : BitVec 8) : (setNlock n s).part = s.part := rfl
@[simp] theorem setNlock_wires (n : BitVec 8) : (setNlock n s).wires = s.wires := rfl
@[simp] theorem setNlock_events (n : BitVec 8) : (setNlock n s).events = s.events := rfl
@[simp] theorem setNlock_cfg (n : BitVec 8) : (setNlock n s).cfg = s.cfg := rfl

/-! ### `fsetAdd` -/

@[simp] theorem fsetAdd_acc (p : Pid) : (fsetAdd p s).acc = s.acc := rfl
@[simp] theorem fsetAdd_locked (p : Pid) : (fsetAdd p s).locked = s.locked := rfl
@[simp] theorem fsetAdd_nlock (p : Pid) : (fsetAdd p s).nlock = s.nlock := rfl
@[simp] theorem fsetAdd_pset (p : Pid) : (fsetAdd p s).pset = s.pset := rfl
@[simp] theorem fsetAdd_pall (p : Pid) : (fsetAdd p s).pall = s.pall := rfl
@[simp] theorem fsetAdd_fset (p : Pid) : (fsetAdd p s).fset = pidInsert p s.fset := rfl
@[simp] theorem fsetAdd_fall (p : Pid) : (fsetAdd p s).fall = s.fall := rfl
@[simp] theorem fsetAdd_ctx (p : Pid) : (fsetAdd p s).ctx = s.ctx := rfl
@[simp] theorem fsetAdd_part (p : Pid) : (fsetAdd p s).part = s.part := rfl
@[simp] theorem fsetAdd_wires (p : Pid) : (fsetAdd p s).wires = s.wires := rfl
@[simp] theorem fsetAdd_events (p : Pid) : (fsetAdd p s).events = s.events := rfl
@[simp] theorem fsetAdd_cfg (p : Pid) : (fsetAdd p s).cfg = s.cfg := rfl

/-! ### `fsetRemove` -/

@[simp] theorem fsetRemove_acc (p : Pid) : (fsetRemove p s).acc = s.acc := rfl
@[simp] theorem fsetRemove_locked (p : Pid) : (fsetRemove p s).locked = s.locked := rfl
@[simp] theorem fsetRemove_nlock (p : Pid) : (fsetRemove p s).nlock = s.nlock := rfl
@[simp] theorem fsetRemove_pset (p : Pid) : (fsetRemove p s).pset = s.pset := rfl
@[simp] theorem fsetRemove_pall (p : Pid) : (fsetRemove p s).pall = s.pall := rfl
@[simp] theorem fsetRemove_fset (p : Pid) : (fsetRemove p s).fset = pidErase p s.fset := rfl
@[simp] theorem fsetRemove_fall (p : Pid) : (fsetRemove p s).fall = s.fall := rfl
@[simp] theorem fsetRemove_ctx (p : Pid) : (fsetRemove p s).ctx = s.ctx := rfl
@[simp] theorem fsetRemove_part (p : Pid) : (fsetRemove p s).part = s.part := rfl
@[simp] theorem fsetRemove_wires (p : Pid) : (fsetRemove p s).wires = s.wires := rfl
@[simp] theorem fsetRemove_events (p : Pid) : (fsetRemove p s).events = s.events := rfl
@[simp] theorem fsetRemove_cfg (p : Pid) : (fsetRemove p s).cfg = s.cfg := rfl

/-! ### `psetAdd` -/

@[simp] theorem psetAdd_acc (p : Pid) : (psetAdd p s).acc = s.acc := rfl
@[simp] theorem psetAdd_locked (p : Pid) : (psetAdd p s).locked = s.locked := rfl
@[simp] theorem psetAdd_nlock (p : Pid) : (psetAdd p s).nlock = s.nlock := rfl
@[simp] theorem psetAdd_pset (p : Pid) : (psetAdd p s).pset = pidInsert p s.pset := rfl
@[simp] theorem psetAdd_pall (p : Pid) : (psetAdd p s).pall = s.pall := rfl
@[simp] theorem psetAdd_fset (p : Pid) : (psetAdd p s).fset = s.fset := rfl
@[simp] theorem psetAdd_fall (p : Pid) : (psetAdd p s).fall = s.fall := rfl
@[simp] theorem psetAdd_ctx (p : Pid) : (psetAdd p s).ctx = s.ctx := rfl
@[simp] theorem psetAdd_part (p : Pid) : (psetAdd p s).part = s.part := rfl
@[simp] theorem psetAdd_wires (p : Pid) : (psetAdd p s).wires = s.wires := rfl
@[simp] theorem psetAdd_events (p : Pid) : (psetAdd p s).events = s.events := rfl
@[simp] theorem psetAdd_cfg (p : Pid) : (psetAdd p s).cfg = s.cfg := rfl

/-! ### `psetRemove` -/

@[simp] theorem psetRemove_acc (p : Pid) : (psetRemove p s).acc = s.acc := rfl
@[simp] theorem psetRemove_locked (p : Pid) : (psetRemove p s).locked = s.locked := rfl
@[simp] theorem psetRemove_nlock (p : Pid) : (psetRemove p s).nlock = s.nlock := rfl
@[simp] theorem psetRemove_pset (p : Pid) : (psetRemove p s).pset = pidErase p s.pset := rfl
@[simp] theorem psetRemove_pall (p : Pid) : (psetRemove p s).pall = s.pall := rfl
@[simp] theorem psetRemove_fset (p : Pid) : (psetRemove p s).fset = s.fset := rfl
@[simp] theorem psetRemove_fall (p : Pid) : (psetRemove p s).fall = s.fall := rfl
@[simp] theorem psetRemove_ctx (p : Pid) : (psetRemove p s).ctx = s.ctx := rfl
@[simp] theorem psetRemove_part (p : Pid) : (psetRemove p s).part = s.part := rfl
@[simp] theorem psetRemove_wires (p : Pid) : (psetRemove p s).wires = s.wires := rfl
@[simp] theorem psetRemove_events (p : Pid) : (psetRemove p s).events = s.events := rfl
@[simp] theorem psetRemove_cfg (p : Pid) : (psetRemove p s).cfg = s.cfg := rfl

/-! ### `setFall` -/

@[simp] theorem setFall_acc (b : Bool) : (setFall b s).acc = s.acc := rfl
@[simp] theorem setFall_locked (b : Bool) : (setFall b s).locked = s.locked := rfl
@[simp] theorem setFall_nlock (b : Bool) : (setFall b s).nlock = s.nlock := rfl
@[simp] theorem setFall_pset (b : Bool) : (setFall b s).pset = s.pset := rfl
@[simp] theorem setFall_pall (b : Bool) : (setFall b s).pall = s.pall := rfl
@[simp] theorem setFall_fset (b : Bool) : (setFall b s).fset = s.fset := rfl
@[simp] theorem setFall_fall (b : Bool) : (setFall b s).fall = b := rfl
@[simp] theorem setFall_ctx (b : Bool) : (setFall b s).ctx = s.ctx := rfl
@[simp] theorem setFall_part (b : Bool) : (setFall b s).part = s.part := rfl
@[simp] theorem setFall_wires (b : Bool) : (setFall b s).wires = s.wires := rfl
@[simp] theorem setFall_events (b : Bool) : (setFall b s).events = s.events := rfl
@[simp] theorem setFall_cfg (b : Bool) : (setFall b s).cfg = s.cfg := rfl

/-! ### `setPall` -/

@[simp] theorem setPall_acc (b : Bool) : (setPall b s).acc = s.acc := rfl
@[simp] theorem setPall_locked (b : Bool) : (setPall b s).locked = s.locked := rfl
@[simp] theorem setPall_nlock (b : Bool) : (setPall b s).nlock = s.nlock := rfl
@[simp] theorem setPall_pset (b : Bool) : (setPall b s).pset = s.pset := rfl
@[simp] theorem setPall_pall (b : Bool) : (setPall b s).pall = b := rfl
@[simp] theorem setPall_fset (b : Bool) : (setPall b s).fset = s.fset := rfl
@[simp] theorem setPall_fall (b : Bool) : (setPall b s).fall = s.fall := rfl
@[simp] theorem setPall_ctx (b : Bool) : (setPall b s).ctx = s.ctx := rfl
@[simp] theorem setPall_part (b : Bool) : (setPall b s).part = s.part := rfl
@[simp] theorem setPall_wires (b : Bool) : (setPall b s).wires = s.wires := rfl
@[simp] theorem setPall_events (b : Bool) : (setPall b s).events = s.events := rfl
@[simp] theorem setPall_cfg (b : Bool) : (setPall b s).cfg = s.cfg := rfl

/-! ### `ctxPut` -/

@[simp] theorem ctxPut_acc (p : Pid) (c : Ctx) : (ctxPut p c s).acc = s.acc := rfl
@[simp] theorem ctxPut_locked (p : Pid) (c : Ctx) : (ctxPut p c s).locked = s.locked := rfl
@[simp] theorem ctxPut_nlock (p : Pid) (c : Ctx) : (ctxPut p c s).nlock = s.nlock := rfl
@[simp] theorem ctxPut_pset (p : Pid) (c : Ctx) : (ctxPut p c s).pset = s.pset := rfl
@[simp] theorem ctxPut_pall (p : Pid) (c : Ctx) : (ctxPut p c s).pall = s.pall := rfl
@[simp] theorem ctxPut_fset (p : Pid) (c : Ctx) : (ctxPut p c s).fset = s.fset := rfl
@[simp] theorem ctxPut_fall (p : Pid) (c : Ctx) : (ctxPut p c s).fall = s.fall := rfl
@[simp] theorem ctxPut_ctx (p : Pid) (c : Ctx) : (ctxPut p c s).ctx = tablePut p c s.ctx := rfl
@[simp] theorem ctxPut_part (p : Pid) (c : Ctx) : (ctxPut p c s).part = s.part := rfl
@[simp] theorem ctxPut_wires (p : Pid) (c : Ctx) : (ctxPut p c s).wires = s.wires := rfl
@[simp] theorem ctxPut_events (p : Pid) (c : Ctx) : (ctxPut p c s).events = s.events := rfl
@[simp] theorem ctxPut_cfg (p : Pid) (c : Ctx) : (ctxPut p c s).cfg = s.cfg := rfl

/-! ### `ctxDrop` -/

@[simp] theorem ctxDrop_acc (p : Pid) : (ctxDrop p s).acc = s.acc := rfl
@[simp] theorem ctxDrop_locked (p : Pid) : (ctxDrop p s).locked = s.locked := rfl
@[simp] theorem ctxDrop_nlock (p : Pid) : (ctxDrop p s).nlock = s.nlock := rfl
@[simp] theorem ctxDrop_pset (p : Pid) : (ctxDrop p s).pset = s.pset := rfl
@[simp] theorem ctxDrop_pall (p : Pid) : (ctxDrop p s).pall = s.pall := rfl
@[simp] theorem ctxDrop_fset (p : Pid) : (ctxDrop p s).fset = s.fset := rfl
@[simp] theorem ctxDrop_fall (p : Pid) : (ctxDrop p s).fall = s.fall := rfl
@[simp] theorem ctxDrop_ctx (p : Pid) : (ctxDrop p s).ctx = tableDrop p s.ctx := rfl
@[simp] theorem ctxDrop_part (p : Pid) : (ctxDrop p s).part = s.part := rfl
@[simp] theorem ctxDrop_wires (p : Pid) : (ctxDrop p s).wires = s.wires := rfl
@[simp] theorem ctxDrop_events (p : Pid) : (ctxDrop p s).events = s.events := rfl
@[simp] theorem ctxDrop_cfg (p : Pid) : (ctxDrop p s).cfg = s.cfg := rfl

/-! ### `discardFront` -/

@[simp] theorem discardFront_acc (n : Nat) : (discardFront n s).acc = s.acc.drop n := rfl
@[simp] theorem discardFront_locked (n : Nat) : (discardFront n s).locked = s.locked := rfl
@[simp] theorem discardFront_nlock (n : Nat) : (discardFront n s).nlock = s.nlock := rfl
@[simp] theorem discardFront_pset (n : Nat) : (discardFront n s).pset = s.pset := rfl
@[simp] theorem discardFront_pall (n : Nat) : (discardFront n s).pall = s.pall := rfl
@[simp] theorem discardFront_fset (n : Nat) : (discardFront n s).fset = s.fset := rfl
@[simp] theorem discardFront_fall (n : Nat) : (discardFront n s).fall = s.fall := rfl
@[simp] theorem discardFront_ctx (n : Nat) : (discardFront n s).ctx = s.ctx := rfl
@[simp] theorem discardFront_part (n : Nat) : (discardFront n s).part = s.part := rfl
@[simp] theorem discardFront_wires (n : Nat) : (discardFront n s).wires = s.wires := rfl
@[simp] theorem discardFront_events (n : Nat) : (discardFront n s).events = s.events ++ [.discard n] := rfl
@[simp] theorem discardFront_cfg (n : Nat) : (discardFront n s).cfg = s.cfg := rfl

/-! ### `addEvents` -/

@[simp] theorem addEvents_acc (es : List Event) : (State.addEvents s es).acc = s.acc := rfl
@[simp] theorem addEvents_locked (es : List Event) : (State.addEvents s es).locked = s.locked := rfl
@[simp] theorem addEvents_nlock (es : List Event) : (State.addEvents s es).nlock = s.nlock := rfl
@[simp] theorem addEvents_pset (es : List Event) : (State.addEvents s es).pset = s.pset := rfl
@[simp] theorem addEvents_pall (es : List Event) : (State.addEvents s es).pall = s.pall := rfl
@[simp] theorem addEvents_fset (es : List Event) : (State.addEvents s es).fset = s.fset := rfl
@[simp] theorem addEvents_fall (es : List Event) : (State.addEvents s es).fall = s.fall := rfl
@[simp] theorem addEvents_ctx (es : List Event) : (State.addEvents s es).ctx = s.ctx := rfl
@[simp] theorem addEvents_part (es : List Event) : (State.addEvents s es).part = s.part := rfl
@[simp] theorem addEvents_wires (es : List Event) : (State.addEvents s es).wires = s.wires := rfl
@[simp] theorem addEvents_events (es : List Event) : (State.addEvents s es).events = s.events ++ es := rfl
@[simp] theorem addEvents_cfg (es : List Event) : (State.addEvents s es).cfg = s.cfg := rfl

/-! ### `afterPorts` -/

@[simp] theorem afterPorts_acc : (State.afterPorts s).acc = s.acc := rfl
@[simp] theorem afterPorts_locked : (State.afterPorts s).locked = s.locked := rfl
@[simp] theorem afterPorts_nlock : (State.afterPorts s).nlock = s.nlock := rfl
@[simp] theorem afterPorts_pset : (State.afterPorts s).pset = s.pset := rfl
@[simp] theorem afterPorts_pall : (State.afterPorts s).pall = s.pall := rfl
@[simp] theorem afterPorts_fset : (State.afterPorts s).fset = s.fset := rfl
@[simp] theorem afterPorts_fall : (State.afterPorts s).fall = s.fall := rfl
@[simp] theorem afterPorts_ctx : (State.afterPorts s).ctx = s.ctx := rfl
@[simp] theorem afterPorts_part : (State.afterPorts s).part = (nextOp s.part s.wires).2.1 := rfl
@[simp] theorem afterPorts_wires : (State.afterPorts s).wires = (nextOp s.part s.wires).2.2 := rfl
@[simp] theorem afterPorts_events : (State.afterPorts s).events = s.events := rfl
@[simp] theorem afterPorts_cfg : (State.afterPorts s).cfg = s.cfg := rfl

end Sys2Proof.Machine
end

