-- ==== Sys2Proof/Laws/Tables.lean ====
section
/-! SUPPORT. The laws of the PID-indexed tables: a read after a write, and that every operation keeps the
canonical form, in which equal tables are equal data. -/

namespace Sys2Proof.Machine

/-! ### PID sets -/

@[simp] theorem mem_pidInsert (p q : Pid) (l : List Pid) : q ∈ pidInsert p l ↔ q = p ∨ q ∈ l := by
  induction l with
  | nil => simp [pidInsert]
  | cons r l ih =>
    unfold pidInsert
    split
    · simp
    · split
      · rename_i h; subst h; simp
      · simp only [List.mem_cons, ih]; tauto

@[simp] theorem mem_pidErase (p q : Pid) (l : List Pid) : q ∈ pidErase p l ↔ q ≠ p ∧ q ∈ l := by
  simp [pidErase, and_comm]

theorem pidInsert_rising (p : Pid) {l : List Pid} (h : pidsRising l) : pidsRising (pidInsert p l) := by
  induction l with
  | nil => simp [pidInsert, pidsRising]
  | cons r l ih =>
    have hr := List.pairwise_cons.1 h
    unfold pidInsert
    split
    · rename_i hlt
      refine List.pairwise_cons.2 ⟨fun q hq => ?_, h⟩
      rcases List.mem_cons.1 hq with rfl | hq
      · exact hlt
      · exact BitVec.lt_trans hlt (hr.1 q hq)
    · split
      · exact h
      · rename_i h1 h2
        refine List.pairwise_cons.2 ⟨fun q hq => ?_, ih hr.2⟩
        rcases (mem_pidInsert p q l).1 hq with rfl | hq
        · have h3 := BitVec.not_lt.1 h1
          bv_omega
        · exact hr.1 q hq

theorem pidErase_rising (p : Pid) {l : List Pid} (h : pidsRising l) : pidsRising (pidErase p l) :=
  List.Pairwise.sublist List.filter_sublist h

/-- In canonical form, sets with the same members are the same data. -/
theorem pidsRising_ext {l m : List Pid} (hl : pidsRising l) (hm : pidsRising m) (h : ∀ q, q ∈ l ↔ q ∈ m) :
    l = m := by
  induction l generalizing m with
  | nil => cases m with
    | nil => rfl
    | cons q m => exact absurd ((h q).2 (by simp)) (by simp)
  | cons p l ih =>
    cases m with
    | nil => exact absurd ((h p).1 (by simp)) (by simp)
    | cons q m =>
      have hl' := List.pairwise_cons.1 hl
      have hm' := List.pairwise_cons.1 hm
      have hpq : p = q := by
        rcases List.mem_cons.1 ((h p).1 (by simp)) with e | hp
        · exact e
        · rcases List.mem_cons.1 ((h q).2 (by simp)) with e | hq
          · exact e.symm
          · exact absurd (BitVec.lt_trans (hm'.1 p hp) (hl'.1 q hq)) (BitVec.lt_irrefl q)
      subst hpq
      congr 1
      refine ih hl'.2 hm'.2 fun r => ⟨fun hr => ?_, fun hr => ?_⟩
      · rcases List.mem_cons.1 ((h r).1 (by simp [hr])) with rfl | h'
        · exact absurd (hl'.1 r hr) (BitVec.lt_irrefl r)
        · exact h'
      · rcases List.mem_cons.1 ((h r).2 (by simp [hr])) with rfl | h'
        · exact absurd (hm'.1 r hr) (BitVec.lt_irrefl r)
        · exact h'

/-! ### The context table -/

@[simp] theorem tableGet_put_same (p : Pid) (c : Ctx) (t : List (Pid × Ctx)) :
    tableGet p (tablePut p c t) = some c := by
  induction t with
  | nil => simp [tablePut, tableGet]
  | cons e t ih =>
    obtain ⟨q, d⟩ := e
    unfold tablePut
    split
    · simp [tableGet]
    · split
      · simp [tableGet]
      · rename_i h; simp [tableGet, h, ih]

theorem tableGet_put_other {p q : Pid} (h : q ≠ p) (c : Ctx) (t : List (Pid × Ctx)) :
    tableGet q (tablePut p c t) = tableGet q t := by
  induction t with
  | nil => simp [tablePut, tableGet, h]
  | cons e t ih =>
    obtain ⟨r, d⟩ := e
    unfold tablePut
    split
    · simp [tableGet, h]
    · split
      · rename_i hr; subst hr; simp [tableGet, h]
      · simp [tableGet, ih]

theorem tableGet_put (p q : Pid) (c : Ctx) (t : List (Pid × Ctx)) :
    tableGet q (tablePut p c t) = if q = p then some c else tableGet q t := by
  split
  · rename_i h; subst h; simp
  · rename_i h; exact tableGet_put_other h c t

@[simp] theorem tableGet_drop_same (p : Pid) (t : List (Pid × Ctx)) : tableGet p (tableDrop p t) = none := by
  induction t with
  | nil => rfl
  | cons e t ih =>
    obtain ⟨q, d⟩ := e
    by_cases h : q = p
    · simpa [tableDrop, h] using ih
    · have : tableDrop p ((q, d) :: t) = (q, d) :: tableDrop p t := by simp [tableDrop, h]
      simp [this, tableGet, Ne.symm h, ih]

theorem tableGet_drop_other {p q : Pid} (h : q ≠ p) (t : List (Pid × Ctx)) :
    tableGet q (tableDrop p t) = tableGet q t := by
  induction t with
  | nil => rfl
  | cons e t ih =>
    obtain ⟨r, d⟩ := e
    by_cases hr : r = p
    · subst hr
      have : tableDrop r ((r, d) :: t) = tableDrop r t := by simp [tableDrop]
      simp [this, tableGet, h, ih]
    · have : tableDrop p ((r, d) :: t) = (r, d) :: tableDrop p t := by simp [tableDrop, hr]
      simp [this, tableGet, ih]

/-- Two writes of one entry are the second. -/
@[simp] theorem tablePut_put (p : Pid) (c d : Ctx) (t : List (Pid × Ctx)) :
    tablePut p d (tablePut p c t) = tablePut p d t := by
  induction t with
  | nil => simp [tablePut]
  | cons e t ih =>
    obtain ⟨q, x⟩ := e
    by_cases h1 : p < q
    · simp [tablePut, h1]
    · by_cases h2 : p = q
      · subst h2; simp [tablePut]
      · simp [tablePut, h1, h2, ih]

/-- What a written table holds: the new entry, and nothing that was not there. -/
theorem mem_tablePut {p : Pid} {c : Ctx} {e : Pid × Ctx} {t : List (Pid × Ctx)} (h : e ∈ tablePut p c t) :
    e = (p, c) ∨ e ∈ t := by
  induction t with
  | nil => left; simpa [tablePut] using h
  | cons x t ih =>
    obtain ⟨q, d⟩ := x
    unfold tablePut at h
    split at h
    · simpa using h
    · split at h
      · rcases List.mem_cons.1 h with h | h
        · exact .inl h
        · exact .inr (List.mem_cons_of_mem _ h)
      · rcases List.mem_cons.1 h with h | h
        · exact .inr (by simp [h])
        · exact (ih h).imp id (List.mem_cons_of_mem _)

/-- An entry that is read is in the table. -/
theorem mem_of_tableGet {p : Pid} {c : Ctx} {t : List (Pid × Ctx)} (h : tableGet p t = some c) : (p, c) ∈ t := by
  induction t with
  | nil => simp [tableGet] at h
  | cons x t ih =>
    obtain ⟨q, d⟩ := x
    by_cases hq : p = q
    · subst hq; simp [tableGet] at h; simp [h]
    · simp [tableGet, hq] at h; exact List.mem_cons_of_mem _ (ih h)

theorem tablePut_rising (p : Pid) (c : Ctx) {t : List (Pid × Ctx)} (h : tableRising t) :
    tableRising (tablePut p c t) := by
  induction t with
  | nil => simp [tablePut, tableRising]
  | cons x t ih =>
    obtain ⟨q, d⟩ := x
    have hq := List.pairwise_cons.1 h
    unfold tablePut
    split
    · rename_i hlt
      refine List.pairwise_cons.2 ⟨fun e he => ?_, h⟩
      rcases List.mem_cons.1 he with rfl | he
      · exact hlt
      · exact BitVec.lt_trans hlt (hq.1 e he)
    · split
      · rename_i hpq; subst hpq; exact List.pairwise_cons.2 ⟨hq.1, hq.2⟩
      · rename_i h1 h2
        refine List.pairwise_cons.2 ⟨fun e he => ?_, ih hq.2⟩
        rcases mem_tablePut he with rfl | he
        · have h3 := BitVec.not_lt.1 h1
          bv_omega
        · exact hq.1 e he

theorem tableDrop_rising (p : Pid) {t : List (Pid × Ctx)} (h : tableRising t) : tableRising (tableDrop p t) :=
  List.Pairwise.sublist List.filter_sublist h

theorem mem_tableDrop {p : Pid} {e : Pid × Ctx} {t : List (Pid × Ctx)} (h : e ∈ tableDrop p t) : e ∈ t :=
  (List.mem_filter.1 h).1

end Sys2Proof.Machine
end

