-- ==== Sys2Proof/Laws/Packets.lean ====
section
/-! SUPPORT. What the shared operations of the packet classes can do, said once. -/

namespace Sys2Proof.Machine

/-! ### `andThen` -/

@[simp] theorem andThen_next (s : State) (f : State → Out) : andThen (.next s) f = f s := rfl
@[simp] theorem andThen_fault (r : Fault) (f : State → Out) : andThen (.fault r) f = .fault r := rfl
@[simp] theorem andThen_refused (r : Refusal) (f : State → Out) : andThen (.refused r) f = .refused r := rfl

@[simp] theorem andThen_next_right (o : Out) : andThen o .next = o := by cases o <;> rfl

/-- An `andThen` that answers a next state went through one. -/
theorem andThen_eq_next {o : Out} {f : State → Out} {t : State} (h : andThen o f = .next t) :
    ∃ u, o = .next u ∧ f u = .next t := by
  cases o with
  | next u => exact ⟨u, rfl, h⟩
  | fault r => cases h
  | refused r => cases h

/-- Reading the next state off an outcome gives one exactly when the outcome is that next state. -/
theorem nextState?_eq_some {o : Out} {t : State} (h : nextState? o = some t) : o = .next t := by
  cases o with
  | next u => cases h; rfl
  | fault r => cases h
  | refused r => cases h

theorem andThen_assoc (o : Out) (f g : State → Out) :
    andThen (andThen o f) g = andThen o fun s => andThen (f s) g := by
  cases o <;> rfl

/-! ### The operations -/

/-- Passthrough appends the packet's raw event or nothing. -/
theorem passthrough_eq (p : Packet) (s : State) : passthrough p s = s.addEvents (rawEvents p s) := by
  unfold passthrough rawEvents passed State.addEvents emit
  by_cases h : p.header.pid ∈ s.pset ∨ s.pall = true
  · have h' : (decide (p.header.pid ∈ s.pset) || s.pall) = true := by simpa using h
    simp [h, h']
  · have h' : ¬ (decide (p.header.pid ∈ s.pset) || s.pall) = true := by simpa using h
    simp [h, h']

/-- The filter gate tests the set and the flag. -/
theorem selected_iff (pid : Pid) (s : State) : selected pid s = true ↔ filtered pid s := by
  simp [selected, filtered]

/-- Emitting the unit in progress appends it, if a context exists. -/
theorem emitUnit_eq (pid : Pid) (s : State) :
    emitUnit pid s = s.addEvents (match tableGet pid s.ctx with
      | some c => [.unit pid c.buf]
      | none => []) := by
  unfold emitUnit ctxGet
  cases h : tableGet pid s.ctx <;> simp [State.addEvents, emit]

/-- An append that answers a next state wrote one context, within the capacity. -/
theorem appendUnit_eq_next {pid : Pid} {cc : Cc} {buf pl : List Byte} {s t : State}
    (h : appendUnit pid cc buf pl s = .next t) :
    t = ctxPut pid ⟨cc, buf ++ pl⟩ s ∧ withinCap s.cfg.unitCap (buf ++ pl).length = true := by
  unfold appendUnit at h
  split at h
  · rename_i hw; exact ⟨by cases h; rfl, hw⟩
  · cases h

theorem appendUnit_of_within {pid : Pid} {cc : Cc} {buf pl : List Byte} {s : State}
    (h : withinCap s.cfg.unitCap (buf ++ pl).length = true) :
    appendUnit pid cc buf pl s = .next (ctxPut pid ⟨cc, buf ++ pl⟩ s) := by
  unfold appendUnit; rw [if_pos h]

/-- A packet's class and the whole packet: everything a packet can do to the state. It appends at most its raw
event, then at most one more event, and writes at most its own PID's context. -/
theorem execPacket_eq_next {p : Packet} {s t : State} (h : execPacket p s = .next t) :
    (∃ raw rest, t = s.addEvents (raw ++ rest) ∧ (raw = [] ∨ raw = rawEvents p s) ∧
      (rest = [] ∨ ∃ k q, rest = [.err k q] ∧ q.isSome = k.carriesPid)) ∨
    (∃ c rest, t = { s with ctx := tablePut p.header.pid c s.ctx, events := s.events ++ rawEvents p s ++ rest } ∧
      c.cc = p.header.cc ∧ withinCap s.cfg.unitCap c.buf.length = true ∧
      ((p.header.cls = .start ∧ c.buf = payload p ∧
          rest = (match tableGet p.header.pid s.ctx with
            | some o => [.unit p.header.pid o.buf]
            | none => [])) ∨
       (p.header.cls = .cont ∧ ∃ o, tableGet p.header.pid s.ctx = some o ∧ c.buf = o.buf ++ payload p ∧
          rest = if cvOk o.cc p.header.cc then [] else [.err .discontinuity (some p.header.pid)]))) := by
  unfold execPacket at h
  cases hc : p.header.cls <;> simp only [hc] at h
  · left; cases h; exact ⟨[], [.err .invalidSync none], by simp [raiseError, emit, State.addEvents, ErrKind.carriesPid], .inl rfl, .inr ⟨_, _, rfl, rfl⟩⟩
  · left; cases h; exact ⟨[], [.err .transportError none], by simp [raiseError, emit, State.addEvents, ErrKind.carriesPid], .inl rfl, .inr ⟨_, _, rfl, rfl⟩⟩
  · left
    simp only [execPScrHi, scrambledPacket, passthrough_eq] at h
    split at h <;> cases h
    · exact ⟨rawEvents p s, [.err .scrambled (some p.header.pid)], by simp [raiseError, emit, State.addEvents, ErrKind.carriesPid], .inr rfl, .inr ⟨_, _, rfl, rfl⟩⟩
    · exact ⟨rawEvents p s, [], by simp, .inr rfl, .inl rfl⟩
  · left
    simp only [execPScrLo, scrambledPacket, passthrough_eq] at h
    split at h <;> cases h
    · exact ⟨rawEvents p s, [.err .scrambled (some p.header.pid)], by simp [raiseError, emit, State.addEvents, ErrKind.carriesPid], .inr rfl, .inr ⟨_, _, rfl, rfl⟩⟩
    · exact ⟨rawEvents p s, [], by simp, .inr rfl, .inl rfl⟩
  · left
    simp only [execPNopl, passthrough_eq] at h
    cases h
    exact ⟨rawEvents p s, [], by simp, .inr rfl, .inl rfl⟩
  · simp only [execPStart, passthrough_eq, emitUnit_eq] at h
    split at h
    · right
      obtain ⟨rfl, hw⟩ := appendUnit_eq_next h
      refine ⟨⟨p.header.cc, payload p⟩, _, ?_, rfl, by simpa using hw, .inl ⟨rfl, rfl, rfl⟩⟩
      simp [ctxPut, State.addEvents]
    · left; cases h; exact ⟨rawEvents p s, [], by simp, .inr rfl, .inl rfl⟩
  · simp only [execPCont, passthrough_eq, ctxGet] at h
    split at h
    · split at h
      · left; cases h
        exact ⟨rawEvents p s, [.err .orphan (some p.header.pid)], by simp [raiseError, emit, State.addEvents, ErrKind.carriesPid], .inr rfl, .inr ⟨_, _, rfl, rfl⟩⟩
      · rename_i o ho
        right
        obtain ⟨rfl, hw⟩ := appendUnit_eq_next h
        refine ⟨⟨p.header.cc, o.buf ++ payload p⟩, _, ?_, rfl, ?_, .inr ⟨rfl, o, ho, rfl, rfl⟩⟩
        · split <;> simp [ctxPut, State.addEvents, raiseError, emit, ErrKind.carriesPid]
        · split at hw <;> simpa using hw
    · left; cases h; exact ⟨rawEvents p s, [], by simp, .inr rfl, .inl rfl⟩

/-- A packet's payload is at most 184 bytes. -/
theorem payload_length_le (p : Packet) (h : p.body.length = 184) : (payload p).length ≤ 184 := by
  unfold payload
  split
  · simp [List.length_drop, h]
  · simp

/-- The continuity validator in arithmetic. -/
theorem cvOk_iff (prev cc : Cc) : cvOk prev cc = true ↔ cc.toNat = (prev.toNat + 1) % 16 := by
  simp [cvOk, nextCc, ← BitVec.toNat_inj]

end Sys2Proof.Machine
end

