-- ==== Sys2Proof/Laws/Demux.lean ====
section
/-! SUPPORT. What DWRITE's loop can do: it writes contexts and appends events, and nothing else. -/

namespace Sys2Proof.Machine

/-- `t` differs from `s` in the contexts and in appended events only. -/
structure OnlyDemux (s t : State) : Prop where
  frame : t = { s with ctx := t.ctx, events := t.events }
  appended : s.events <+: t.events

theorem OnlyDemux.refl (s : State) : OnlyDemux s s := ⟨rfl, List.prefix_refl _⟩

theorem OnlyDemux.trans {s t u : State} (h : OnlyDemux s t) (k : OnlyDemux t u) : OnlyDemux s u := by
  obtain ⟨hf, ha⟩ := h
  obtain ⟨kf, ka⟩ := k
  refine ⟨?_, ha.trans ka⟩
  rw [kf, hf]

/-- A packet writes contexts and appends events only. -/
theorem execPacket_onlyDemux {p : Packet} {s t : State} (h : execPacket p s = .next t) : OnlyDemux s t := by
  rcases execPacket_eq_next h with ⟨raw, rest, rfl, -⟩ | ⟨c, rest, rfl, -⟩
  · exact ⟨rfl, List.prefix_append _ _⟩
  · exact ⟨rfl, ⟨rawEvents p s ++ rest, by simp⟩⟩

theorem runStrides_onlyDemux {ps : List (List Byte)} {s t : State} (h : runStrides ps s = .next t) :
    OnlyDemux s t := by
  induction ps generalizing s with
  | nil => cases h; exact .refl _
  | cons p ps ih =>
    obtain ⟨u, hu, h⟩ := andThen_eq_next h
    exact (execPacket_onlyDemux hu).trans (ih h)

/-- DWRITE writes contexts and appends events only. -/
theorem demuxWrite_onlyDemux {b : List Byte} {s t : State} (h : demuxWrite b s = .next t) : OnlyDemux s t := by
  obtain ⟨u, hu, h⟩ := andThen_eq_next h
  have hl : OnlyDemux u (lengthCheck b u) := by
    unfold lengthCheck
    split
    · exact .refl _
    · exact ⟨rfl, List.prefix_append _ _⟩
  cases h
  exact (runStrides_onlyDemux hu).trans hl

/-- Every stride of a chunk is a whole packet. -/
theorem length_of_mem_strides {n : Nat} {b p : List Byte} (hb : 188 * n ≤ b.length) (h : p ∈ strides n b) :
    p.length = 188 := by
  induction n generalizing b with
  | zero => simp [strides] at h
  | succ n ih =>
    rcases List.mem_cons.1 h with rfl | h
    · rw [List.length_take]; omega
    · exact ih (by rw [List.length_drop]; omega) h

end Sys2Proof.Machine
end

