-- ==== Sys2Proof/Laws/PerInstr.lean ====
section
/-! SUPPORT. Statements about every instruction as syntax, one lemma for each constructor. The family `Format`:
the encoded form of an instruction is of the format, and has the fixed bits, that its row of
spec/opcode_table.json gives. -/

namespace Sys2Proof.Laws.Format

/-- What the table's row fixes of an instruction's encoded form: the format, and for a command word its
match under its mask. -/
def Statement : Instr → Prop
  | .swrite c => encode (.swrite c) = .data false c
  | .dwrite c => encode (.dwrite c) = .data true c
  | .setn n => ∃ w, encode (.setn n) = .cmd w ∧ w &&& 0x1FF00#17 = 0x0E000#17
  | .addf p => ∃ w, encode (.addf p) = .cmd w ∧ w &&& 0x1E000#17 = 0x02000#17
  | .rmf p => ∃ w, encode (.rmf p) = .cmd w ∧ w &&& 0x1E000#17 = 0x04000#17
  | .addp p => ∃ w, encode (.addp p) = .cmd w ∧ w &&& 0x1E000#17 = 0x06000#17
  | .rmp p => ∃ w, encode (.rmp p) = .cmd w ∧ w &&& 0x1E000#17 = 0x08000#17
  | .setfall b => ∃ w, encode (.setfall b) = .cmd w ∧ w &&& 0x1FFFE#17 = 0x0A000#17
  | .setpall b => ∃ w, encode (.setpall b) = .cmd w ∧ w &&& 0x1FFFE#17 = 0x0C000#17
  | .reset => encode .reset = .pin
  | .pBadsync p => encode (.pBadsync p) = .ts (p.header.bytes ++ p.body)
  | .pTei p => encode (.pTei p) = .ts (p.header.bytes ++ p.body)
  | .pScrHi p => encode (.pScrHi p) = .ts (p.header.bytes ++ p.body)
  | .pScrLo p => encode (.pScrLo p) = .ts (p.header.bytes ++ p.body)
  | .pNopl p => encode (.pNopl p) = .ts (p.header.bytes ++ p.body)
  | .pStart p => encode (.pStart p) = .ts (p.header.bytes ++ p.body)
  | .pCont p => encode (.pCont p) = .ts (p.header.bytes ++ p.body)

/-- A command word under the mask that keeps its `op`. -/
theorem cmdWord_masked (op : BitVec 4) (arg : BitVec 13) :
    cmdWord op arg &&& 0x1E000#17 = cmdWord op 0#13 := by
  have hm : (0x1E000#17) = cmdWord (BitVec.allOnes 4) 0#13 := by decide
  have ha : (op ++ arg) &&& (BitVec.allOnes 4 ++ 0#13) = op ++ 0#13 := by
    rw [BitVec.and_append, BitVec.and_allOnes, BitVec.and_zero]
  rw [hm]
  exact ha

theorem swrite (c : List Byte) : Statement (.swrite c) := rfl
theorem dwrite (c : List Byte) : Statement (.dwrite c) := rfl
theorem setn (n : BitVec 8) : Statement (.setn n) := by
  refine ⟨_, rfl, ?_⟩
  revert n
  decide +kernel
theorem addf (p : Pid) : Statement (.addf p) := ⟨_, rfl, (cmdWord_masked _ _).trans (by decide)⟩
theorem rmf (p : Pid) : Statement (.rmf p) := ⟨_, rfl, (cmdWord_masked _ _).trans (by decide)⟩
theorem addp (p : Pid) : Statement (.addp p) := ⟨_, rfl, (cmdWord_masked _ _).trans (by decide)⟩
theorem rmp (p : Pid) : Statement (.rmp p) := ⟨_, rfl, (cmdWord_masked _ _).trans (by decide)⟩
theorem setfall (b : Bool) : Statement (.setfall b) := ⟨_, rfl, by cases b <;> decide⟩
theorem setpall (b : Bool) : Statement (.setpall b) := ⟨_, rfl, by cases b <;> decide⟩
theorem reset : Statement .reset := rfl
theorem pBadsync (p : Packet) : Statement (.pBadsync p) := rfl
theorem pTei (p : Packet) : Statement (.pTei p) := rfl
theorem pScrHi (p : Packet) : Statement (.pScrHi p) := rfl
theorem pScrLo (p : Packet) : Statement (.pScrLo p) := rfl
theorem pNopl (p : Packet) : Statement (.pNopl p) := rfl
theorem pStart (p : Packet) : Statement (.pStart p) := rfl
theorem pCont (p : Packet) : Statement (.pCont p) := rfl

end Sys2Proof.Laws.Format
end

