-- ==== Sys2Proof/Laws/Ports.lean ====
section
/-! SUPPORT. What the hardware drives and delivers at its ports, one lemma for each signal in each phase. -/

namespace Sys2Proof.Machine

@[simp] theorem waitingOutputs_inReady (c : Option PartChunk) (e : Edge) :
    (waitingOutputs c e).inReady = inReady c e := rfl
@[simp] theorem waitingOutputs_cmdReady (c : Option PartChunk) (e : Edge) :
    (waitingOutputs c e).cmdReady = cmdReady c e := rfl
@[simp] theorem waitingOutputs_evValid (c : Option PartChunk) (e : Edge) :
    (waitingOutputs c e).evValid = false := rfl
@[simp] theorem executingOutputs_inReady (r : Bool) (q : List EvtBeat) :
    (executingOutputs r q).inReady = false := rfl
@[simp] theorem executingOutputs_cmdReady (r : Bool) (q : List EvtBeat) :
    (executingOutputs r q).cmdReady = false := rfl
@[simp] theorem executingOutputs_evt_rst (q : List EvtBeat) : (executingOutputs true q).evt = none := rfl
@[simp] theorem executingOutputs_evt (q : List EvtBeat) : (executingOutputs false q).evt = q.head? := rfl

@[simp] theorem deliver_nil (q : List EvtBeat) : deliver [] q = ([], q) := rfl
@[simp] theorem deliver_ready (rs : List Bool) (b : EvtBeat) (q : List EvtBeat) :
    deliver (true :: rs) (b :: q) = (b :: (deliver rs q).1, (deliver rs q).2) := rfl
@[simp] theorem deliver_ready_empty (rs : List Bool) : deliver (true :: rs) [] = deliver rs [] := rfl
@[simp] theorem deliver_stalled (rs : List Bool) (q : List EvtBeat) :
    deliver (false :: rs) q = deliver rs q := rfl

end Sys2Proof.Machine
end

