-- ==== Sys2Proof/Laws/Sync.lean ====
section
/-! SUPPORT. What the parts of the drain can do, said once. -/

namespace Sys2Proof.Machine

/-! ### The stride scan -/

theorem goodStrides_le (n : Nat) (b : List Byte) : goodStrides n b ≤ n := by
  induction n generalizing b with
  | zero => simp [goodStrides]
  | succ n ih => unfold goodStrides; split <;> [exact Nat.succ_le_succ (ih _); exact Nat.zero_le _]

/-- Every stride that the scan counts begins with the sync byte. -/
theorem goodStrides_sync {n : Nat} {b : List Byte} {j : Nat} (h : j < goodStrides n b) :
    b[188 * j]? = some syncByte := by
  induction n generalizing b j with
  | zero => simp [goodStrides] at h
  | succ n ih =>
    unfold goodStrides at h
    split at h
    · rename_i hs
      cases j with
      | zero => rw [List.head?_eq_getElem?] at hs; exact hs
      | succ j =>
        have := ih (Nat.lt_of_succ_lt_succ h)
        rw [List.getElem?_drop] at this
        rwa [Nat.mul_succ, Nat.add_comm]
    · simp at h

/-- Where the scan stops short, the stride does not begin with the sync byte. -/
theorem goodStrides_stop {n : Nat} {b : List Byte} (h : goodStrides n b < n) :
    b[188 * goodStrides n b]? ≠ some syncByte := by
  induction n generalizing b with
  | zero => simp at h
  | succ n ih =>
    unfold goodStrides at h ⊢
    split at h
    · rename_i hs
      rw [if_pos hs]
      have := ih (Nat.lt_of_succ_lt_succ h)
      rw [List.getElem?_drop] at this
      rwa [Nat.mul_succ, Nat.add_comm]
    · rename_i hs
      rw [if_neg hs]
      rw [List.head?_eq_getElem?] at hs
      exact hs


/-! ### The lock search -/

/-- The probes match exactly where `N+1` sync bytes stand 188 apart. -/
theorem probesMatch_iff (b : List Byte) (n o : Nat) :
    probesMatch b n o = true ↔ ∀ i, i ≤ n → b[o + 188 * i]? = some syncByte := by
  simp [probesMatch]

/-- An offset that the search finds is a candidate, matches, and is in range. -/
theorem findLock_some {b : List Byte} {n o : Nat} (h : findLock b n = some o) :
    probesMatch b n o = true ∧ o + 188 * n < b.length := by
  unfold findLock at h
  have h1 := List.find?_some h
  have h2 := List.mem_range.1 (List.mem_of_find?_eq_some h)
  exact ⟨h1, by omega⟩

/-! ### Step 1, and the run -/

/-- Everything step 1 of a drain pass can do (R102, R104, R105). -/
theorem hunt_cases (s : State) :
    (s.locked = true ∧ hunt s = (s, true)) ∨
    (s.locked = false ∧ s.acc.length < (s.nlock.toNat + 1) * 188 ∧ hunt s = (s, false)) ∨
    (s.locked = false ∧ (s.nlock.toNat + 1) * 188 ≤ s.acc.length ∧ findLock s.acc s.nlock.toNat = none ∧
      hunt s = (discardFront (s.acc.length - s.nlock.toNat * 188) s, false)) ∨
    (∃ o, s.locked = false ∧ (s.nlock.toNat + 1) * 188 ≤ s.acc.length ∧
      findLock s.acc s.nlock.toNat = some o ∧
      hunt s = (State.addEvents { s with locked := true, acc := s.acc.drop o }
        (if o = 0 then [] else [.discard o]), true)) := by
  unfold hunt
  by_cases hl : s.locked = true
  · left; simp [hl]
  · by_cases hf : s.acc.length < (s.nlock.toNat + 1) * 188
    · right; left; simp [hl, hf]
    · cases ho : findLock s.acc s.nlock.toNat with
      | none => right; right; left; simp [hl, hf]; omega
      | some o =>
        right; right; right
        refine ⟨o, by simpa using hl, by omega, rfl, ?_⟩
        by_cases h0 : o = 0
        · subst h0; simp [hl, hf, setLocked, State.addEvents]
        · simp [hl, hf, h0, setLocked, discardFront, accDrop, emit, State.addEvents]

/-- Everything the run emission can do when it answers a next state (R108): nothing for `ptr = 0`; else the bytes
leave as one run, and only contexts and appended events change after it. -/
theorem emitRun_eq_next {n : Nat} {s t : State} (h : emitRun n s = .next t) :
    (n = 0 ∧ t = s) ∨
    (0 < n ∧ OnlyDemux (State.addEvents { s with acc := s.acc.drop n } [.run (s.acc.take n)]) t ∧
      (s.cfg.chain = false →
        t = (State.addEvents { s with acc := s.acc.drop n } [.run (s.acc.take n)]))) := by
  unfold emitRun at h
  split at h
  · left; cases h; exact ⟨by assumption, rfl⟩
  · rename_i hn
    right
    refine ⟨by omega, ?_⟩
    dsimp only at h
    split at h
    · rename_i hc
      exact ⟨demuxWrite_onlyDemux h, fun hc' => by simp [hc'] at hc⟩
    · cases h; exact ⟨.refl _, fun _ => rfl⟩

end Sys2Proof.Machine
end

