-- ==== Sys2Proof/Tests/Slice0.lean ====
section
/-! SUPPORT. The model's own tests: each check of WellFormed refusing an ill-formed term, each constructor's word
written out from the spec's encoding, one step's result against the vectors of 95_test_vectors.md, and a witness
for the hypotheses of each obligation that has some. Expected results are the spec's, never the model's. -/

set_option Elab.async false

namespace Sys2Proof.Tests

open Sys2Proof.Machine

/-! ### Builders -/

/-- R88's `PKT(...)`. -/
def pkt (pid cc : Nat) (pusi tei tp sc : Nat := 0) (afc : Nat := 1) (afl afb pl : Nat := 0) : List Byte :=
  [0x47#8, BitVec.ofNat 8 (tei * 128 + pusi * 64 + tp * 32 + pid / 256), BitVec.ofNat 8 pid,
    BitVec.ofNat 8 (sc * 64 + afc * 16 + cc)] ++
  (if 2 ≤ afc then
     BitVec.ofNat 8 afl :: (List.replicate (min afl 183) (BitVec.ofNat 8 afb) ++
       List.replicate (183 - afl) (BitVec.ofNat 8 pl))
   else List.replicate 184 (BitVec.ofNat 8 pl))

/-- R88's `NULLPKT(cc)`. -/
def nullPkt (cc : Nat) : List Byte := pkt 0x1FFF cc (pl := 0xFF)

/-- `XX*n`. -/
def fill (n x : Nat) : List Byte := List.replicate n (BitVec.ofNat 8 x)

/-- The reset state of a build with `CHAIN = 0`. -/
def alone : State := { State.reset with cfg := { Config.default with chain := false } }

/-- `FSET = {0x100}` in it. -/
def filter100 : State := { alone with fset := [0x100#13] }

/-- A packet of 184 zero bytes behind a header. -/
def packetOf (h : BitVec 32) : Packet := ⟨parseHeader h, List.replicate 184 0#8⟩

/-- R153's example: the start packet of PID 0x100. -/
def startPkt : List Byte := pkt 0x100 14 (pusi := 1) (pl := 0xA1)

/-- The events after an operation. -/
def eventsAfter (i : Instr) (s : State) : Option (List Event) := (nextState? (exec i s)).map (·.events)

/-! ### WellFormed refuses what is ill-formed -/

theorem test_wf_setn_zero : Instr.wf (.setn 0#8) = false := by decide
theorem test_wf_short_packet : Instr.wf (.pStart ⟨parseHeader 0x47400010#32, [0#8]⟩) = false := by decide
theorem test_wf_badsync : Instr.wf (.pBadsync (packetOf 0x47000010#32)) = false := by decide +kernel
theorem test_wf_tei : Instr.wf (.pTei (packetOf 0x47000010#32)) = false := by decide +kernel
theorem test_wf_scrHi : Instr.wf (.pScrHi (packetOf 0x47000050#32)) = false := by decide +kernel
theorem test_wf_scrLo : Instr.wf (.pScrLo (packetOf 0x470000D0#32)) = false := by decide +kernel
theorem test_wf_nopl : Instr.wf (.pNopl (packetOf 0x47000010#32)) = false := by decide +kernel
theorem test_wf_start : Instr.wf (.pStart (packetOf 0x47000010#32)) = false := by decide +kernel
theorem test_wf_cont : Instr.wf (.pCont (packetOf 0x47400010#32)) = false := by decide +kernel

/-! ### Decoding: words written out from R71, R72, R73, R74 -/

theorem test_decode_swrite : (decode (.data false [0x47#8])).toOption = some (.swrite [0x47#8]) := by decide
theorem test_decode_dwrite : (decode (.data true [0x47#8])).toOption = some (.dwrite [0x47#8]) := by decide
theorem test_decode_addf : (decode (.cmd 0b00010000100000000#17)).toOption = some (.addf 0x100#13) := by decide
theorem test_decode_rmf : (decode (.cmd 0b00100000000100000#17)).toOption = some (.rmf 0x20#13) := by decide
theorem test_decode_addp : (decode (.cmd 0b00111111111111111#17)).toOption = some (.addp 0x1FFF#13) := by decide
theorem test_decode_rmp : (decode (.cmd 0b01000000000010001#17)).toOption = some (.rmp 0x11#13) := by decide
theorem test_decode_setfall : (decode (.cmd 0b01010000000000001#17)).toOption = some (.setfall true) := by decide
theorem test_decode_setpall : (decode (.cmd 0b01100000000000000#17)).toOption = some (.setpall false) := by decide
theorem test_decode_setn : (decode (.cmd 0b01110000011111111#17)).toOption = some (.setn 255#8) := by decide
theorem test_decode_reset : (decode .pin).toOption = some .reset := by decide

/-- DF7: the illegal command words. -/
theorem test_decode_illegal :
    ([0x00000#17, 0x10000#17, 0x0A002#17, 0x0E000#17, 0x0E100#17].map fun w => (decode (.cmd w)).toOption)
      = [none, none, none, none, none] := by decide

/-- DH1: header 47 41 00 1E. -/
theorem test_decode_start : decodeTableWord 32 0x4741001E = some (.pStart ⟨
    { sync := 0x47#8, tei := false, pusi := true, tp := false, pid := 0x100#13, sc := 0#2, hasAf := false,
      hasPl := true, cc := 14#4 }, List.replicate 184 0#8⟩) := by decide +kernel

/-- DH7: header 47 00 00 3A. -/
theorem test_decode_cont : decodeTableWord 32 0x4700003A = some (.pCont ⟨
    { sync := 0x47#8, tei := false, pusi := false, tp := false, pid := 0#13, sc := 0#2, hasAf := true,
      hasPl := true, cc := 10#4 }, List.replicate 184 0#8⟩) := by decide +kernel

/-- DH3: header 47 E0 11 3F. -/
theorem test_decode_tei : decodeTableWord 32 0x47E0113F = some (.pTei ⟨
    { sync := 0x47#8, tei := true, pusi := true, tp := true, pid := 0x11#13, sc := 0#2, hasAf := true,
      hasPl := true, cc := 15#4 }, List.replicate 184 0#8⟩) := by decide +kernel

/-- DH6: header 47 01 00 95. -/
theorem test_decode_scrHi : decodeTableWord 32 0x47010095 = some (.pScrHi ⟨
    { sync := 0x47#8, tei := false, pusi := false, tp := false, pid := 0x100#13, sc := 2#2, hasAf := false,
      hasPl := true, cc := 5#4 }, List.replicate 184 0#8⟩) := by decide +kernel

/-- DD9's packet C: header 47 01 00 65, `sc` = 1. -/
theorem test_decode_scrLo : decodeTableWord 32 0x47010065 = some (.pScrLo ⟨
    { sync := 0x47#8, tei := false, pusi := false, tp := false, pid := 0x100#13, sc := 1#2, hasAf := true,
      hasPl := false, cc := 5#4 }, List.replicate 184 0#8⟩) := by decide +kernel

/-- DH8: header 47 5F FF 27. -/
theorem test_decode_nopl : decodeTableWord 32 0x475FFF27 = some (.pNopl ⟨
    { sync := 0x47#8, tei := false, pusi := true, tp := false, pid := 0x1FFF#13, sc := 0#2, hasAf := true,
      hasPl := false, cc := 7#4 }, List.replicate 184 0#8⟩) := by decide +kernel

/-- DH5: header 46 1F FF 10. -/
theorem test_decode_badsync : (decodeTableWord 32 0x461FFF10).isSome = true ∧
    (parseHeader 0x461FFF10#32).cls = .badsync := by decide +kernel

/-- A packet's bytes are the bytes it was read from. -/
theorem test_packet_bytes : (parsePacket (pkt 0x100 0 (afc := 3) (afl := 7) (pl := 0xA3))).bytes
    = pkt 0x100 0 (afc := 3) (afl := 7) (pl := 0xA3) := by decide +kernel

/-- R152's example: payload `A3*176`. -/
theorem test_payload : payload (parsePacket (pkt 0x100 0 (afc := 3) (afl := 7) (pl := 0xA3))) = fill 176 0xA3 := by
  decide +kernel

/-! ### One step of each operation -/

/-- DS4: a lock on bytes that are no packets, at offset 5. -/
theorem test_swrite_lock :
    eventsAfter (.swrite (fill 5 0x11 ++ [0x47#8] ++ fill 187 0x11 ++ [0x47#8] ++ fill 206 0x11)) { alone with nlock := 1#8 }
      = some [.discard 5, .run (0x47#8 :: fill 187 0x11 ++ 0x47#8 :: fill 187 0x11)] := by decide +kernel

/-- DS6b: a complete stride that begins with 00 loses the lock, and emits nothing. -/
theorem test_swrite_lock_lost :
    nextState? (exec (.swrite (fill 88 0)) { alone with locked := true, acc := fill 100 0 })
      = some { alone with acc := fill 188 0 } := by decide +kernel

/-- DD2's last packets and DD12c's remainder: the discontinuity is reported once, the remainder last. -/
theorem test_dwrite : eventsAfter (.dwrite (pkt 0x100 2 (pl := 0x12) ++ pkt 0x100 3 (pl := 0x13) ++ [0x47#8, 0x1F#8]))
    { filter100 with ctx := [(0x100#13, ⟨15#4, []⟩)] }
      = some [.err .discontinuity (some 0x100#13), .err .lengthNotMultiple none] := by decide +kernel

/-- DD12a: no bytes, no effect. -/
theorem test_dwrite_empty : nextState? (exec (.dwrite []) filter100) = some filter100 := by decide

/-- DS7. -/
theorem test_setn : nextState? (exec (.setn 2#8) { alone with locked := true, acc := fill 3 0 })
    = some { alone with nlock := 2#8 } := by decide

/-- DF1, idempotent, and the canonical order. -/
theorem test_addf : nextState? (exec (.addf 0x100#13) { alone with fset := [1#13, 0x100#13, 0x200#13] })
    = some { alone with fset := [1#13, 0x100#13, 0x200#13] } := by decide

/-- R171's example. -/
theorem test_rmf : nextState? (exec (.rmf 0x100#13) { filter100 with ctx := [(0x100#13, ⟨3#4, fill 5 1⟩)] })
    = some alone := by decide

/-- R172's example. -/
theorem test_addp : nextState? (exec (.addp 0x1FFF#13) { alone with pset := [0x100#13] })
    = some { alone with pset := [0x100#13, 0x1FFF#13] } := by decide

/-- R173's example. -/
theorem test_rmp : nextState? (exec (.rmp 0x11#13) { alone with pset := [0x11#13] }) = some alone := by decide

/-- DF4's first command. -/
theorem test_setfall : nextState? (exec (.setfall true) alone) = some { alone with fall := true } := by decide

/-- DF6: the set is kept under the flag. -/
theorem test_setpall : nextState? (exec (.setpall false) { alone with pset := [7#13], pall := true })
    = some { alone with pset := [7#13] } := by decide

/-- DF8. -/
theorem test_reset : nextState? (exec .reset { filter100 with
      acc := fill 5 0
      locked := true
      nlock := 9#8
      pall := true
      fall := true
      ctx := [(3#13, ⟨0#4, []⟩)]
      part := some ⟨true, [0#8]⟩ })
    = some alone := by decide

/-- DD10: no passthrough of a packet with a bad sync byte. -/
theorem test_badsync : eventsAfter (.pBadsync (packetOf 0#32)) { alone with pall := true, fall := true }
    = some [.err .invalidSync none] := by decide +kernel

/-- DD10: no passthrough of a packet with a transport error. -/
theorem test_tei : eventsAfter (.pTei (packetOf 0x47810010#32)) { alone with pall := true, fall := true }
    = some [.err .transportError none] := by decide +kernel

/-- DD9's packet A: raw, then scrambled. -/
theorem test_scrHi : eventsAfter (.pScrHi (parsePacket (pkt 0x100 5 (sc := 2)))) { filter100 with pall := true }
    = some [.raw 0x100#13 (pkt 0x100 5 (sc := 2)), .err .scrambled (some 0x100#13)] := by decide +kernel

/-- DD9's packet C, not selected: no error. -/
theorem test_scrLo : eventsAfter (.pScrLo (parsePacket (pkt 0x101 5 (sc := 1) (afc := 2)))) filter100
    = some [] := by decide +kernel

/-- DD8: no payload flag, so `pusi` and `cc` are not looked at. -/
theorem test_nopl :
    nextState? (exec (.pNopl (parsePacket (pkt 0x100 3 (pusi := 1) (afc := 2) (afl := 183))))
      { filter100 with ctx := [(0x100#13, ⟨7#4, fill 3 0x99⟩)] })
    = some { filter100 with ctx := [(0x100#13, ⟨7#4, fill 3 0x99⟩)] } := by decide +kernel

/-- DD5: the second start emits the first one's payload only; no counter check. -/
theorem test_start :
    nextState? (exec (.pStart (parsePacket (pkt 0x100 9 (pusi := 1) (pl := 0x19))))
      { filter100 with ctx := [(0x100#13, ⟨1#4, fill 184 0x11⟩)] })
    = some { filter100 with
        ctx := [(0x100#13, ⟨9#4, fill 184 0x19⟩)]
        events := [.unit 0x100#13 (fill 184 0x11)] } := by decide +kernel

/-- DD7: an empty unit is emitted. -/
theorem test_start_empty_unit :
    eventsAfter (.pStart (parsePacket (pkt 0x100 1 (pusi := 1)))) { filter100 with ctx := [(0x100#13, ⟨0#4, []⟩)] }
    = some [.unit 0x100#13 []] := by decide +kernel

/-- R154's example: counter stored as observed, payload appended. -/
theorem test_cont :
    nextState? (exec (.pCont (parsePacket (pkt 0x100 2 (pl := 0xA4))))
      { filter100 with ctx := [(0x100#13, ⟨15#4, [1#8]⟩)] })
    = some { filter100 with
        ctx := [(0x100#13, ⟨2#4, 1#8 :: fill 184 0xA4⟩)]
        events := [.err .discontinuity (some 0x100#13)] } := by decide +kernel

/-- DD4: an orphan's payload is dropped. -/
theorem test_cont_orphan : nextState? (exec (.pCont (parsePacket (pkt 0x100 5))) filter100)
    = some { filter100 with events := [.err .orphan (some 0x100#13)] } := by decide +kernel

/-- P3, step 7: with `CHAIN = 1` the run's events follow it (R62). -/
theorem test_chained_write :
    eventsAfter (.swrite (pkt 0x20 8 (pl := 0xC6))) { State.reset with nlock := 1#8, fall := true, locked := true }
      = some [.run (pkt 0x20 8 (pl := 0xC6)), .err .orphan (some 0x20#13)] := by decide +kernel

/-! ### The ports -/

/-- R92: the command first; R90: the chunk's first beat waits and `in_dest` counts on it only. -/
theorem test_ports_order :
    nextOp none [⟨false, some 0x02100#17, some ⟨1#8, false, true⟩⟩, ⟨false, none, some ⟨1#8, false, true⟩⟩,
      ⟨false, some 0x02100#17, some ⟨2#8, true, false⟩⟩]
    = (some (.cmd 0x02100#17), none, [⟨false, none, some ⟨1#8, false, true⟩⟩,
      ⟨false, some 0x02100#17, some ⟨2#8, true, false⟩⟩]) ∧
    nextOp none [⟨false, none, some ⟨1#8, false, true⟩⟩, ⟨false, some 0x02100#17, some ⟨2#8, true, false⟩⟩]
    = (some (.data true [1#8, 2#8]), none, []) := by decide

/-- R211: `rst` loses a half-transferred chunk. -/
theorem test_ports_reset : nextOp (some ⟨true, [1#8]⟩) [⟨true, none, some ⟨2#8, true, true⟩⟩]
    = (some .pin, none, []) := by decide

/-- R91: an error with a PID is one beat, a unit of two bytes is two. -/
theorem test_evt_beats :
    evtStream [.err .orphan (some 0x100#13), .unit 5#13 [1#8, 2#8]]
    = [⟨4#3, 4#3, 0x100#13, true, 0, 0#8, false, true⟩, ⟨3#3, 0#3, 5#13, true, 2, 1#8, true, false⟩,
       ⟨3#3, 0#3, 5#13, true, 2, 2#8, true, true⟩] := by decide

/-- R210's ports row: idle, and in reset. R92: a first beat waits for a command offered with it. -/
theorem test_outputs :
    waitingOutputs none ⟨false, some 0x02100#17, none⟩ = ⟨true, true, none⟩ ∧
    waitingOutputs none ⟨false, some 0x02100#17, some ⟨1#8, false, true⟩⟩ = ⟨false, true, none⟩ ∧
    waitingOutputs none ⟨true, none, none⟩ = ⟨false, false, none⟩ ∧
    (executingOutputs false (evtStream [.discard 3])).evValid = true ∧
    (executingOutputs true (evtStream [.discard 3])).evValid = false := by decide

/-- R91: a beat leaves at a ready edge only. -/
theorem test_deliver : ((deliver [false, true] (evtStream [.unit 5#13 [1#8, 2#8]])).1.map (·.data),
    (deliver [false, true] (evtStream [.unit 5#13 [1#8, 2#8]])).2.map (·.data)) = ([1#8], [2#8]) := by decide

/-- A word of the opcode table, offered after reset, is the instruction the next step runs. -/
theorem test_fetch_cmd : nextState? (step (State.reset.withFetchWord 24 0x0E0FF))
    = some { State.reset with nlock := 255#8 } := by decide +kernel

/-- The same of a packet class: `P_BADSYNC`. -/
theorem test_fetch_packet : nextState? (step (State.reset.withFetchWord 32 0x46000000))
    = some { State.reset with events := [.err .invalidSync none] } := by decide +kernel

/-! ### Witnesses: each obligation's hypotheses can be met together -/

theorem witness_DecodeOfEncodeIsInstruction :
    Instr.wf (.setn 1#8) = true ∧ Instr.wf (.pStart (packetOf 0x475FFF3F#32)) = true := by decide +kernel
theorem witness_EncodeOfDecodeIsWord :
    (decode (.cmd 0x0A001#17)).toOption = some (.setfall true) ∧
    (decode (.ts (nullPkt 0))).toOption = some (.pCont (parsePacket (nullPkt 0))) := by decide +kernel
theorem witness_CommandWordMap : (0x01FFF#17).toNat / 8192 = 0 ∧ 8 ≤ (0x10000#17).toNat / 8192 ∧
    (0x0E001#17).toNat = 0x7 * 8192 + (1#8).toNat := by decide
theorem witness_IllegalCommandsAreRefused : (decode (.cmd 0x0E000#17)).toOption = none ∧
    ({ alone with wires := [Edge.ofCmd 0x0E000#17] } : State).wires = Edge.ofCmd 0x0E000#17 :: [] ∧
    refusal? (step { alone with wires := [Edge.ofCmd 0x0E000#17] }) = some .illegalCommand := by decide
theorem witness_StepRunsDecodedInstruction :
    (nextOp alone.part [Edge.ofCmd 0x02100#17]).1 = some (.cmd 0x02100#17) ∧
    (decode (.cmd 0x02100#17)).toOption = some (.addf 0x100#13) ∧
    (nextOp State.reset.part State.reset.wires).1 = none := by decide
theorem witness_CommandBeforeChunkAtIdleEdge :
    (⟨true, some 0#17, none⟩ : Edge).rst = true ∧
    (decode (.cmd 0x0C001#17)).toOption = some (.setpall true) ∧
    (⟨9#8, true, false⟩ : InBeat).last = true := by decide
theorem witness_BeatsFormOneWrite :
    ({ alone with wires := (beatsOf [1#8, 2#8] [true, false]).map Edge.ofBeat ++ [Edge.ofRst] } : State).wires
      = (beatsOf [1#8, 2#8] [true, false]).map Edge.ofBeat ++ [Edge.ofRst] ∧ alone.part = none ∧
    ([1#8, 2#8] : List Byte) ≠ [] := by decide
theorem witness_OfferedPacketRunsItsClass : (nullPkt 3).length = 188 ∧
    (decode (.ts (nullPkt 3))).toOption = some (.pCont (parsePacket (nullPkt 3))) := by decide +kernel
theorem witness_EventBeatsCarryTheEvent : ([7#8] : List Byte) ≠ [] := by decide
theorem witness_EventStreamIsUnambiguous :
    ∀ e ∈ [Event.run (nullPkt 0), .discard 1, .raw 1#13 (nullPkt 1), .unit 1#13 [], .err .orphan (some 0#13),
      .err .invalidSync none], e.shapeOk = true := by decide +kernel
theorem witness_SetnResetsSynchronizer : (1#8 : BitVec 8) ≠ 0#8 ∧ (255#8 : BitVec 8) ≠ 0#8 ∧
    (0x0E0FF#17).toNat = 0xE000 + (255#8).toNat := by decide
theorem witness_ConfigurationWords : (0x03FFF#17).toNat = 0x02000 + (0x1FFF#13).toNat ∧
    (0x06000#17).toNat = 0x06000 + (0#13).toNat ∧ (0x04100#17).toNat = 0x04000 + (0x100#13).toNat ∧
    (0x09FFF#17).toNat = 0x08000 + (0x1FFF#13).toNat ∧ (0x0A001#17).toNat = 0x0A000 + true.toNat ∧
    (0x0C000#17).toNat = 0x0C000 + false.toNat := by decide
theorem witness_ConfigurationIsIdempotent :
    nextState? (exec (.rmf 0x100#13) filter100) = some alone ∧
    (nextState? (exec (.setn 1#8) filter100)).isSome = true := by decide
theorem witness_ScrambledRaisesAfterPassthrough :
    filtered 0x100#13 filter100 ∧ ¬ filtered 0x101#13 filter100 := by decide
/-- Within and beyond a capacity, with a context and without, selected and not. -/
theorem witness_StartAndContinuation :
    filtered (packetOf 0x47410010#32).header.pid filter100 ∧
    ¬ filtered (packetOf 0x47410010#32).header.pid alone ∧
    withinCap filter100.cfg.unitCap (payload (packetOf 0x47410010#32)).length = true ∧
    withinCap (some 183) (payload (packetOf 0x47410010#32)).length = false ∧
    withinCap (some 184) (0 + (payload (packetOf 0x47410010#32)).length) = true ∧
    tableGet 0x100#13 [(0x100#13, (⟨3#4, []⟩ : Ctx))] = some ⟨3#4, []⟩ ∧
    tableGet 0x100#13 filter100.ctx = none := by decide +kernel
/-- Adaptation-field lengths at the boundaries 0, 183, 184 and 255 (DD6). -/
theorem witness_PayloadOfPacketBytes :
    ([0, 183, 184, 255].map fun a =>
      ((pkt 0x100 0 (afc := 3) (afl := a)).length, ((pkt 0x100 0 (afc := 3) (afl := a)).getD 4 0).toNat,
       (payload (parsePacket (pkt 0x100 0 (afc := 3) (afl := a)))).length))
    = [(188, 0, 183), (188, 183, 0), (188, 184, 0), (188, 255, 0)] ∧
    ((nullPkt 0).getD 3 0).getLsbD 5 = false ∧ (nullPkt 0).length = 188 := by decide +kernel
theorem witness_PacketEventsAreOrdered :
    (decode (.ts (nullPkt 0))).toOption = some (.pCont (parsePacket (nullPkt 0))) ∧
    (nextState? (exec (.pCont (parsePacket (nullPkt 0))) { alone with pall := true })).isSome = true := by
  decide +kernel
theorem witness_DwriteRunsStridesInOrder : 0 < (fill 187 0x47).length ∧ (fill 187 0x47).length < 188 ∧
    (nullPkt 0).length = 188 ∧ (decode (.ts (nullPkt 0))).toOption.isSome = true := by decide +kernel
theorem witness_DwriteCompletes : roomFor 1000 alone := fun _ h => nomatch h
/-- A finite capacity at its boundary: one packet more fits, two do not. -/
theorem witness_DwriteCompletes_finite :
    roomFor 1 { alone with ctx := [(1#13, ⟨0#4, fill 2 0⟩)], cfg := { Config.default with unitCap := some 186 } } := by
  intro u h
  cases h
  decide
theorem witness_SelectorsAreIndependent :
    alone.pset = filter100.pset ∧ (nextState? (exec (.dwrite (nullPkt 0)) alone)).isSome = true ∧
    (nextState? (exec (.dwrite (nullPkt 0)) filter100)).isSome = true ∧
    filter100.fset = { filter100 with pall := true }.fset ∧ alone.fset = [] ∧ alone.fall = false ∧
    (nullPkt 0).length % 188 = 0 ∧ (parsePacket (nullPkt 0)).header.cls = .cont := by decide +kernel
theorem witness_UnitIsConcatenationOfPayloads :
    filter100.cfg.unitCap = none ∧ filtered 0x100#13 filter100 ∧
    (Instr.pStart (packetOf 0x47410010#32)).wf = true ∧ (packetOf 0x47410010#32).header.pid = 0x100#13 ∧
    (∀ k ∈ [packetOf 0x47010011#32, packetOf 0x471FFF10#32, packetOf 0x47010092#32],
      k.wf = true ∧ (k.header.cls ≠ .start ∨ k.header.pid ≠ 0x100#13)) := by decide +kernel
theorem witness_SwriteAppendsThenDrains : withinCap (some 10) (4 + 6) = true ∧ withinCap (some 10) (5 + 6) = false := by
  decide
theorem witness_SwriteCompletes : withinCap alone.cfg.accCap (alone.acc.length + 5) = true ∧
    roomFor 5 State.reset ∧ State.reset.cfg.chain = true :=
  ⟨by decide, fun _ h => (nomatch h), rfl⟩
/-- The thresholds of R102 and R106, one below and at. -/
theorem witness_DrainWaitsForData : alone.locked = false ∧
    alone.acc.length + (fill 1127 0).length < (alone.nlock.toNat + 1) * 188 ∧
    ¬ alone.acc.length + (fill 1128 0).length < (alone.nlock.toNat + 1) * 188 ∧
    ({ alone with locked := true } : State).acc.length + (fill 187 0).length < 188 := by decide +kernel
/-- DS2a's bytes. -/
theorem witness_FailedLockDiscards :
    ((1#8 : BitVec 8).toNat + 1) * 188 ≤ (fill 376 0).length ∧ findLock (fill 376 0) 1 = none := by
  refine ⟨by decide +kernel, List.find?_eq_none.2 fun o _ => ?_⟩
  simp only [probesMatch, fill, List.all_eq_true, not_forall]
  exact ⟨0, by simp, by rw [List.getElem?_replicate]; split <;> decide⟩
theorem witness_LockedStreamIsEmittedWhole :
    (∀ j < 2, (nullPkt 0 ++ nullPkt 1)[188 * j]? = some 0x47#8) ∧ 188 ≤ (nullPkt 0 ++ nullPkt 1).length ∧
    (nullPkt 0 ++ nullPkt 1).length = 376 := by decide +kernel
/-- P1's shape: three bytes of junk, then two packets. -/
theorem witness_LockAcquisitionEmits :
    findLock (fill 3 0 ++ nullPkt 0 ++ nullPkt 1) 1 = some 3 ∧
    (1 + 1) * 188 ≤ (fill 3 0 ++ nullPkt 0 ++ nullPkt 1).length := by decide +kernel
/-- DS1b gains the lock, DS6b loses it. -/
theorem witness_LockChangesOnlyOnEvidence :
    ((nextState? (exec (.swrite (nullPkt 0 ++ nullPkt 1)) { alone with nlock := 1#8 })).map (·.locked)) = some true ∧
    ((nextState? (exec (.swrite (fill 188 0)) { alone with locked := true })).map (·.locked)) = some false := by
  decide +kernel
/-- A write that completes with a discard and a run. -/
theorem witness_SwriteConservesBytes :
    eventsAfter (.swrite (fill 3 0 ++ nullPkt 0 ++ nullPkt 1)) { alone with nlock := 1#8 }
      = some [.discard 3, .run (nullPkt 0 ++ nullPkt 1)] := by decide +kernel
theorem witness_ChainedWriteInterleavesDwrites :
    (nextState? (exec (.swrite (nullPkt 0 ++ nullPkt 1))
      { State.reset with nlock := 1#8, cfg := { State.reset.cfg with chain := false }, events := [] })).isSome = true ∧
    State.reset.cfg.chain = true := by decide +kernel
/-- DS1's cut: both writes complete, and the whole does. -/
theorem witness_CuttingAChunkNeverDisagrees :
    ((nextState? (exec (.swrite ((nullPkt 0 ++ nullPkt 1).take 375)) { alone with nlock := 1#8 })).bind fun u =>
      nextState? (exec (.swrite ((nullPkt 0 ++ nullPkt 1).drop 375)) u)).isSome = true ∧
    (nextState? (exec (.swrite ((nullPkt 0 ++ nullPkt 1).take 375 ++ (nullPkt 0 ++ nullPkt 1).drop 375))
      { alone with nlock := 1#8 })).isSome = true := by decide +kernel
theorem witness_ElementsAreWrittenOnlyByTheirOperations :
    (nextState? (exec (.addf 1#13) alone)).isSome = true ∧ Instr.writesSync (.addf 1#13) = false ∧
    Instr.writesFset (.addp 1#13) = false ∧ Instr.writesCtx false (.swrite []) = false := by decide
theorem witness_ContextLifecycle :
    tableGet 0x100#13 filter100.ctx = none ∧
    ((nextState? (exec (.pStart (packetOf 0x47410010#32)) filter100)).map fun t => (tableGet 0x100#13 t.ctx).isSome)
      = some true ∧
    ((nextState? (exec (.rmf 5#13) { alone with ctx := [(5#13, ⟨0#4, []⟩)] })).map fun t => (tableGet 5#13 t.ctx).isSome)
      = some false := by decide +kernel
/-- A context appears by a start among a DWRITE's strides, and by one in a run of a chained SWRITE (stride 1 of
each). -/
theorem witness_ContextLifecycle_strides :
    ((nextState? (exec (.dwrite (nullPkt 0 ++ startPkt)) filter100)).map fun t => (tableGet 0x100#13 t.ctx).isSome)
      = some true ∧
    ((nextState? (exec (.swrite (nullPkt 0 ++ startPkt))
        { filter100 with locked := true, cfg := Config.default })).map fun t =>
      ((tableGet 0x100#13 t.ctx).isSome, t.events)) = some (true, [.run (nullPkt 0 ++ startPkt)]) ∧
    (parsePacket (((nullPkt 0 ++ startPkt).drop 188).take 188)).header.cls = .start ∧
    (parsePacket (((nullPkt 0 ++ startPkt).drop 188).take 188)).header.pid = 0x100#13 := by decide +kernel
theorem witness_EmittedEventsHaveTheirShape : Instr.wf (.dwrite (nullPkt 0)) = true ∧
    (eventsAfter (.dwrite (nullPkt 0)) { alone with pall := true }) = some [.raw 0x1FFF#13 (nullPkt 0)] := by
  decide +kernel
theorem witness_Invariant : State.reset.Inv := by decide
/-- An idle state that is not reset's, in a build with finite capacities that R7 allows, from which a step emits. -/
def busy : State := { State.reset with
  locked := true
  acc := (nullPkt 0).take 187
  ctx := [(1#13, ⟨2#4, [3#8]⟩), (9#13, ⟨0#4, []⟩)]
  wires := [Edge.ofBeat ⟨0xFF#8, true, false⟩]
  cfg := ⟨true, some 48128, some 1000, some 16⟩ }
theorem witness_StepKeepsIdleInvariant : busy.Inv ∧ busy.cfg.wf = true ∧
    ((nextState? (step busy)).map (·.events)) = some [.run (nullPkt 0)] := by decide +kernel
theorem witness_NoStepFaults :
    refusal? (step { busy with cfg := ⟨true, some 187, none, none⟩ }) = some .accOverflow ∧
    refusal? (exec (.pStart (packetOf 0x47410010#32))
      { filter100 with cfg := ⟨false, none, some 183, none⟩ }) = some .unitOverflow := by decide +kernel
/-- A unit overflows at the first stride of a DWRITE: 184 bytes where 183 fit. -/
theorem witness_NoStepFaults_dwrite :
    refusal? (step ({ filter100 with cfg := ⟨false, none, some 183, none⟩ }.offerChunk true startPkt))
      = some .unitOverflow ∧
    dwriteOverflows startPkt { filter100 with cfg := ⟨false, none, some 183, none⟩ } := by
  refine ⟨by decide +kernel, 0, _, by decide +kernel, rfl, by decide +kernel, 183, rfl, .inl ?_⟩
  decide +kernel
/-- A chained write whose one run overflows a unit of 183 bytes. -/
def overflowing : State := { filter100 with locked := true, cfg := ⟨true, none, some 183, none⟩ }
/-- The same in a run of a chained SWRITE. -/
theorem witness_NoStepFaults_chained :
    refusal? (step (overflowing.offerChunk false startPkt)) = some .unitOverflow := by decide +kernel
theorem witness_swriteOverflows : swriteOverflows startPkt overflowing := by
  have h : nextState? (exec (.swrite startPkt)
      { overflowing with cfg := { overflowing.cfg with chain := false }, events := [] })
      = some { overflowing with cfg := { overflowing.cfg with chain := false }, events := [.run startPkt] } := by
    decide +kernel
  refine ⟨rfl, _, [], startPkt, [], _, nextState?_eq_some h, rfl, rfl, 0, _, by decide +kernel, rfl,
    by decide +kernel, 183, rfl, .inl ?_⟩
  decide +kernel
theorem witness_PortSignals :
    (waitingOutputs none ⟨false, none, some ⟨1#8, true, false⟩⟩).inReady = true ∧
    (waitingOutputs none ⟨false, some 0x02100#17, none⟩).cmdReady = true ∧
    (waitingOutputs (some ⟨true, [1#8]⟩) ⟨false, some 0x02100#17, none⟩).cmdReady = false := by decide

end Sys2Proof.Tests
end

section
/-! SUPPORT. What the ports and the command decoder can hand to a step, and the proof that a step runs the decoded
instruction (R8, R92). -/

namespace Sys2Proof.Machine

/-! ### The operations that the ports complete -/

/-- A beat completes a `DATA` operation or none. -/
theorem takeBeat_ne_ts (c : Option PartChunk) (b : InBeat) (bytes : List Byte) :
    (takeBeat c b).1 ≠ some (.ts bytes) := by
  unfold takeBeat
  cases b.last <;> simp

/-- One edge completes no packet class (R80: no port takes one). -/
theorem portEdge_ne_ts (c : Option PartChunk) (e : Edge) (bytes : List Byte) :
    (portEdge c e).1 ≠ some (.ts bytes) := by
  unfold portEdge
  split
  · simp
  · split
    · cases e.cmd <;> simp
    · split
      · split
        · exact takeBeat_ne_ts c _ bytes
        · simp
      · simp

/-- The ports never complete a packet class. -/
theorem nextOp_ne_ts (c : Option PartChunk) (es : List Edge) (bytes : List Byte) :
    (nextOp c es).1 ≠ some (.ts bytes) := by
  induction es generalizing c with
  | nil => simp [nextOp]
  | cons e es ih =>
    have he := portEdge_ne_ts c e bytes
    unfold nextOp
    split
    next w c' hw => simpa [hw] using he
    next c' hw => exact ih c'

/-! ### The step -/

/-- A step at which the ports complete no operation waits. -/
theorem step_of_wait {s : State} (h : (nextOp s.part s.wires).1 = none) : step s = .next s.afterPorts := by
  simp [step, h]

/-- A step at which the ports complete a word that decodes runs its instruction. -/
theorem step_of_decode {s : State} {w : OpWord} {i : Instr} (h : (nextOp s.part s.wires).1 = some w)
    (hd : decode w = .ok i) : step s = exec i s.afterPorts := by
  simp [step, h, hd]

/-- Everything a step that answers a next state can be: a wait, or an operation that decoded and ran. -/
theorem step_eq_next {s t : State} (h : step s = .next t) :
    ((nextOp s.part s.wires).1 = none ∧ t = s.afterPorts) ∨
    (∃ w i, (nextOp s.part s.wires).1 = some w ∧ decode w = .ok i ∧ exec i s.afterPorts = .next t) := by
  cases hw : (nextOp s.part s.wires).1 with
  | none =>
    rw [step_of_wait hw] at h
    cases h
    exact .inl ⟨rfl, rfl⟩
  | some w =>
    right
    cases hd : decode w with
    | ok i => exact ⟨w, i, rfl, hd, by rwa [step_of_decode hw hd] at h⟩
    | error r => simp [step, hw, hd] at h

/-- Settles O8: the two clauses are the step's equations where an operation is completed and where none is. -/
theorem stepRunsDecodedInstruction : Obligations.StepRunsDecodedInstruction :=
  ⟨fun _ _ _ hw hd => step_of_decode hw hd, fun _ hw => step_of_wait hw⟩

/-! ### Command words -/

/-- A command word that decodes is one of the seven configuration operations (R73). -/
theorem decodeCmd_eq_ok {w : BitVec 17} {i : Instr} (h : decodeCmd w = .ok i) :
    (∃ p, i = .addf p) ∨ (∃ p, i = .rmf p) ∨ (∃ p, i = .addp p) ∨ (∃ p, i = .rmp p) ∨
    (∃ b, i = .setfall b) ∨ (∃ b, i = .setpall b) ∨ (∃ n, i = .setn n) := by
  unfold decodeCmd at h
  split at h
  · cases h; simp
  · cases h; simp
  · cases h; simp
  · cases h; simp
  · cases hb : flagOperand (cmdArg w) <;> rw [hb] at h <;> cases h
    simp
  · cases hb : flagOperand (cmdArg w) <;> rw [hb] at h <;> cases h
    simp
  · cases hn : thresholdOperand (cmdArg w) <;> rw [hn] at h <;> cases h
    simp
  · cases h

/-- No configuration operation emits an event (R170 to R175, R111). -/
theorem exec_events_of_decodeCmd {w : BitVec 17} {i : Instr} {s t : State} (hd : decodeCmd w = .ok i)
    (h : exec i s = .next t) : t.events = s.events := by
  rcases decodeCmd_eq_ok hd with ⟨p, rfl⟩ | ⟨p, rfl⟩ | ⟨p, rfl⟩ | ⟨p, rfl⟩ | ⟨b, rfl⟩ | ⟨b, rfl⟩ | ⟨n, rfl⟩
  · cases h; rfl
  · cases h; rfl
  · cases h; rfl
  · cases h; rfl
  · cases h; rfl
  · cases h; rfl
  · change execSetn n s = .next t at h
    unfold execSetn at h
    split at h <;> cases h
    rfl

/-! ### Packets read from bytes -/

/-- The packet read from a whole stride has the stride's 188 bytes (R70). -/
theorem parsePacket_bytes_length {b : List Byte} (h : b.length = 188) : (parsePacket b).bytes.length = 188 := by
  simp [parsePacket, Packet.bytes, Header.bytes, h]

end Sys2Proof.Machine
end

section
/-! SUPPORT. Every count fits its field (R7, U16): an invariant that the machine keeps inside an operation, from one
event to the next, read off at the end of the step. -/

namespace Sys2Proof.Machine

/-! ### Capacities and the count field -/

/-- What is within a capacity stays so when it shrinks. -/
theorem withinCap_mono {cap : Option Nat} {m n : Nat} (hmn : m ≤ n) (h : withinCap cap n = true) :
    withinCap cap m = true := by
  cases cap with
  | none => rfl
  | some c => simp only [withinCap, decide_eq_true_eq] at h ⊢; omega

/-- A count field that holds a number holds every smaller one. -/
theorem countFits_mono {w : Option Nat} {m n : Nat} (hmn : m ≤ n) (h : countFits w n = true) :
    countFits w m = true := by
  cases w with
  | none => rfl
  | some b => simp only [countFits, decide_eq_true_eq] at h ⊢; omega

/-- A build as R7 demands, both of whose capacities are finite. -/
structure FiniteBuild (c : Config) : Prop where
  wf : c.wf = true
  accCap : c.accCap ≠ none
  unitCap : c.unitCap ≠ none

/-- What R7 demands of a finite `ACC_CAP`. -/
theorem FiniteBuild.exists_accCap {c : Config} (hc : FiniteBuild c) :
    ∃ a, c.accCap = some a ∧ 48128 ≤ a ∧ countFits c.countW a = true := by
  obtain ⟨a, ha⟩ := Option.ne_none_iff_exists'.1 hc.accCap
  have hwf := hc.wf
  simp only [Config.wf, ha, Bool.and_eq_true, decide_eq_true_eq] at hwf
  exact ⟨a, ha, hwf.1⟩

/-- What R7 demands of a finite `UNIT_CAP`. -/
theorem FiniteBuild.exists_unitCap {c : Config} (hc : FiniteBuild c) :
    ∃ u, c.unitCap = some u ∧ countFits c.countW u = true := by
  obtain ⟨u, hu⟩ := Option.ne_none_iff_exists'.1 hc.unitCap
  have hwf := hc.wf
  simp only [Config.wf, hu, Bool.and_eq_true] at hwf
  exact ⟨u, hu, hwf.2⟩

/-- What the accumulator can hold, the count field can count. -/
theorem FiniteBuild.countFits_of_accCap {c : Config} (hc : FiniteBuild c) {n : Nat}
    (h : withinCap c.accCap n = true) : countFits c.countW n = true := by
  obtain ⟨a, ha, -, hfit⟩ := hc.exists_accCap
  rw [ha] at h
  exact countFits_mono (of_decide_eq_true h) hfit

/-- What a reassembly buffer can hold, the count field can count. -/
theorem FiniteBuild.countFits_of_unitCap {c : Config} (hc : FiniteBuild c) {n : Nat}
    (h : withinCap c.unitCap n = true) : countFits c.countW n = true := by
  obtain ⟨u, hu, hfit⟩ := hc.exists_unitCap
  rw [hu] at h
  exact countFits_mono (of_decide_eq_true h) hfit

/-- The count field can count a packet's bytes: R7's bound on `ACC_CAP` is above 188. -/
theorem FiniteBuild.countFits_packet {c : Config} (hc : FiniteBuild c) : countFits c.countW 188 = true := by
  obtain ⟨a, -, ha, hfit⟩ := hc.exists_accCap
  exact countFits_mono (by omega) hfit

/-- Every count field holds 0. -/
theorem countFits_zero (w : Option Nat) : countFits w 0 = true := by
  cases w <;> simp [countFits]

/-! ### The invariant inside an operation -/

/-- Inside an operation that began in `start`: the build is the same and finite, the accumulator and the units are
within their capacities, and every event emitted so far has a count that fits. -/
structure CountsFitSince (start s : State) : Prop where
  sameBuild : s.cfg = start.cfg
  build : FiniteBuild s.cfg
  acc : withinCap s.cfg.accCap s.acc.length = true
  units : ∀ e ∈ s.ctx, withinCap s.cfg.unitCap e.2.buf.length = true
  emitted : ∃ es, s.events = start.events ++ es ∧ ∀ e ∈ es, countFits s.cfg.countW e.count = true

/-- The operation keeps `CountsFitSince`, whenever it answers a next state. -/
def KeepsCounts (start : State) (f : State → Out) : Prop :=
  ∀ s t, CountsFitSince start s → f s = .next t → CountsFitSince start t

variable {start s : State}

namespace CountsFitSince

theorem addEvents (h : CountsFitSince start s) {es : List Event}
    (hes : ∀ e ∈ es, countFits s.cfg.countW e.count = true) : CountsFitSince start (s.addEvents es) := by
  obtain ⟨hcfg, hb, ha, hu, ds, hds, hfit⟩ := h
  refine ⟨hcfg, hb, ha, hu, ds ++ es, by simp [hds], fun e he => ?_⟩
  rcases List.mem_append.1 he with he | he
  · exact hfit e he
  · exact hes e he

theorem emit (h : CountsFitSince start s) {e : Event} (he : countFits s.cfg.countW e.count = true) :
    CountsFitSince start (emit e s) :=
  h.addEvents (es := [e]) (by simpa using he)

theorem raiseError (h : CountsFitSince start s) (k : ErrKind) (pid : Pid) :
    CountsFitSince start (raiseError k pid s) :=
  h.emit (countFits_zero _)

theorem setLocked (h : CountsFitSince start s) (b : Bool) : CountsFitSince start (setLocked b s) :=
  ⟨h.sameBuild, h.build, h.acc, h.units, h.emitted⟩

theorem accDrop (h : CountsFitSince start s) (n : Nat) : CountsFitSince start (accDrop n s) :=
  ⟨h.sameBuild, h.build, withinCap_mono (by simp) h.acc, h.units, h.emitted⟩

theorem accAppend (h : CountsFitSince start s) {chunk : List Byte}
    (hc : withinCap s.cfg.accCap (s.acc.length + chunk.length) = true) :
    CountsFitSince start (accAppend chunk s) :=
  ⟨h.sameBuild, h.build, by simpa using hc, h.units, h.emitted⟩

theorem ctxPut (h : CountsFitSince start s) {pid : Pid} {c : Ctx}
    (hc : withinCap s.cfg.unitCap c.buf.length = true) : CountsFitSince start (ctxPut pid c s) := by
  refine ⟨h.sameBuild, h.build, h.acc, fun e he => ?_, h.emitted⟩
  rcases mem_tablePut he with rfl | he
  · exact hc
  · exact h.units e he

/-- No more bytes than the accumulator holds are too many to count. -/
theorem countFits_of_le_acc (h : CountsFitSince start s) {n : Nat} (hn : n ≤ s.acc.length) :
    countFits s.cfg.countW n = true :=
  h.build.countFits_of_accCap (withinCap_mono hn h.acc)

/-- A unit in progress has a length that can be counted. -/
theorem countFits_unit (h : CountsFitSince start s) {pid : Pid} {c : Ctx} (hc : tableGet pid s.ctx = some c) :
    countFits s.cfg.countW c.buf.length = true :=
  h.build.countFits_of_unitCap (h.units _ (mem_of_tableGet hc))

end CountsFitSince

theorem KeepsCounts.andThen {f g : State → Out} (hf : KeepsCounts start f) (hg : KeepsCounts start g) :
    KeepsCounts start fun s => andThen (f s) g := by
  intro s t hs h
  obtain ⟨u, hu, ht⟩ := andThen_eq_next h
  exact hg u t (hf s u hs hu) ht

/-! ### The demultiplexer -/

/-- The raw event of a whole packet counts 188 bytes. -/
theorem FiniteBuild.countFits_rawEvents {p : Packet} (hc : FiniteBuild s.cfg) (hp : p.bytes.length = 188) :
    ∀ e ∈ rawEvents p s, countFits s.cfg.countW e.count = true := by
  intro e he
  unfold rawEvents at he
  split at he
  · obtain rfl := List.mem_singleton.1 he
    simpa [Event.count, hp] using hc.countFits_packet
  · simp at he

theorem execPacket_keepsCounts {p : Packet} (hp : p.bytes.length = 188) : KeepsCounts start (execPacket p) := by
  intro s t hs h
  have hraw := hs.build.countFits_rawEvents hp
  rcases execPacket_eq_next h with ⟨raw, rest, rfl, hr, he⟩ | ⟨c, rest, rfl, -, hcap, hcase⟩
  · refine hs.addEvents fun e hmem => ?_
    rcases List.mem_append.1 hmem with hmem | hmem
    · rcases hr with rfl | rfl
      · simp at hmem
      · exact hraw e hmem
    · rcases he with rfl | ⟨k, q, rfl, -⟩
      · simp at hmem
      · obtain rfl := List.mem_singleton.1 hmem
        exact countFits_zero _
  · have hrest : ∀ e ∈ rest, countFits s.cfg.countW e.count = true := by
      intro e hmem
      rcases hcase with ⟨-, -, rfl⟩ | ⟨-, o, -, -, rfl⟩
      · split at hmem
        next o ho =>
          obtain rfl := List.mem_singleton.1 hmem
          exact hs.countFits_unit ho
        next => simp at hmem
      · split at hmem
        · simp at hmem
        · obtain rfl := List.mem_singleton.1 hmem
          exact countFits_zero _
    exact ((hs.addEvents hraw).addEvents hrest).ctxPut hcap

theorem runStrides_keepsCounts {ps : List (List Byte)} (hps : ∀ p ∈ ps, p.length = 188) :
    KeepsCounts start (runStrides ps) := by
  induction ps with
  | nil => intro s t hs h; cases h; exact hs
  | cons p ps ih =>
    obtain ⟨hp, hps⟩ := List.forall_mem_cons.1 hps
    exact (execPacket_keepsCounts (parsePacket_bytes_length hp)).andThen (ih hps)

theorem demuxWrite_keepsCounts (b : List Byte) : KeepsCounts start (demuxWrite b) := by
  have hps : ∀ p ∈ strides (b.length / 188) b, p.length = 188 :=
    fun p => length_of_mem_strides (Nat.mul_div_le _ _)
  refine (runStrides_keepsCounts hps).andThen fun s t hs h => ?_
  cases h
  unfold lengthCheck
  split
  · exact hs
  · exact hs.raiseError _ _

/-! ### The synchronizer -/

/-- Step 1 of a drain pass discards no more than the accumulator holds. -/
theorem CountsFitSince.hunt (hs : CountsFitSince start s) : CountsFitSince start (hunt s).1 := by
  rcases hunt_cases s with ⟨-, he⟩ | ⟨-, -, he⟩ | ⟨-, -, -, he⟩ | ⟨o, -, -, ho, he⟩
  · simpa [he] using hs
  · simpa [he] using hs
  · rw [he]
    exact (hs.accDrop _).emit (hs.countFits_of_le_acc (Nat.sub_le _ _))
  · have hle : o ≤ s.acc.length := by
      have := (findLock_some ho).2
      omega
    rw [he]
    refine ((hs.accDrop o).setLocked true).addEvents fun e hmem => ?_
    split at hmem
    · simp at hmem
    · obtain rfl := List.mem_singleton.1 hmem
      exact hs.countFits_of_le_acc hle

/-- A run is a part of what the accumulator held. -/
theorem emitRun_keepsCounts (ptr : Nat) : KeepsCounts start (emitRun ptr) := by
  intro s t hs h
  have hrun : CountsFitSince start (emit (.run (s.acc.take ptr)) (accDrop ptr s)) :=
    (hs.accDrop ptr).emit (hs.countFits_of_le_acc (List.length_take_le' ptr s.acc))
  unfold emitRun at h
  split at h
  · cases h; exact hs
  · dsimp only at h
    split at h
    · exact demuxWrite_keepsCounts _ _ _ hrun h
    · cases h; exact hrun

theorem drainBody_keepsCounts {again : State → Out} (hagain : KeepsCounts start again) :
    KeepsCounts start (drainBody again) := by
  intro s t hs h
  have hhunt := hs.hunt
  unfold drainBody at h
  split at h
  next s1 he =>
    cases h
    simpa [he] using hhunt
  next s1 he =>
    replace hhunt : CountsFitSince start s1 := by simpa [he] using hhunt
    split at h
    · cases h; exact hhunt
    · obtain ⟨u, hu, h⟩ := andThen_eq_next h
      have hrun := emitRun_keepsCounts _ _ _ (hhunt.setLocked _) hu
      split at h
      · cases h; exact hrun
      · exact hagain _ _ hrun h

theorem drainLoop_keepsCounts (n : Nat) : KeepsCounts start (drainLoop n) := by
  induction n with
  | zero => intro s t _ h; cases h
  | succ n ih => exact drainBody_keepsCounts ih

theorem execSwrite_keepsCounts (chunk : List Byte) : KeepsCounts start (execSwrite chunk) := by
  intro s t hs h
  unfold execSwrite at h
  split at h
  next hcap => exact drainLoop_keepsCounts _ _ _ (hs.accAppend hcap) h
  next => cases h

/-! ### The step -/

/-- Where an operation starts nothing has been emitted, so the idle invariant is enough. -/
theorem State.Inv.countsFitSince (hinv : s.Inv) (hb : FiniteBuild s.cfg) : CountsFitSince s s.afterPorts := by
  obtain ⟨-, -, -, -, -, -, hacc, hunits, -⟩ := hinv
  exact ⟨rfl, hb, hacc, hunits, [], by simp, by simp⟩

/-- An operation that delivered no event has no count to fit. -/
theorem countFits_newEvents_of_events_eq {t : State} (h : t.events = s.events) :
    ∀ e ∈ newEvents s t, countFits s.cfg.countW e.count = true := by
  simp [newEvents, h]

/-- The events of a whole operation are those emitted since its start. -/
theorem CountsFitSince.countFits_newEvents {t : State} (h : CountsFitSince s t) :
    ∀ e ∈ newEvents s t, countFits s.cfg.countW e.count = true := by
  obtain ⟨hcfg, -, -, -, es, hes, hfit⟩ := h
  rw [hcfg] at hfit
  simpa [newEvents, hes] using hfit

/-- Settles O60: a write keeps the invariant `CountsFitSince` from the step's start to its end, every other operation
that the ports complete emits nothing, and so does a wait. -/
theorem countsFitTheirField : Obligations.CountsFitTheirField := by
  intro s t hinv hwf hacc hunit h
  have hstart := hinv.countsFitSince ⟨hwf, hacc, hunit⟩
  rcases step_eq_next h with ⟨-, rfl⟩ | ⟨w, i, hw, hd, hi⟩
  · exact countFits_newEvents_of_events_eq rfl
  · cases w with
    | data inDest chunk =>
      cases inDest <;> cases hd
      · exact (execSwrite_keepsCounts chunk _ _ hstart hi).countFits_newEvents
      · exact (demuxWrite_keepsCounts chunk _ _ hstart hi).countFits_newEvents
    | cmd word =>
      have hevents := exec_events_of_decodeCmd hd hi
      exact countFits_newEvents_of_events_eq hevents
    | pin =>
      cases hd
      cases hi
      exact countFits_newEvents_of_events_eq rfl
    | ts bytes => exact absurd hw (nextOp_ne_ts _ _ _)

end Sys2Proof.Machine
end

section
/-! SUPPORT. What a packet, a DWRITE and a pass of the drain write of the state, said once as relations between the
state before and the state after: the frames (R20), and what becomes of the context table (R28, R33). -/

namespace Sys2Proof.Machine

variable {s t u : State}

/-! ### Frames -/

theorem OnlyDemux.acc_eq (h : OnlyDemux s t) : t.acc = s.acc := by rw [h.frame]
theorem OnlyDemux.locked_eq (h : OnlyDemux s t) : t.locked = s.locked := by rw [h.frame]
theorem OnlyDemux.cfg_eq (h : OnlyDemux s t) : t.cfg = s.cfg := by rw [h.frame]

theorem OnlyDemux.addEvents (s : State) (es : List Event) : OnlyDemux s (s.addEvents es) :=
  ⟨rfl, List.prefix_append _ _⟩

theorem OnlyDemux.ctxPut (s : State) (pid : Pid) (c : Ctx) : OnlyDemux s (ctxPut pid c s) :=
  ⟨rfl, List.prefix_refl _⟩

/-- `t` differs from `s` in what an SWRITE may write only: bytes leave the front of the accumulator, the lock and
the contexts change, events are appended. -/
structure OnlySwrite (s t : State) : Prop where
  frame : t = { s with acc := t.acc, locked := t.locked, ctx := t.ctx, events := t.events }
  appended : s.events <+: t.events
  accSuffix : t.acc <:+ s.acc

namespace OnlySwrite

theorem trans (h : OnlySwrite s t) (k : OnlySwrite t u) : OnlySwrite s u := by
  obtain ⟨hf, he, ha⟩ := h
  obtain ⟨kf, ke, ka⟩ := k
  refine ⟨?_, he.trans ke, ka.trans ha⟩
  rw [kf, hf]

theorem of_onlyDemux (h : OnlyDemux s t) : OnlySwrite s t := by
  refine ⟨?_, h.appended, h.acc_eq ▸ List.suffix_refl _⟩
  rw [h.frame]

theorem addEvents (s : State) (es : List Event) : OnlySwrite s (s.addEvents es) :=
  of_onlyDemux (.addEvents s es)

theorem accDrop (s : State) (n : Nat) : OnlySwrite s (accDrop n s) :=
  ⟨rfl, List.prefix_refl _, List.drop_suffix _ _⟩

theorem setLocked (s : State) (b : Bool) : OnlySwrite s (setLocked b s) :=
  ⟨rfl, List.prefix_refl _, List.suffix_refl _⟩

theorem nlock_eq (h : OnlySwrite s t) : t.nlock = s.nlock := by rw [h.frame]
theorem pset_eq (h : OnlySwrite s t) : t.pset = s.pset := by rw [h.frame]
theorem pall_eq (h : OnlySwrite s t) : t.pall = s.pall := by rw [h.frame]
theorem fset_eq (h : OnlySwrite s t) : t.fset = s.fset := by rw [h.frame]
theorem fall_eq (h : OnlySwrite s t) : t.fall = s.fall := by rw [h.frame]
theorem part_eq (h : OnlySwrite s t) : t.part = s.part := by rw [h.frame]
theorem cfg_eq (h : OnlySwrite s t) : t.cfg = s.cfg := by rw [h.frame]

end OnlySwrite

/-! ### What becomes of the context table -/

/-- The context table is canonical, and every unit in progress is within the capacity of the build. -/
def TableOk (s : State) : Prop :=
  tableRising s.ctx ∧ ∀ e ∈ s.ctx, withinCap s.cfg.unitCap e.2.buf.length = true

/-- From `s` to `t` no context disappears, only PIDs that satisfy `new` get one, and the table stays as it
should be. -/
structure CtxGrows (new : Pid → Prop) (s t : State) : Prop where
  kept : ∀ pid, tableGet pid s.ctx ≠ none → tableGet pid t.ctx ≠ none
  created : ∀ pid, tableGet pid s.ctx = none → tableGet pid t.ctx ≠ none → new pid
  table : TableOk s → TableOk t

namespace CtxGrows

variable {new new' : Pid → Prop}

theorem of_ctx_eq (hctx : t.ctx = s.ctx) (hcfg : t.cfg = s.cfg) : CtxGrows new s t := by
  refine ⟨fun pid => ?_, fun pid hs ht => ?_, fun h => ?_⟩
  · rw [hctx]; exact id
  · rw [hctx] at ht; exact absurd hs ht
  · unfold TableOk; rw [hctx, hcfg]; exact h

/-- Writing one context within the capacity, of a PID that has one or that may get one. -/
theorem of_ctx_put {pid : Pid} {c : Ctx} (hctx : t.ctx = tablePut pid c s.ctx) (hcfg : t.cfg = s.cfg)
    (hcap : withinCap s.cfg.unitCap c.buf.length = true) (hnew : tableGet pid s.ctx = none → new pid) :
    CtxGrows new s t := by
  refine ⟨fun q hq => ?_, fun q hs ht => ?_, fun ⟨hr, hc⟩ => ⟨?_, fun e he => ?_⟩⟩
  · rw [hctx, tableGet_put]
    split
    · simp
    · exact hq
  · rw [hctx, tableGet_put] at ht
    split at ht
    next hqp => exact hqp ▸ hnew (hqp ▸ hs)
    next => exact absurd hs ht
  · rw [hctx]; exact tablePut_rising _ _ hr
  · rw [hcfg]
    rcases mem_tablePut (hctx ▸ he) with rfl | he
    · exact hcap
    · exact hc e he

theorem trans (h : CtxGrows new s t) (k : CtxGrows new t u) : CtxGrows new s u := by
  refine ⟨fun pid => k.kept pid ∘ h.kept pid, fun pid hs hu => ?_, k.table ∘ h.table⟩
  by_cases ht : tableGet pid t.ctx = none
  · exact k.created pid ht hu
  · exact h.created pid hs ht

theorem mono (h : CtxGrows new s t) (hnew : ∀ pid, new pid → new' pid) : CtxGrows new' s t :=
  ⟨h.kept, fun pid hs ht => hnew pid (h.created pid hs ht), h.table⟩

end CtxGrows

/-! ### The packet classes -/

theorem addEvents_addEvents (s : State) (es fs : List Event) :
    (s.addEvents es).addEvents fs = s.addEvents (es ++ fs) := by
  simp [State.addEvents]

theorem raiseError_eq (k : ErrKind) (pid : Pid) (s : State) :
    raiseError k pid s = s.addEvents [.err k (if k.carriesPid then some pid else none)] := rfl

/-- A scrambled packet appends events and does nothing else. -/
theorem scrambledPacket_eq (p : Packet) (s : State) : ∃ es, scrambledPacket p s = s.addEvents es := by
  unfold scrambledPacket
  split
  · exact ⟨_, by rw [raiseError_eq, passthrough_eq, addEvents_addEvents]⟩
  · exact ⟨_, passthrough_eq p s⟩

/-- A packet run as one of any class, its own or not: it appends events, and writes its PID's context, if it writes
one, as a start packet does or as a continuation of a context that exists. -/
theorem exec_classInstr_eq_next {k : PacketClass} {p : Packet} (h : exec (k.instr p) s = .next t) :
    OnlyDemux s t ∧
    (t.ctx = s.ctx ∨
      ∃ c, t.ctx = tablePut p.header.pid c s.ctx ∧ withinCap s.cfg.unitCap c.buf.length = true ∧
        (k = .start ∨ k = .cont ∧ tableGet p.header.pid s.ctx ≠ none)) := by
  have appends : ∀ es, t = s.addEvents es → OnlyDemux s t ∧ t.ctx = s.ctx := by
    rintro es rfl
    exact ⟨.addEvents s es, rfl⟩
  have puts : ∀ es cc buf pl, appendUnit p.header.pid cc buf pl (s.addEvents es) = .next t →
      OnlyDemux s t ∧ ∃ c, t.ctx = tablePut p.header.pid c s.ctx ∧
        withinCap s.cfg.unitCap c.buf.length = true := by
    intro es cc buf pl h
    obtain ⟨rfl, hw⟩ := appendUnit_eq_next h
    exact ⟨(OnlyDemux.addEvents s es).trans (.ctxPut _ _ _), _, rfl, hw⟩
  cases k with
  | badsync => cases h; exact (appends _ rfl).imp_right .inl
  | tei => cases h; exact (appends _ rfl).imp_right .inl
  | scrHi =>
    cases h
    obtain ⟨es, he⟩ := scrambledPacket_eq p s
    exact (appends es he).imp_right .inl
  | scrLo =>
    cases h
    obtain ⟨es, he⟩ := scrambledPacket_eq p s
    exact (appends es he).imp_right .inl
  | nopl => cases h; exact (appends _ (passthrough_eq p s)).imp_right .inl
  | start =>
    change execPStart p s = .next t at h
    simp only [execPStart, passthrough_eq, emitUnit_eq, addEvents_addEvents] at h
    split at h
    · obtain ⟨hf, c, hctx, hcap⟩ := puts _ _ _ _ h
      exact ⟨hf, .inr ⟨c, hctx, hcap, .inl rfl⟩⟩
    · cases h; exact (appends _ rfl).imp_right .inl
  | cont =>
    change execPCont p s = .next t at h
    simp only [execPCont, passthrough_eq, raiseError_eq, addEvents_addEvents, ctxGet, ← apply_ite] at h
    split at h
    · split at h
      next => cases h; exact (appends _ rfl).imp_right .inl
      next c hc =>
        obtain ⟨hf, c, hctx, hcap⟩ := puts _ _ _ _ h
        exact ⟨hf, .inr ⟨c, hctx, hcap, .inr ⟨rfl, by simp [hc]⟩⟩⟩
    · cases h; exact (appends _ rfl).imp_right .inl

/-- Only a start packet creates a context, its PID's (R28, R153). -/
theorem exec_classInstr_ctxGrows {k : PacketClass} {p : Packet} (h : exec (k.instr p) s = .next t) :
    CtxGrows (fun pid => k = .start ∧ p.header.pid = pid) s t := by
  obtain ⟨hf, hctx | ⟨c, hctx, hcap, hk⟩⟩ := exec_classInstr_eq_next h
  · exact .of_ctx_eq hctx hf.cfg_eq
  · refine .of_ctx_put hctx hf.cfg_eq hcap fun hnone => ?_
    rcases hk with hk | ⟨-, hsome⟩
    · exact ⟨hk, rfl⟩
    · exact absurd hnone hsome

/-- The packet procedure runs the instruction of the packet's class (R80, R131). -/
theorem execPacket_eq_exec (p : Packet) (s : State) : execPacket p s = exec (p.header.cls.instr p) s := by
  unfold execPacket
  cases p.header.cls <;> rfl

/-! ### DWRITE -/

/-- Stride `k` of a chunk lies at byte `188*k` (R54). -/
theorem mem_strides {n : Nat} {b p : List Byte} (h : p ∈ strides n b) :
    ∃ k < n, p = (b.drop (188 * k)).take 188 := by
  induction n generalizing b with
  | zero => simp [strides] at h
  | succ n ih =>
    rcases List.mem_cons.1 h with rfl | h
    · exact ⟨0, by omega, by simp⟩
    · obtain ⟨k, hk, rfl⟩ := ih h
      exact ⟨k + 1, by omega, by rw [List.drop_drop, Nat.mul_succ, Nat.add_comm]⟩

theorem runStrides_ctxGrows {ps : List (List Byte)} (h : runStrides ps s = .next t) :
    CtxGrows (fun pid => ∃ p ∈ ps, (parsePacket p).header.cls = .start ∧ (parsePacket p).header.pid = pid) s t := by
  induction ps generalizing s with
  | nil => cases h; exact .of_ctx_eq rfl rfl
  | cons p ps ih =>
    obtain ⟨u, hu, h⟩ := andThen_eq_next h
    rw [execPacket_eq_exec] at hu
    refine ((exec_classInstr_ctxGrows hu).mono fun pid hp => ?_).trans ((ih h).mono fun pid hps => ?_)
    · exact ⟨p, List.mem_cons_self, hp⟩
    · obtain ⟨q, hq, hstart⟩ := hps
      exact ⟨q, List.mem_cons_of_mem _ hq, hstart⟩

/-- A payload-unit-start packet of the PID is among the strides of the chunk. -/
def StartsUnit (pid : Pid) (b : List Byte) : Prop :=
  ∃ k, 188 * k + 188 ≤ b.length ∧ (parsePacket ((b.drop (188 * k)).take 188)).header.cls = .start ∧
    (parsePacket ((b.drop (188 * k)).take 188)).header.pid = pid

/-- A DWRITE creates contexts only for the start packets among its strides (R28, R130). -/
theorem demuxWrite_ctxGrows {b : List Byte} (h : demuxWrite b s = .next t) :
    CtxGrows (StartsUnit · b) s t := by
  obtain ⟨u, hu, h⟩ := andThen_eq_next h
  have hcheck : CtxGrows (StartsUnit · b) u (lengthCheck b u) := by
    unfold lengthCheck
    split <;> exact .of_ctx_eq rfl rfl
  cases h
  refine .trans ((runStrides_ctxGrows hu).mono fun pid hp => ?_) hcheck
  obtain ⟨p, hp, hstart⟩ := hp
  obtain ⟨k, hk, rfl⟩ := mem_strides hp
  exact ⟨k, by omega, hstart⟩

/-! ### The drain -/

/-- Everything a pass of the drain can do when it answers a next state: stop after step 1 or at the locked wait
(R102, R104, R106), or emit the run up to where the scan ends and go round again if the lock was lost (R107 to
R109). -/
theorem drainBody_eq_next {again : State → Out} (h : drainBody again s = .next t) :
    (t = (hunt s).1 ∧ ((hunt s).2 = true → t.acc.length < 188)) ∨
    ∃ u, (hunt s).2 = true ∧
      emitRun (scanPtr (hunt s).1.acc) (setLocked (!scanLost (hunt s).1.acc) (hunt s).1) = .next u ∧
      (u.locked = true ∧ t = u ∨ u.locked = false ∧ again u = .next t) := by
  unfold drainBody at h
  split at h
  next s1 he => cases h; exact .inl ⟨by rw [he], by simp [he]⟩
  next s1 he =>
    rw [he]
    split at h
    next hlt => cases h; exact .inl ⟨rfl, fun _ => hlt⟩
    next =>
      obtain ⟨u, hu, h⟩ := andThen_eq_next h
      refine .inr ⟨u, rfl, hu, ?_⟩
      cases hl : u.locked with
      | true => rw [if_pos hl] at h; cases h; exact .inl ⟨rfl, rfl⟩
      | false => exact .inr ⟨rfl, by simpa [hl] using h⟩

/-- Emitting a run takes the run's bytes from the accumulator and leaves the lock. -/
theorem emitRun_acc_locked {n : Nat} (h : emitRun n s = .next t) :
    t.acc = s.acc.drop n ∧ t.locked = s.locked := by
  rcases emitRun_eq_next h with ⟨rfl, rfl⟩ | ⟨-, hf, -⟩
  · exact ⟨rfl, rfl⟩
  · exact ⟨hf.acc_eq, hf.locked_eq⟩

/-- The events of a part of an operation are among those of the whole. -/
theorem mem_newEvents_of_le {s' t' : State} {e : Event} (hs : s.events <+: s'.events) (ht : t'.events <+: t.events)
    (he : e ∈ newEvents s' t') : e ∈ newEvents s t :=
  List.drop_subset_drop_left _ hs.length_le ((ht.drop _).subset he)

/-- A run that the drain emitted between the two states has a start packet of the PID, and the build chains it. -/
def RunStartsUnit (s t : State) (pid : Pid) : Prop :=
  s.cfg.chain = true ∧ ∃ d, Event.run d ∈ newEvents s t ∧ StartsUnit pid d

/-- What the drain writes: no more than an SWRITE may, and contexts only through the runs it emits, which are none
of its own with `CHAIN = 0`. -/
structure DrainWrites (s t : State) : Prop where
  onlySwrite : OnlySwrite s t
  ctxGrows : CtxGrows (RunStartsUnit s t) s t
  unchained : s.cfg.chain = false → t.ctx = s.ctx

theorem DrainWrites.of_ctx_eq (hf : OnlySwrite s t) (hctx : t.ctx = s.ctx) : DrainWrites s t :=
  ⟨hf, .of_ctx_eq hctx hf.cfg_eq, fun _ => hctx⟩

theorem DrainWrites.trans (h : DrainWrites s t) (k : DrainWrites t u) : DrainWrites s u := by
  obtain ⟨hf, hg, hc⟩ := h
  obtain ⟨kf, kg, kc⟩ := k
  refine ⟨hf.trans kf, (hg.mono ?_).trans (kg.mono ?_), fun hchain => ?_⟩
  · rintro pid ⟨hchain, d, hd, hstart⟩
    exact ⟨hchain, d, mem_newEvents_of_le (List.prefix_refl _) kf.appended hd, hstart⟩
  · rintro pid ⟨hchain, d, hd, hstart⟩
    exact ⟨hf.cfg_eq ▸ hchain, d, mem_newEvents_of_le hf.appended (List.prefix_refl _) hd, hstart⟩
  · rw [kc (by rwa [hf.cfg_eq]), hc hchain]

theorem hunt_drainWrites (s : State) : DrainWrites s (hunt s).1 := by
  rcases hunt_cases s with ⟨-, he⟩ | ⟨-, -, he⟩ | ⟨-, -, -, he⟩ | ⟨o, -, -, -, he⟩
  · rw [he]; exact .of_ctx_eq (.of_onlyDemux (.refl s)) rfl
  · rw [he]; exact .of_ctx_eq (.of_onlyDemux (.refl s)) rfl
  · rw [he]; exact .of_ctx_eq ((OnlySwrite.accDrop s _).trans (.addEvents _ _)) rfl
  · rw [he]
    exact .of_ctx_eq (((OnlySwrite.accDrop s o).trans (.setLocked _ true)).trans (.addEvents _ _)) rfl

/-- A chained run is executed as a DWRITE of its bytes (R62), so the contexts it creates are its start packets'. -/
theorem emitRun_drainWrites {n : Nat} (h : emitRun n s = .next t) : DrainWrites s t := by
  have hemit : OnlySwrite s (emit (.run (s.acc.take n)) (accDrop n s)) :=
    (OnlySwrite.accDrop s n).trans (.addEvents _ _)
  unfold emitRun at h
  split at h
  next => cases h; exact .of_ctx_eq (.of_onlyDemux (.refl s)) rfl
  next =>
    split at h
    next hchain =>
      have hf := demuxWrite_onlyDemux h
      have hrun : Event.run (s.acc.take n) ∈ newEvents s t :=
        mem_newEvents_of_le (List.prefix_refl _) hf.appended (by simp [newEvents])
      have hbefore : CtxGrows (RunStartsUnit s t) s (emit (.run (s.acc.take n)) (accDrop n s)) :=
        .of_ctx_eq rfl rfl
      exact ⟨hemit.trans (.of_onlyDemux hf),
        hbefore.trans ((demuxWrite_ctxGrows h).mono fun pid hstart => ⟨hchain, _, hrun, hstart⟩),
        fun hfalse => absurd (hfalse ▸ hchain) Bool.false_ne_true⟩
    next => cases h; exact .of_ctx_eq hemit rfl

/-- One induction on the passes for all that the drain writes. -/
theorem drainLoop_drainWrites {n : Nat} (h : drainLoop n s = .next t) : DrainWrites s t := by
  induction n generalizing s with
  | zero => cases h
  | succ n ih =>
    have hhunt := hunt_drainWrites s
    rcases drainBody_eq_next h with ⟨rfl, -⟩ | ⟨u, -, hu, hnext⟩
    · exact hhunt
    · have hscan : DrainWrites (hunt s).1 (setLocked (!scanLost (hunt s).1.acc) (hunt s).1) :=
        .of_ctx_eq (.setLocked _ _) rfl
      have hrun := (hhunt.trans hscan).trans (emitRun_drainWrites hu)
      rcases hnext with ⟨-, rfl⟩ | ⟨-, hagain⟩
      · exact hrun
      · exact hrun.trans (ih hagain)

/-- An SWRITE that answers a next state had room, and drained what it appended (R100). -/
theorem execSwrite_eq_next {c : List Byte} (h : execSwrite c s = .next t) :
    withinCap s.cfg.accCap (accAppend c s).acc.length = true ∧ drain (accAppend c s) = .next t := by
  unfold execSwrite at h
  split at h
  next hcap => exact ⟨by simpa using hcap, h⟩
  next => cases h

theorem execSwrite_drainWrites {c : List Byte} (h : execSwrite c s = .next t) : DrainWrites (accAppend c s) t :=
  drainLoop_drainWrites (execSwrite_eq_next h).2

end Sys2Proof.Machine
end

section
/-! SUPPORT. The invariant of idle states (R33): the reset state has it, every operation keeps it, and so does every
step; in a state that has it a write of no bytes does nothing. -/

namespace Sys2Proof.Machine

variable {s t : State}

/-! ### What the ports leave -/

/-- A chunk that has begun holds a byte (R90). -/
def PartOk (c : Option PartChunk) : Prop := c.all (fun c => !c.bytes.isEmpty) = true

theorem takeBeat_partOk (c : Option PartChunk) (b : InBeat) : PartOk (takeBeat c b).2 := by
  unfold takeBeat
  cases b.last
  · cases c <;> simp [PartOk]
  · rfl

theorem portEdge_partOk {c : Option PartChunk} (hc : PartOk c) (e : Edge) : PartOk (portEdge c e).2 := by
  unfold portEdge
  split
  · rfl
  · split
    · exact hc
    · split
      · split
        · exact takeBeat_partOk _ _
        · exact hc
      · exact hc

theorem nextOp_partOk {c : Option PartChunk} (hc : PartOk c) (es : List Edge) : PartOk (nextOp c es).2.1 := by
  induction es generalizing c with
  | nil => exact hc
  | cons e es ih =>
    have he := portEdge_partOk hc e
    unfold nextOp
    split
    next w c' hw => simpa [hw] using he
    next c' hw => exact ih (by simpa [hw] using he)

theorem State.Inv.afterPorts (hs : s.Inv) : s.afterPorts.Inv := by
  obtain ⟨hn, hl, hu, hp, hf, hc, ha, hb, hpart⟩ := hs
  exact ⟨hn, hl, hu, hp, hf, hc, ha, hb, nextOp_partOk hpart s.wires⟩

/-! ### What the drain leaves -/

/-- I2 and I3 of R33: the bounds on what the accumulator holds. -/
def Drained (s : State) : Prop :=
  (s.locked = true → s.acc.length < 188) ∧
  (s.locked = false → s.acc.length < (s.nlock.toNat + 1) * 188)

theorem Drained.of_locked (hl : s.locked = true) (h : s.acc.length < 188) : Drained s :=
  ⟨fun _ => h, fun hl' => by simp [hl] at hl'⟩

theorem Drained.of_unlocked (hl : s.locked = false) (h : s.acc.length < (s.nlock.toNat + 1) * 188) : Drained s :=
  ⟨fun hl' => by simp [hl] at hl', fun _ => h⟩

/-- A scan that keeps the lock leaves less than a stride (R107). -/
theorem length_drop_scanPtr_lt {b : List Byte} (h : scanLost b = false) : (b.drop (scanPtr b)).length < 188 := by
  have hall : strideCount b ≤ goodStrides (strideCount b) b := by simpa [scanLost] using h
  unfold scanPtr strideCount at *
  rw [List.length_drop]
  omega

/-- Where step 1 ends the drain, or leaves less than a stride, the bounds hold (R102, R104, R106). -/
theorem hunt_drained (h : (hunt s).2 = true → (hunt s).1.acc.length < 188) : Drained (hunt s).1 := by
  rcases hunt_cases s with ⟨hl, he⟩ | ⟨hl, hshort, he⟩ | ⟨hl, hlong, -, he⟩ | ⟨o, -, -, -, he⟩ <;> rw [he] at h ⊢
  · exact .of_locked hl (h rfl)
  · exact .of_unlocked hl hshort
  · refine .of_unlocked hl ?_
    simp only [discardFront_acc, discardFront_nlock, List.length_drop]
    omega
  · exact .of_locked rfl (h rfl)

/-- The drain stops only within the bounds, from whatever state it starts. -/
theorem drainLoop_drained {n : Nat} (h : drainLoop n s = .next t) : Drained t := by
  induction n generalizing s with
  | zero => cases h
  | succ n ih =>
    rcases drainBody_eq_next h with ⟨rfl, hwait⟩ | ⟨u, -, hu, hnext⟩
    · exact hunt_drained hwait
    · obtain ⟨hacc, hlocked⟩ := emitRun_acc_locked hu
      rcases hnext with ⟨hl, rfl⟩ | ⟨-, hagain⟩
      · refine .of_locked hl ?_
        rw [hacc]
        exact length_drop_scanPtr_lt (by simpa [hl] using hlocked)
      · exact ih hagain

/-! ### Every operation keeps the invariant -/

/-- The part of the idle invariant that holds inside an operation too: all but the bounds I2 and I3, which an SWRITE
breaks when it appends and restores when it drains. -/
structure InvInside (s : State) : Prop where
  nlock : s.nlock ≠ 0#8
  pset : pidsRising s.pset
  fset : pidsRising s.fset
  table : TableOk s
  acc : withinCap s.cfg.accCap s.acc.length = true
  part : PartOk s.part

theorem inv_iff : s.Inv ↔ InvInside s ∧ Drained s :=
  ⟨fun ⟨hn, hl, hu, hp, hf, hc, ha, hb, hpart⟩ => ⟨⟨hn, hp, hf, ⟨hc, hb⟩, ha, hpart⟩, hl, hu⟩,
   fun ⟨⟨hn, hp, hf, ⟨hc, hb⟩, ha, hpart⟩, hl, hu⟩ => ⟨hn, hl, hu, hp, hf, hc, ha, hb, hpart⟩⟩

theorem InvInside.of_onlySwrite (hs : InvInside s) (hf : OnlySwrite s t) (htable : TableOk s → TableOk t) :
    InvInside t where
  nlock := hf.nlock_eq ▸ hs.nlock
  pset := hf.pset_eq ▸ hs.pset
  fset := hf.fset_eq ▸ hs.fset
  table := htable hs.table
  acc := hf.cfg_eq ▸ withinCap_mono hf.accSuffix.length_le hs.acc
  part := hf.part_eq ▸ hs.part

theorem State.Inv.of_onlyDemux {new : Pid → Prop} (hs : s.Inv) (hf : OnlyDemux s t) (hg : CtxGrows new s t) :
    t.Inv := by
  obtain ⟨hin, hd⟩ := inv_iff.1 hs
  have hf' := OnlySwrite.of_onlyDemux hf
  refine inv_iff.2 ⟨hin.of_onlySwrite hf' hg.table, ?_⟩
  unfold Drained
  rw [hf.acc_eq, hf.locked_eq, hf'.nlock_eq]
  exact hd

theorem execClass_keepsInv {k : PacketClass} {p : Packet} (hs : s.Inv) (h : exec (k.instr p) s = .next t) : t.Inv :=
  hs.of_onlyDemux (exec_classInstr_eq_next h).1 (exec_classInstr_ctxGrows h)

theorem execSwrite_keepsInv {c : List Byte} (hs : s.Inv) (h : execSwrite c s = .next t) : t.Inv := by
  obtain ⟨hcap, hdrain⟩ := execSwrite_eq_next h
  obtain ⟨⟨hn, hp, hf, htable, -, hpart⟩, -⟩ := inv_iff.1 hs
  have hin : InvInside (accAppend c s) := ⟨hn, hp, hf, htable, hcap, hpart⟩
  have hw := drainLoop_drainWrites hdrain
  exact inv_iff.2 ⟨hin.of_onlySwrite hw.onlySwrite hw.ctxGrows.table, drainLoop_drained hdrain⟩

/-- The reset values satisfy the invariant in every build (R210). -/
theorem reset_inv (cfg : Config) (wires : List Edge) (events : List Event) :
    State.Inv { State.reset with cfg := cfg, wires := wires, events := events } := by
  refine inv_iff.2 ⟨⟨nofun, .nil, .nil, ⟨.nil, by simp [State.reset]⟩, ?_, rfl⟩, ?_⟩
  · cases h : cfg.accCap <;> simp [State.reset, withinCap]
  · exact .of_unlocked rfl (by simp [State.reset])

/-- A new threshold comes with an empty accumulator, which is within every bound (R111). -/
theorem execSetn_keepsInv {n : BitVec 8} (hs : s.Inv) (h : execSetn n s = .next t) : t.Inv := by
  unfold execSetn at h
  split at h
  next => cases h
  next hn =>
    cases h
    obtain ⟨⟨-, hp, hf, htable, hacc, hpart⟩, -⟩ := inv_iff.1 hs
    exact inv_iff.2 ⟨⟨hn, hp, hf, htable, withinCap_mono (Nat.zero_le _) hacc, hpart⟩, .of_unlocked rfl (by simp)⟩

/-- Every instruction keeps the invariant, a packet class run by itself too. -/
theorem exec_keepsInv (i : Instr) (hs : s.Inv) (h : exec i s = .next t) : t.Inv := by
  obtain ⟨⟨hn, hp, hf, ⟨hrising, hcap⟩, hacc, hpart⟩, hd⟩ := inv_iff.1 hs
  cases i with
  | swrite c => exact execSwrite_keepsInv hs h
  | dwrite c => exact hs.of_onlyDemux (demuxWrite_onlyDemux h) (demuxWrite_ctxGrows h)
  | setn n => exact execSetn_keepsInv hs h
  | addf pid => cases h; exact inv_iff.2 ⟨⟨hn, hp, pidInsert_rising pid hf, ⟨hrising, hcap⟩, hacc, hpart⟩, hd⟩
  | rmf pid =>
    cases h
    have htable : TableOk (ctxDrop pid (fsetRemove pid s)) :=
      ⟨tableDrop_rising pid hrising, fun e he => hcap e (mem_tableDrop he)⟩
    exact inv_iff.2 ⟨⟨hn, hp, pidErase_rising pid hf, htable, hacc, hpart⟩, hd⟩
  | addp pid => cases h; exact inv_iff.2 ⟨⟨hn, pidInsert_rising pid hp, hf, ⟨hrising, hcap⟩, hacc, hpart⟩, hd⟩
  | rmp pid => cases h; exact inv_iff.2 ⟨⟨hn, pidErase_rising pid hp, hf, ⟨hrising, hcap⟩, hacc, hpart⟩, hd⟩
  | setfall b => cases h; exact hs
  | setpall b => cases h; exact hs
  | reset => cases h; exact reset_inv _ _ _
  | pBadsync p => exact execClass_keepsInv (k := .badsync) hs h
  | pTei p => exact execClass_keepsInv (k := .tei) hs h
  | pScrHi p => exact execClass_keepsInv (k := .scrHi) hs h
  | pScrLo p => exact execClass_keepsInv (k := .scrLo) hs h
  | pNopl p => exact execClass_keepsInv (k := .nopl) hs h
  | pStart p => exact execClass_keepsInv (k := .start) hs h
  | pCont p => exact execClass_keepsInv (k := .cont) hs h

/-- Settles O58: a step waits or runs an instruction, the ports leave a legal part of a chunk, and every instruction
keeps the invariant. -/
theorem stepKeepsIdleInvariant : Obligations.StepKeepsIdleInvariant := by
  intro s t hs h
  rcases step_eq_next h with ⟨-, rfl⟩ | ⟨w, i, -, -, hi⟩
  · exact hs.afterPorts
  · exact exec_keepsInv i hs.afterPorts hi

/-- Settles O57: the reset state is the reset values in the default build. -/
theorem resetIsIdle : Obligations.ResetIsIdle := reset_inv Config.default [] []

/-- Settles O56: within the bounds the drain stops at once, and a DWRITE without strides has nothing to run. -/
theorem emptyWritesDoNothing : Obligations.EmptyWritesDoNothing := by
  intro s hs
  refine ⟨?_, rfl⟩
  obtain ⟨hin, hlocked, hunlocked⟩ := inv_iff.1 hs
  have hnothing : accAppend [] s = s := by simp [accAppend]
  have hstop : drain s = .next s := by
    cases hl : s.locked with
    | true => simp [drain, drainLoop, drainBody, hunt, hl, hlocked hl]
    | false => simp [drain, drainLoop, drainBody, hunt, hl, hunlocked hl]
  change execSwrite [] s = .next s
  unfold execSwrite
  rw [hnothing, if_pos (by simpa using hin.acc), hstop]

end Sys2Proof.Machine
end

section
/-! SUPPORT. Which operation writes which element (R20), and what follows for the lock (R22) and for the life of a
context (R28). -/

namespace Sys2Proof.Machine

variable {s t : State}

/-! ### The elements and their writers -/

/-- Each element is unchanged unless the instruction is among those its row of R20 names. -/
structure WritesOnlyItsRows (i : Instr) (s t : State) : Prop where
  sync : Instr.writesSync i = false → t.acc = s.acc ∧ t.locked = s.locked
  nlock : Instr.writesNlock i = false → t.nlock = s.nlock
  pset : Instr.writesPset i = false → t.pset = s.pset
  pall : Instr.writesPall i = false → t.pall = s.pall
  fset : Instr.writesFset i = false → t.fset = s.fset
  fall : Instr.writesFall i = false → t.fall = s.fall
  ctx : Instr.writesCtx s.cfg.chain i = false → t.ctx = s.ctx

/-- For an operation of the demultiplexer the row of `CTX` is left. -/
theorem WritesOnlyItsRows.of_onlyDemux {i : Instr} (hf : OnlyDemux s t)
    (hctx : Instr.writesCtx s.cfg.chain i = false → t.ctx = s.ctx) : WritesOnlyItsRows i s t :=
  have hf' := OnlySwrite.of_onlyDemux hf
  ⟨fun _ => ⟨hf.acc_eq, hf.locked_eq⟩, fun _ => hf'.nlock_eq, fun _ => hf'.pset_eq, fun _ => hf'.pall_eq,
    fun _ => hf'.fset_eq, fun _ => hf'.fall_eq, hctx⟩

/-- A packet class that does not reach step 8 leaves the contexts (R157). -/
theorem execClass_writesOnlyItsRows {k : PacketClass} {p : Packet} (h : exec (k.instr p) s = .next t) :
    WritesOnlyItsRows (k.instr p) s t := by
  obtain ⟨hf, hctx | ⟨c, -, -, hk⟩⟩ := exec_classInstr_eq_next h
  · exact .of_onlyDemux hf fun _ => hctx
  · refine .of_onlyDemux hf fun hno => ?_
    rcases hk with rfl | ⟨rfl, -⟩ <;> cases hno

theorem execSwrite_writesOnlyItsRows {c : List Byte} (h : execSwrite c s = .next t) :
    WritesOnlyItsRows (.swrite c) s t := by
  obtain ⟨hf, -, hunchained⟩ := execSwrite_drainWrites h
  exact ⟨nofun, fun _ => hf.nlock_eq, fun _ => hf.pset_eq, fun _ => hf.pall_eq, fun _ => hf.fset_eq,
    fun _ => hf.fall_eq, hunchained⟩

theorem execSetn_writesOnlyItsRows {n : BitVec 8} (h : execSetn n s = .next t) : WritesOnlyItsRows (.setn n) s t := by
  unfold execSetn at h
  split at h <;> cases h
  exact ⟨nofun, nofun, fun _ => rfl, fun _ => rfl, fun _ => rfl, fun _ => rfl, fun _ => rfl⟩

theorem exec_writesOnlyItsRows (i : Instr) (h : exec i s = .next t) : WritesOnlyItsRows i s t := by
  cases i with
  | swrite c => exact execSwrite_writesOnlyItsRows h
  | dwrite c => exact .of_onlyDemux (demuxWrite_onlyDemux h) nofun
  | setn n => exact execSetn_writesOnlyItsRows h
  | addf pid =>
    cases h
    exact ⟨fun _ => ⟨rfl, rfl⟩, fun _ => rfl, fun _ => rfl, fun _ => rfl, nofun, fun _ => rfl, fun _ => rfl⟩
  | rmf pid =>
    cases h
    exact ⟨fun _ => ⟨rfl, rfl⟩, fun _ => rfl, fun _ => rfl, fun _ => rfl, nofun, fun _ => rfl, nofun⟩
  | addp pid =>
    cases h
    exact ⟨fun _ => ⟨rfl, rfl⟩, fun _ => rfl, nofun, fun _ => rfl, fun _ => rfl, fun _ => rfl, fun _ => rfl⟩
  | rmp pid =>
    cases h
    exact ⟨fun _ => ⟨rfl, rfl⟩, fun _ => rfl, nofun, fun _ => rfl, fun _ => rfl, fun _ => rfl, fun _ => rfl⟩
  | setfall b =>
    cases h
    exact ⟨fun _ => ⟨rfl, rfl⟩, fun _ => rfl, fun _ => rfl, fun _ => rfl, fun _ => rfl, nofun, fun _ => rfl⟩
  | setpall b =>
    cases h
    exact ⟨fun _ => ⟨rfl, rfl⟩, fun _ => rfl, fun _ => rfl, nofun, fun _ => rfl, fun _ => rfl, fun _ => rfl⟩
  | reset => constructor <;> nofun
  | pBadsync p => exact execClass_writesOnlyItsRows (k := .badsync) h
  | pTei p => exact execClass_writesOnlyItsRows (k := .tei) h
  | pScrHi p => exact execClass_writesOnlyItsRows (k := .scrHi) h
  | pScrLo p => exact execClass_writesOnlyItsRows (k := .scrLo) h
  | pNopl p => exact execClass_writesOnlyItsRows (k := .nopl) h
  | pStart p => exact execClass_writesOnlyItsRows (k := .start) h
  | pCont p => exact execClass_writesOnlyItsRows (k := .cont) h

/-- Settles O51: the reset values by definition, the rows instruction by instruction. -/
theorem elementsAreWrittenOnlyByTheirOperations : Obligations.ElementsAreWrittenOnlyByTheirOperations := by
  refine ⟨⟨rfl, rfl, rfl, rfl, rfl, rfl, rfl, rfl⟩, fun i s t h => ?_⟩
  obtain ⟨hsync, hnlock, hpset, hpall, hfset, hfall, hctx⟩ := exec_writesOnlyItsRows i h
  exact ⟨hsync, hnlock, hpset, hpall, hfset, hfall, hctx⟩

/-! ### The lock -/

/-- `ACC` and `LOCKED` have three writers. -/
theorem writesSync_cases {i : Instr} (h : Instr.writesSync i = true) :
    (∃ c, i = .swrite c) ∨ (∃ n, i = .setn n) ∨ i = .reset := by
  cases i with
  | swrite c => exact .inl ⟨c, rfl⟩
  | setn n => exact .inr (.inl ⟨n, rfl⟩)
  | reset => exact .inr (.inr rfl)
  | _ => cases h

/-- A scan that loses the lock met a complete stride without the sync byte (R107). -/
theorem exists_stride_of_scanLost {b : List Byte} (h : scanLost b = true) :
    ∃ j, 188 * j + 188 ≤ b.length ∧ b[188 * j]? ≠ some syncByte := by
  have hstop : goodStrides (strideCount b) b < strideCount b := by simpa [scanLost] using h
  refine ⟨goodStrides (strideCount b) b, ?_, goodStrides_stop hstop⟩
  unfold strideCount at hstop ⊢
  omega

theorem execSetn_locked {n : BitVec 8} (h : execSetn n s = .next t) : t.locked = false := by
  unfold execSetn at h
  split at h <;> cases h
  rfl

/-- An unlocked drain can end locked only if its first pass finds `NLOCK+1` sync bytes 188 apart (R103, R105): where
the search fails the drain ends. -/
theorem drainBody_gains_lock {again : State → Out} (h : drainBody again s = .next t) (hs : s.locked = false)
    (ht : t.locked = true) : ∃ o, probesMatch s.acc s.nlock.toNat o = true := by
  have stopped : (hunt s).2 = false → (hunt s).1.locked = true := by
    intro hfalse
    rcases drainBody_eq_next h with ⟨rfl, -⟩ | ⟨u, htrue, -⟩
    · exact ht
    · simp [hfalse] at htrue
  rcases hunt_cases s with ⟨hl, -⟩ | ⟨-, -, he⟩ | ⟨-, -, -, he⟩ | ⟨o, -, -, ho, -⟩
  · simp [hs] at hl
  · simp [he, hs] at stopped
  · simp [he, hs] at stopped
  · exact ⟨o, (findLock_some ho).1⟩

/-- A locked drain can end unlocked only if its first scan loses the lock (R107): where it keeps it the drain
ends. -/
theorem drainBody_loses_lock {again : State → Out} (h : drainBody again s = .next t) (hs : s.locked = true)
    (ht : t.locked = false) : scanLost s.acc = true := by
  have hhunt : hunt s = (s, true) := by simp [hunt, hs]
  rcases drainBody_eq_next h with ⟨rfl, -⟩ | ⟨u, -, hu, hnext⟩
  · simp [hhunt, hs] at ht
  · obtain ⟨-, hlocked⟩ := emitRun_acc_locked hu
    rcases hnext with ⟨hl, rfl⟩ | ⟨hl, -⟩
    · simp [hl] at ht
    · simpa [hhunt, hl] using hlocked

/-- Settles O46: of the writers of the lock, an SWRITE gains or loses it in the drain's first pass or not at all, and
SETN and RESET leave it lost. -/
theorem lockChangesOnlyOnEvidence : Obligations.LockChangesOnlyOnEvidence := by
  intro i s t h
  by_cases hw : Instr.writesSync i = true
  · rcases writesSync_cases hw with ⟨c, rfl⟩ | ⟨n, rfl⟩ | rfl
    · have hdrain := (execSwrite_eq_next h).2
      refine ⟨fun hs ht => ?_, fun hs ht => ?_⟩
      · obtain ⟨o, ho⟩ := drainBody_gains_lock hdrain hs ht
        exact ⟨c, o, rfl, (probesMatch_iff _ _ _).1 ho⟩
      · obtain ⟨j, hj⟩ := exists_stride_of_scanLost (drainBody_loses_lock hdrain hs ht)
        exact .inr (.inr ⟨c, j, rfl, hj⟩)
    · refine ⟨fun _ ht => ?_, fun _ _ => .inr (.inl ⟨n, rfl⟩)⟩
      rw [execSetn_locked h] at ht
      cases ht
    · refine ⟨fun _ ht => ?_, fun _ _ => .inl rfl⟩
      cases h
      cases ht
  · obtain ⟨-, hlocked⟩ := (exec_writesOnlyItsRows i h).sync (by simpa using hw)
    rw [hlocked]
    exact ⟨fun hs ht => by simp [hs] at ht, fun hs ht => by simp [hs] at ht⟩

/-! ### The life of a context -/

/-- `CTX` has six writers, SWRITE among them only with `CHAIN = 1`. -/
theorem writesCtx_cases {i : Instr} {chain : Bool} (h : Instr.writesCtx chain i = true) :
    (chain = true ∧ ∃ c, i = .swrite c) ∨ (∃ c, i = .dwrite c) ∨ (∃ p, i = .pStart p) ∨ (∃ p, i = .pCont p) ∨
    (∃ p, i = .rmf p) ∨ i = .reset := by
  cases i with
  | swrite c => exact .inl ⟨h, c, rfl⟩
  | dwrite c => exact .inr (.inl ⟨c, rfl⟩)
  | pStart p => exact .inr (.inr (.inl ⟨p, rfl⟩))
  | pCont p => exact .inr (.inr (.inr (.inl ⟨p, rfl⟩)))
  | rmf p => exact .inr (.inr (.inr (.inr (.inl ⟨p, rfl⟩))))
  | reset => exact .inr (.inr (.inr (.inr (.inr rfl))))
  | _ => cases h

/-- Where the table only grows nothing is destroyed, and what appears has its reason. -/
theorem CtxGrows.lifecycle {new : Pid → Prop} (h : CtxGrows new s t) (pid : Pid) {destroyed created : Prop}
    (hnew : new pid → created) :
    (tableGet pid s.ctx ≠ none → tableGet pid t.ctx = none → destroyed) ∧
    (tableGet pid s.ctx = none → tableGet pid t.ctx ≠ none → created) :=
  ⟨fun hs ht => absurd ht (h.kept pid hs), fun hs ht => hnew (h.created pid hs ht)⟩

/-- Settles O52: RMF destroys its own PID's context and RESET all; every other writer of the table lets it grow, by
the PIDs of the start packets it runs. -/
theorem contextLifecycle : Obligations.ContextLifecycle := by
  intro i s t pid h
  by_cases hw : Instr.writesCtx s.cfg.chain i = true
  · rcases writesCtx_cases hw with ⟨-, c, rfl⟩ | ⟨c, rfl⟩ | ⟨p, rfl⟩ | ⟨p, rfl⟩ | ⟨p, rfl⟩ | rfl
    · refine (execSwrite_drainWrites h).ctxGrows.lifecycle pid fun hnew => ?_
      obtain ⟨hchain, d, hd, k, hk⟩ := hnew
      exact .inr (.inr ⟨hchain, c, d, k, rfl, hd, hk⟩)
    · refine (demuxWrite_ctxGrows h).lifecycle pid fun ⟨k, hk⟩ => ?_
      exact .inr (.inl ⟨c, k, rfl, hk⟩)
    · exact (exec_classInstr_ctxGrows (k := .start) h).lifecycle pid fun ⟨_, hp⟩ => .inl ⟨p, rfl, hp⟩
    · exact (exec_classInstr_ctxGrows (k := .cont) h).lifecycle pid nofun
    · have hdrop : t.ctx = tableDrop p s.ctx := by cases h; rfl
      rw [hdrop]
      by_cases hp : pid = p
      · subst hp
        exact ⟨fun _ _ => .inl rfl, fun _ ht => absurd (tableGet_drop_same _ _) ht⟩
      · rw [tableGet_drop_other hp]
        exact ⟨fun hs ht => absurd ht hs, fun hs ht => absurd hs ht⟩
    · cases h
      exact ⟨fun _ _ => .inr rfl, fun _ ht => absurd rfl ht⟩
  · rw [(exec_writesOnlyItsRows i h).ctx (by simpa using hw)]
    exact ⟨fun hs ht => absurd ht hs, fun hs ht => absurd hs ht⟩

end Sys2Proof.Machine
end

section
/-! SUPPORT. No operation reads what has been delivered (R61): each commutes with putting events before those
delivered so far. -/

namespace Sys2Proof.Machine

/-- The state with events put before everything delivered. -/
def State.precededBy (es : List Event) (s : State) : State := { s with events := es ++ s.events }

/-- With events put before everything delivered, the operation does the same and puts them before. -/
def IgnoresDelivered (f : State → Out) : Prop := ∀ es s, f (s.precededBy es) = prependEvents es (f s)

variable (es : List Event) (s : State)

/-! ### What an operation reads -/

@[simp] theorem precededBy_acc : (s.precededBy es).acc = s.acc := rfl
@[simp] theorem precededBy_locked : (s.precededBy es).locked = s.locked := rfl
@[simp] theorem precededBy_nlock : (s.precededBy es).nlock = s.nlock := rfl
@[simp] theorem precededBy_cfg : (s.precededBy es).cfg = s.cfg := rfl
@[simp] theorem selected_precededBy (pid : Pid) : selected pid (s.precededBy es) = selected pid s := rfl
@[simp] theorem ctxGet_precededBy (pid : Pid) : ctxGet pid (s.precededBy es) = ctxGet pid s := rfl

/-! ### The parts of an operation -/

theorem addEvents_precededBy (fs : List Event) :
    (s.precededBy es).addEvents fs = (s.addEvents fs).precededBy es := by
  simp [State.addEvents, State.precededBy]

theorem raiseError_precededBy (k : ErrKind) (pid : Pid) :
    raiseError k pid (s.precededBy es) = (raiseError k pid s).precededBy es :=
  addEvents_precededBy es s _

theorem passthrough_precededBy (p : Packet) :
    passthrough p (s.precededBy es) = (passthrough p s).precededBy es := by
  rw [passthrough_eq, passthrough_eq, ← addEvents_precededBy]
  rfl

theorem emitUnit_precededBy (pid : Pid) : emitUnit pid (s.precededBy es) = (emitUnit pid s).precededBy es := by
  rw [emitUnit_eq, emitUnit_eq, ← addEvents_precededBy]
  rfl

theorem discardFront_precededBy (n : Nat) :
    discardFront n (s.precededBy es) = (discardFront n s).precededBy es :=
  addEvents_precededBy es (accDrop n s) [.discard n]

theorem appendUnit_ignoresDelivered (pid : Pid) (cc : Cc) (buf pl : List Byte) :
    IgnoresDelivered (appendUnit pid cc buf pl) := by
  intro es s
  unfold appendUnit
  rw [precededBy_cfg]
  split <;> rfl

theorem IgnoresDelivered.andThen {f g : State → Out} (hf : IgnoresDelivered f) (hg : IgnoresDelivered g) :
    IgnoresDelivered fun s => andThen (f s) g := by
  intro es s
  simp only [hf es s]
  cases f s with
  | next t => exact hg es t
  | fault r => rfl
  | refused r => rfl

/-! ### The demultiplexer -/

theorem scrambledPacket_precededBy (p : Packet) :
    scrambledPacket p (s.precededBy es) = (scrambledPacket p s).precededBy es := by
  unfold scrambledPacket
  rw [selected_precededBy, passthrough_precededBy]
  split
  · exact raiseError_precededBy es _ _ _
  · rfl

theorem execPStart_ignoresDelivered (p : Packet) : IgnoresDelivered (execPStart p) := by
  intro es s
  unfold execPStart
  rw [selected_precededBy, passthrough_precededBy, emitUnit_precededBy]
  split
  · exact appendUnit_ignoresDelivered _ _ _ _ _ _
  · rfl

theorem execPCont_ignoresDelivered (p : Packet) : IgnoresDelivered (execPCont p) := by
  intro es s
  unfold execPCont
  rw [selected_precededBy, ctxGet_precededBy, passthrough_precededBy]
  split
  · split
    next => exact congrArg _ (raiseError_precededBy es _ _ _)
    next c _ =>
      rw [raiseError_precededBy, ← apply_ite (State.precededBy es)]
      exact appendUnit_ignoresDelivered _ _ _ _ _ _
  · rfl

theorem execClass_ignoresDelivered (k : PacketClass) (p : Packet) : IgnoresDelivered (exec (k.instr p)) := by
  intro es s
  cases k with
  | badsync => exact congrArg _ (raiseError_precededBy es s _ _)
  | tei => exact congrArg _ (raiseError_precededBy es s _ _)
  | scrHi => exact congrArg _ (scrambledPacket_precededBy es s p)
  | scrLo => exact congrArg _ (scrambledPacket_precededBy es s p)
  | nopl => exact congrArg _ (passthrough_precededBy es s p)
  | start => exact execPStart_ignoresDelivered p es s
  | cont => exact execPCont_ignoresDelivered p es s

theorem runStrides_ignoresDelivered (ps : List (List Byte)) : IgnoresDelivered (runStrides ps) := by
  induction ps with
  | nil => intro es s; rfl
  | cons p ps ih =>
    have hp : IgnoresDelivered (execPacket (parsePacket p)) := by
      intro es s
      rw [execPacket_eq_exec, execPacket_eq_exec]
      exact execClass_ignoresDelivered _ _ es s
    exact hp.andThen ih

theorem demuxWrite_ignoresDelivered (b : List Byte) : IgnoresDelivered (demuxWrite b) := by
  refine (runStrides_ignoresDelivered _).andThen fun es s => ?_
  unfold lengthCheck
  split
  · rfl
  · exact congrArg _ (raiseError_precededBy es s _ _)

/-! ### The synchronizer -/

theorem hunt_precededBy : hunt (s.precededBy es) = ((hunt s).1.precededBy es, (hunt s).2) := by
  unfold hunt
  rw [precededBy_locked, precededBy_acc, precededBy_nlock]
  split
  · rfl
  · split
    · rfl
    · split
      next => rw [discardFront_precededBy]
      next o _ =>
        split
        · rfl
        · exact congrArg (·, true) (discardFront_precededBy es (setLocked true s) o)

theorem emitRun_ignoresDelivered (ptr : Nat) : IgnoresDelivered (emitRun ptr) := by
  intro es s
  have hrun : emit (.run (s.acc.take ptr)) (accDrop ptr (s.precededBy es)) =
      (emit (.run (s.acc.take ptr)) (accDrop ptr s)).precededBy es :=
    addEvents_precededBy es (accDrop ptr s) _
  unfold emitRun
  rw [precededBy_acc, precededBy_cfg, hrun]
  split
  · rfl
  · dsimp only
    split
    · exact demuxWrite_ignoresDelivered _ _ _
    · rfl

theorem drainBody_ignoresDelivered {again : State → Out} (hagain : IgnoresDelivered again) :
    IgnoresDelivered (drainBody again) := by
  intro es s
  have hround : IgnoresDelivered fun t => if t.locked then .next t else again t := by
    intro es t
    dsimp only
    rw [precededBy_locked]
    split
    · rfl
    · exact hagain es t
  unfold drainBody
  rw [hunt_precededBy]
  rcases hunt s with ⟨s1, goesOn⟩
  cases goesOn with
  | false => rfl
  | true =>
    dsimp only
    rw [precededBy_acc]
    split
    · rfl
    · exact (emitRun_ignoresDelivered _).andThen hround es (setLocked (!scanLost s1.acc) s1)

theorem drainLoop_ignoresDelivered (n : Nat) : IgnoresDelivered (drainLoop n) := by
  induction n with
  | zero => intro es s; rfl
  | succ n ih => exact drainBody_ignoresDelivered ih

theorem execSwrite_ignoresDelivered (c : List Byte) : IgnoresDelivered (execSwrite c) := by
  intro es s
  unfold execSwrite
  rw [precededBy_acc, precededBy_cfg]
  split
  · exact drainLoop_ignoresDelivered _ es (accAppend c s)
  · rfl

theorem execSetn_ignoresDelivered (n : BitVec 8) : IgnoresDelivered (execSetn n) := by
  intro es s
  unfold execSetn
  split <;> rfl

/-- Settles O54, instruction by instruction. -/
theorem deliveredEventsAreNeverRead : Obligations.DeliveredEventsAreNeverRead := by
  intro i s es
  cases i with
  | swrite c => exact execSwrite_ignoresDelivered c es s
  | dwrite c => exact demuxWrite_ignoresDelivered c es s
  | setn n => exact execSetn_ignoresDelivered n es s
  | addf pid => rfl
  | rmf pid => rfl
  | addp pid => rfl
  | rmp pid => rfl
  | setfall b => rfl
  | setpall b => rfl
  | reset => rfl
  | pBadsync p => exact execClass_ignoresDelivered .badsync p es s
  | pTei p => exact execClass_ignoresDelivered .tei p es s
  | pScrHi p => exact execClass_ignoresDelivered .scrHi p es s
  | pScrLo p => exact execClass_ignoresDelivered .scrLo p es s
  | pNopl p => exact execClass_ignoresDelivered .nopl p es s
  | pStart p => exact execClass_ignoresDelivered .start p es s
  | pCont p => exact execClass_ignoresDelivered .cont p es s

end Sys2Proof.Machine
end

section
/-! SUPPORT. A chained write is the synchronizer's events with a DWRITE behind each run (R62): the demultiplexer reads
neither the accumulator nor the lock, so it does the same after the synchronizer's whole write as in the middle of
it. -/

namespace Sys2Proof.Machine

variable {s s' t u : State}

/-! ### The demultiplexer does not read the synchronizer -/

/-- The state with this accumulator and this lock. -/
def State.withSync (acc : List Byte) (locked : Bool) (s : State) : State := { s with acc := acc, locked := locked }

/-- The outcome's next state given this accumulator and this lock. -/
def setSync (acc : List Byte) (locked : Bool) (o : Out) : Out := andThen o fun u => .next (u.withSync acc locked)

/-- With another accumulator and another lock the operation does the same, and leaves them. -/
def IgnoresSync (f : State → Out) : Prop := ∀ acc locked s, f (s.withSync acc locked) = setSync acc locked (f s)

theorem setSync_setSync (a b : List Byte) (l m : Bool) (o : Out) : setSync b m (setSync a l o) = setSync b m o := by
  cases o <;> rfl

theorem IgnoresSync.andThen {f g : State → Out} (hf : IgnoresSync f) (hg : IgnoresSync g) :
    IgnoresSync fun s => andThen (f s) g := by
  intro a l s
  simp only [hf a l s]
  cases f s with
  | next t => exact hg a l t
  | fault r => rfl
  | refused r => rfl

theorem passthrough_withSync (a : List Byte) (l : Bool) (p : Packet) (s : State) :
    passthrough p (s.withSync a l) = (passthrough p s).withSync a l := by
  rw [passthrough_eq, passthrough_eq]
  rfl

theorem emitUnit_withSync (a : List Byte) (l : Bool) (pid : Pid) (s : State) :
    emitUnit pid (s.withSync a l) = (emitUnit pid s).withSync a l := by
  rw [emitUnit_eq, emitUnit_eq]
  rfl

theorem selected_withSync (a : List Byte) (l : Bool) (pid : Pid) (s : State) :
    selected pid (s.withSync a l) = selected pid s := rfl

theorem raiseError_withSync (a : List Byte) (l : Bool) (k : ErrKind) (pid : Pid) (s : State) :
    raiseError k pid (s.withSync a l) = (raiseError k pid s).withSync a l := rfl

theorem scrambledPacket_withSync (a : List Byte) (l : Bool) (p : Packet) (s : State) :
    scrambledPacket p (s.withSync a l) = (scrambledPacket p s).withSync a l := by
  unfold scrambledPacket
  rw [selected_withSync, passthrough_withSync]
  split <;> rfl

theorem appendUnit_ignoresSync (pid : Pid) (cc : Cc) (buf pl : List Byte) :
    IgnoresSync (appendUnit pid cc buf pl) := by
  intro a l s
  change (if withinCap s.cfg.unitCap (buf ++ pl).length then _ else _) = _
  unfold appendUnit
  split <;> rfl

theorem execPStart_ignoresSync (p : Packet) : IgnoresSync (execPStart p) := by
  intro a l s
  unfold execPStart
  rw [selected_withSync, passthrough_withSync, emitUnit_withSync]
  split
  · exact appendUnit_ignoresSync _ _ _ _ a l _
  · rfl

theorem execPCont_ignoresSync (p : Packet) : IgnoresSync (execPCont p) := by
  intro a l s
  have hctx : ctxGet p.header.pid (s.withSync a l) = ctxGet p.header.pid s := rfl
  unfold execPCont
  rw [selected_withSync, passthrough_withSync, hctx]
  split
  · split
    · rfl
    · rw [raiseError_withSync, ← apply_ite (State.withSync a l)]
      exact appendUnit_ignoresSync _ _ _ _ a l _
  · rfl

theorem execPacket_ignoresSync (p : Packet) : IgnoresSync (execPacket p) := by
  intro a l s
  unfold execPacket
  cases p.header.cls with
  | badsync => rfl
  | tei => rfl
  | scrHi => exact congrArg _ (scrambledPacket_withSync a l p s)
  | scrLo => exact congrArg _ (scrambledPacket_withSync a l p s)
  | nopl => exact congrArg _ (passthrough_withSync a l p s)
  | start => exact execPStart_ignoresSync p a l s
  | cont => exact execPCont_ignoresSync p a l s

theorem runStrides_ignoresSync (ps : List (List Byte)) : IgnoresSync (runStrides ps) := by
  induction ps with
  | nil => intro a l s; rfl
  | cons p ps ih => exact (execPacket_ignoresSync (parsePacket p)).andThen ih

theorem demuxWrite_ignoresSync (b : List Byte) : IgnoresSync (demuxWrite b) := by
  refine (runStrides_ignoresSync _).andThen fun a l s => ?_
  unfold lengthCheck
  split <;> rfl

/-! ### Delivering the synchronizer's events -/

/-- `feedRuns` one event at a time: it is appended, and a run is executed as a DWRITE. -/
def feedEvent : Event → State → Out
  | .run d, s => demuxWrite d (s.addEvents [.run d])
  | e, s => .next (s.addEvents [e])

theorem feedRuns_cons (e : Event) (es : List Event) (s : State) :
    feedRuns (e :: es) s = andThen (feedEvent e s) (feedRuns es) := by
  cases e <;> rfl

theorem feedRuns_append (es fs : List Event) (s : State) :
    feedRuns (es ++ fs) s = andThen (feedRuns es s) (feedRuns fs) := by
  induction es generalizing s with
  | nil => rfl
  | cons e es ih =>
    rw [List.cons_append, feedRuns_cons, feedRuns_cons, andThen_assoc]
    exact congrArg _ (funext ih)

theorem feedEvent_ignoresSync (e : Event) : IgnoresSync (feedEvent e) := by
  intro a l s
  cases e with
  | run d => exact demuxWrite_ignoresSync d a l (s.addEvents [.run d])
  | _ => rfl

theorem feedRuns_ignoresSync (es : List Event) : IgnoresSync (feedRuns es) := by
  induction es with
  | nil => intro a l s; rfl
  | cons e es ih =>
    intro a l s
    rw [feedRuns_cons, feedRuns_cons]
    exact (feedEvent_ignoresSync e).andThen ih a l s

theorem feedEvent_onlyDemux {e : Event} (h : feedEvent e s = .next t) : OnlyDemux s t := by
  cases e with
  | run d => exact (OnlyDemux.addEvents _ _).trans (demuxWrite_onlyDemux h)
  | _ => cases h; exact .addEvents _ _

theorem feedRuns_onlyDemux {es : List Event} (h : feedRuns es s = .next t) : OnlyDemux s t := by
  induction es generalizing s with
  | nil => cases h; exact .refl _
  | cons e es ih =>
    rw [feedRuns_cons] at h
    obtain ⟨u, hu, h⟩ := andThen_eq_next h
    exact (feedEvent_onlyDemux hu).trans (ih h)

/-! ### The chained machine follows the synchronizer alone -/

/-- The synchronizer finds the same in both states, and the build of `s` chains its runs. -/
structure SyncAlike (s s' : State) : Prop where
  acc : s.acc = s'.acc
  locked : s.locked = s'.locked
  nlock : s.nlock = s'.nlock
  chained : s.cfg.chain = true

/-- A part of an SWRITE which the chained machine does as the synchronizer alone does: it delivers the same events, with
each run executed as a DWRITE at its place, and leaves the same accumulator and lock. -/
def Interleaved (f : State → Out) : Prop :=
  ∀ s' t, s'.cfg.chain = false → f s' = .next t →
    OnlySwrite s' t ∧ ∃ es, t.events = s'.events ++ es ∧
      ∀ s, SyncAlike s s' → f s = setSync t.acc t.locked (feedRuns es s)

/-- A state that is given the accumulator and the lock it has. -/
theorem SyncAlike.withSync_eq (h : SyncAlike s s') : s.withSync s'.acc s'.locked = s := by
  rw [← h.acc, ← h.locked]
  rfl

theorem interleaved_next : Interleaved .next := by
  intro s' t _ h
  cases h
  refine ⟨.of_onlyDemux (.refl s'), [], by simp, fun s hs => ?_⟩
  exact congrArg _ hs.withSync_eq.symm

theorem Interleaved.ite {c : State → Prop} [∀ s, Decidable (c s)] {f g : State → Out}
    (hc : ∀ s s', SyncAlike s s' → (c s ↔ c s')) (hf : Interleaved f) (hg : Interleaved g) :
    Interleaved fun s => if c s then f s else g s := by
  intro s' t hchain h
  dsimp only at h
  by_cases hcs : c s'
  · rw [if_pos hcs] at h
    obtain ⟨hframe, es, hes, hrun⟩ := hf s' t hchain h
    exact ⟨hframe, es, hes, fun s hs => (if_pos ((hc s s' hs).2 hcs)).trans (hrun s hs)⟩
  · rw [if_neg hcs] at h
    obtain ⟨hframe, es, hes, hrun⟩ := hg s' t hchain h
    exact ⟨hframe, es, hes, fun s hs => (if_neg (mt (hc s s' hs).1 hcs)).trans (hrun s hs)⟩

/-- The key step: what the DWRITEs of the first part do to the state, the second does not see, and the demultiplexer
does not see what the synchronizer has done by then. -/
theorem Interleaved.andThen {f g : State → Out} (hf : Interleaved f) (hg : Interleaved g) :
    Interleaved fun s => andThen (f s) g := by
  intro s' t hchain h
  obtain ⟨u', hu', h⟩ := andThen_eq_next h
  obtain ⟨hframe, es, hes, hrun⟩ := hf s' u' hchain hu'
  obtain ⟨gframe, fs, hfs, grun⟩ := hg u' t (hframe.cfg_eq ▸ hchain) h
  refine ⟨hframe.trans gframe, es ++ fs, by simp [hfs, hes], fun s hs => ?_⟩
  have alike : ∀ u, feedRuns es s = .next u → SyncAlike (u.withSync u'.acc u'.locked) u' := by
    intro u hu
    have hdemux := feedRuns_onlyDemux hu
    refine ⟨rfl, rfl, ?_, hdemux.cfg_eq ▸ hs.chained⟩
    calc u.nlock = s.nlock := (OnlySwrite.of_onlyDemux hdemux).nlock_eq
      _ = s'.nlock := hs.nlock
      _ = u'.nlock := hframe.nlock_eq.symm
  dsimp only
  rw [hrun s hs, feedRuns_append]
  cases hu : feedRuns es s with
  | fault r => rfl
  | refused r => rfl
  | next u =>
    calc g (u.withSync u'.acc u'.locked)
        = setSync t.acc t.locked (feedRuns fs (u.withSync u'.acc u'.locked)) := grun _ (alike u hu)
      _ = setSync t.acc t.locked (feedRuns fs u) := by rw [feedRuns_ignoresSync, setSync_setSync]

/-! ### The parts of the drain -/

/-- What the synchronizer reads of the state, in a state that is else as after reset. -/
def syncPart (s : State) : State := { State.reset with acc := s.acc, locked := s.locked, nlock := s.nlock }

theorem syncPart_acc (s : State) : (syncPart s).acc = s.acc := rfl
theorem syncPart_locked (s : State) : (syncPart s).locked = s.locked := rfl
theorem syncPart_nlock (s : State) : (syncPart s).nlock = s.nlock := rfl

theorem SyncAlike.syncPart_eq (h : SyncAlike s s') : syncPart s = syncPart s' := by
  obtain ⟨hacc, hlocked, hnlock, -⟩ := h
  simp [syncPart, hacc, hlocked, hnlock]

/-- Do to `s` what the synchronizer did where it left `r`: its events, its accumulator, its lock. -/
def follow (r s : State) : State := (s.addEvents r.events).withSync r.acc r.locked

/-- Step 1 reads the accumulator, the lock and the threshold, and writes the first two and events. -/
theorem hunt_eq_follow (s : State) : hunt s = (follow (hunt (syncPart s)).1 s, (hunt (syncPart s)).2) := by
  have hnothing : follow (syncPart s) s = s := by
    simp [follow, syncPart, State.reset, State.addEvents, State.withSync]
  have hlock : follow (setLocked true (syncPart s)) s = setLocked true s := congrArg (setLocked true) hnothing
  unfold hunt
  rw [syncPart_locked, syncPart_acc, syncPart_nlock]
  split
  · rw [hnothing]
  · split
    · rw [hnothing]
    · split
      next => rfl
      next o _ =>
        split
        · rw [hlock]
        · rfl

/-- The only events of step 1 are discards. -/
theorem feedRuns_hunt_events (s u : State) :
    feedRuns (hunt (syncPart s)).1.events u = .next (u.addEvents (hunt (syncPart s)).1.events) := by
  have hnone : feedRuns [] u = .next (u.addEvents []) := by simp [feedRuns, State.addEvents]
  rcases hunt_cases (syncPart s) with ⟨-, he⟩ | ⟨-, -, he⟩ | ⟨-, -, -, he⟩ | ⟨o, -, -, -, he⟩ <;> rw [he]
  · exact hnone
  · exact hnone
  · rfl
  · by_cases ho : o = 0
    · rw [if_pos ho]; exact hnone
    · rw [if_neg ho]; rfl

theorem hunt_interleaved : Interleaved fun s => .next (hunt s).1 := by
  intro s' t _ h
  cases h
  have hevents : (hunt s').1.events = s'.events ++ (hunt (syncPart s')).1.events := by rw [hunt_eq_follow]; rfl
  refine ⟨(hunt_drainWrites s').onlySwrite, _, hevents, fun s hs => ?_⟩
  dsimp only
  rw [feedRuns_hunt_events, hunt_eq_follow s, hunt_eq_follow s', hs.syncPart_eq]
  rfl

theorem hunt_goesOn_iff (h : SyncAlike s s') : (hunt s).2 = true ↔ (hunt s').2 = true := by
  rw [hunt_eq_follow s, hunt_eq_follow s', h.syncPart_eq]

/-- A chained run is emitted and executed as a DWRITE, and its bytes leave the accumulator (R62, R108). -/
theorem emitRun_of_chained {n : Nat} (hn : 0 < n) (h : s.cfg.chain = true) :
    emitRun n s = setSync (s.acc.drop n) s.locked (feedRuns [.run (s.acc.take n)] s) := by
  unfold emitRun
  rw [if_neg hn.ne', feedRuns_cons]
  exact (if_pos h).trans ((demuxWrite_ignoresSync _ _ _ (s.addEvents [.run _])).trans
    (congrArg _ (andThen_next_right _).symm))

/-- Steps 3 and 4 of a drain pass: the run, if there is one, is the only event (R108). -/
theorem emitRun_interleaved :
    Interleaved fun s => emitRun (scanPtr s.acc) (setLocked (!scanLost s.acc) s) := by
  intro s' t hchain h
  refine ⟨(OnlySwrite.setLocked s' _).trans (emitRun_drainWrites h).onlySwrite, ?_⟩
  rcases emitRun_eq_next h with ⟨hzero, rfl⟩ | ⟨hpos, -, hrun⟩
  · refine ⟨[], by simp, fun s hs => ?_⟩
    change emitRun _ _ = setSync s'.acc (!scanLost s'.acc) (.next s)
    rw [← hs.acc] at hzero ⊢
    rw [hzero]
    rfl
  · obtain rfl := hrun hchain
    refine ⟨[.run (s'.acc.take (scanPtr s'.acc))], rfl, fun s hs => ?_⟩
    change emitRun _ _ = setSync (s'.acc.drop (scanPtr s'.acc)) (!scanLost s'.acc) (feedRuns _ s)
    rw [← hs.acc] at hpos ⊢
    calc emitRun (scanPtr s.acc) (setLocked (!scanLost s.acc) s)
        = setSync _ _ (feedRuns _ (s.withSync s.acc (!scanLost s.acc))) := emitRun_of_chained hpos hs.chained
      _ = setSync _ _ (feedRuns _ s) := by rw [feedRuns_ignoresSync, setSync_setSync]; rfl

/-- A pass of the drain after step 1: the locked wait, the scan and the run, and going round (R106 to R109). -/
def scanPass (again : State → Out) (s : State) : Out :=
  if s.acc.length < 188 then .next s
  else
    andThen (emitRun (scanPtr s.acc) (setLocked (!scanLost s.acc) s)) fun t =>
      if t.locked then .next t else again t

theorem drainBody_eq_scanPass (again : State → Out) (s : State) :
    drainBody again s =
      if (hunt s).2 then andThen (.next (hunt s).1) (scanPass again) else .next (hunt s).1 := by
  unfold drainBody
  rcases hunt s with ⟨s1, _ | _⟩ <;> rfl

theorem drainBody_interleaved {again : State → Out} (hagain : Interleaved again) :
    Interleaved (drainBody again) := by
  have hround : Interleaved fun t => if t.locked then .next t else again t :=
    .ite (fun s s' hs => by rw [hs.locked]) interleaved_next hagain
  have hscan : Interleaved (scanPass again) :=
    .ite (fun s s' hs => by rw [hs.acc]) interleaved_next (emitRun_interleaved.andThen hround)
  rw [funext (drainBody_eq_scanPass again)]
  exact .ite (fun _ _ => hunt_goesOn_iff) (hunt_interleaved.andThen hscan) hunt_interleaved

theorem drainLoop_interleaved (n : Nat) : Interleaved (drainLoop n) := by
  induction n with
  | zero => intro s' t _ h; cases h
  | succ n ih => exact drainBody_interleaved ih

/-- Settles O49: the drain is interleaved, by induction on its passes, and what an SWRITE does before it, the
demultiplexer does not see. -/
theorem chainedWriteInterleavesDwrites : Obligations.ChainedWriteInterleavesDwrites := by
  intro c s t hchain h
  obtain ⟨hcap, hdrain⟩ := execSwrite_eq_next h
  obtain ⟨-, es, hes, hrun⟩ := drainLoop_interleaved _ _ t rfl hdrain
  obtain rfl : t.events = es := hes
  calc exec (.swrite c) s
      = drain (accAppend c s) := if_pos (by simpa using hcap)
    _ = setSync t.acc t.locked (feedRuns t.events (accAppend c s)) := hrun (accAppend c s) ⟨rfl, rfl, rfl, hchain⟩
    _ = setSync t.acc t.locked (feedRuns t.events s) :=
        (congrArg _ (feedRuns_ignoresSync t.events (s.acc ++ c) s.locked s)).trans (setSync_setSync _ _ _ _ _)

end Sys2Proof.Machine
end

section
/-! SUPPORT. Every operation only appends events and leaves the build and the caller's future (R34, R61, R65). -/

namespace Sys2Proof.Machine

variable {s t : State}

/-- Events are appended, and neither the build nor the edges to come change. -/
structure OnlyAppends (s t : State) : Prop where
  appended : s.events <+: t.events
  cfg : t.cfg = s.cfg
  wires : t.wires = s.wires

theorem OnlySwrite.onlyAppends (h : OnlySwrite s t) : OnlyAppends s t :=
  ⟨h.appended, h.cfg_eq, by rw [h.frame]⟩

theorem OnlyDemux.onlyAppends (h : OnlyDemux s t) : OnlyAppends s t :=
  (OnlySwrite.of_onlyDemux h).onlyAppends

/-- A configuration operation or RESET delivers nothing. -/
theorem OnlyAppends.of_events_eq (he : t.events = s.events) (hc : t.cfg = s.cfg) (hw : t.wires = s.wires) :
    OnlyAppends s t :=
  ⟨he ▸ List.prefix_refl _, hc, hw⟩

theorem execSetn_onlyAppends {n : BitVec 8} (h : execSetn n s = .next t) : OnlyAppends s t := by
  unfold execSetn at h
  split at h <;> cases h
  exact .of_events_eq rfl rfl rfl

theorem execSwrite_onlyAppends {c : List Byte} (h : execSwrite c s = .next t) : OnlyAppends s t := by
  obtain ⟨happended, hcfg, hwires⟩ := (execSwrite_drainWrites h).onlySwrite.onlyAppends
  exact ⟨happended, hcfg, hwires⟩

theorem execClass_onlyAppends {k : PacketClass} {p : Packet} (h : exec (k.instr p) s = .next t) : OnlyAppends s t :=
  (exec_classInstr_eq_next h).1.onlyAppends

/-- Settles O53, instruction by instruction. -/
theorem eventsAreOnlyAppended : Obligations.EventsAreOnlyAppended := by
  intro i s t h
  suffices hs : OnlyAppends s t from ⟨hs.appended, hs.cfg, hs.wires⟩
  cases i with
  | swrite c => exact execSwrite_onlyAppends h
  | dwrite c => exact (demuxWrite_onlyDemux h).onlyAppends
  | setn n => exact execSetn_onlyAppends h
  | addf pid => cases h; exact .of_events_eq rfl rfl rfl
  | rmf pid => cases h; exact .of_events_eq rfl rfl rfl
  | addp pid => cases h; exact .of_events_eq rfl rfl rfl
  | rmp pid => cases h; exact .of_events_eq rfl rfl rfl
  | setfall b => cases h; exact .of_events_eq rfl rfl rfl
  | setpall b => cases h; exact .of_events_eq rfl rfl rfl
  | reset => cases h; exact .of_events_eq rfl rfl rfl
  | pBadsync p => exact execClass_onlyAppends (k := .badsync) h
  | pTei p => exact execClass_onlyAppends (k := .tei) h
  | pScrHi p => exact execClass_onlyAppends (k := .scrHi) h
  | pScrLo p => exact execClass_onlyAppends (k := .scrLo) h
  | pNopl p => exact execClass_onlyAppends (k := .nopl) h
  | pStart p => exact execClass_onlyAppends (k := .start) h
  | pCont p => exact execClass_onlyAppends (k := .cont) h

end Sys2Proof.Machine
end

section
/-! SUPPORT. Which operations are idempotent (R57). -/

namespace Sys2Proof.Machine

/-! ### Writing an element twice -/

theorem pidInsert_pidInsert (p : Pid) (l : List Pid) : pidInsert p (pidInsert p l) = pidInsert p l := by
  induction l with
  | nil => simp [pidInsert]
  | cons q l ih =>
    by_cases hlt : p < q
    · simp [pidInsert, hlt]
    · by_cases heq : p = q
      · simp [pidInsert, heq]
      · simp [pidInsert, hlt, heq, ih]

theorem pidErase_pidErase (p : Pid) (l : List Pid) : pidErase p (pidErase p l) = pidErase p l := by
  simp [pidErase]

theorem tableDrop_tableDrop (p : Pid) (t : List (Pid × Ctx)) : tableDrop p (tableDrop p t) = tableDrop p t := by
  simp [tableDrop]

/-! ### The operations -/

/-- Issued twice in a row, the operation leaves the state that the first left. -/
def Idempotent (i : Instr) : Prop := ∀ s t, exec i s = .next t → exec i t = .next t

/-- An operation that always answers is idempotent if its function on states is. -/
theorem Idempotent.of_next {i : Instr} {f : State → State} (hi : ∀ s, exec i s = .next (f s))
    (hf : ∀ s, f (f s) = f s) : Idempotent i := by
  intro s t h
  rw [hi] at h ⊢
  cases h
  rw [hf]

theorem addf_idempotent (p : Pid) : Idempotent (.addf p) :=
  .of_next (f := fsetAdd p) (fun _ => rfl) fun s => by simp [fsetAdd, pidInsert_pidInsert]

theorem rmf_idempotent (p : Pid) : Idempotent (.rmf p) :=
  .of_next (f := fun s => ctxDrop p (fsetRemove p s)) (fun _ => rfl) fun s => by
    simp [ctxDrop, fsetRemove, pidErase_pidErase, tableDrop_tableDrop]

theorem addp_idempotent (p : Pid) : Idempotent (.addp p) :=
  .of_next (f := psetAdd p) (fun _ => rfl) fun s => by simp [psetAdd, pidInsert_pidInsert]

theorem rmp_idempotent (p : Pid) : Idempotent (.rmp p) :=
  .of_next (f := psetRemove p) (fun _ => rfl) fun s => by simp [psetRemove, pidErase_pidErase]

theorem setfall_idempotent (b : Bool) : Idempotent (.setfall b) :=
  .of_next (f := setFall b) (fun _ => rfl) fun _ => rfl

theorem setpall_idempotent (b : Bool) : Idempotent (.setpall b) :=
  .of_next (f := setPall b) (fun _ => rfl) fun _ => rfl

theorem setn_idempotent (n : BitVec 8) : Idempotent (.setn n) := by
  intro s t h
  change execSetn n s = .next t at h
  change execSetn n t = .next t
  unfold execSetn at h ⊢
  split at h
  next => cases h
  next hn => cases h; rw [if_neg hn]; rfl

/-! ### The writes are not -/

/-- Two writes of one byte after reset leave two bytes in the accumulator, far from the 1128 that step 1 waits for. -/
theorem swrite_not_idempotent :
    exec (.swrite [0x47#8]) State.reset = .next { State.reset with acc := [0x47#8] } ∧
    exec (.swrite [0x47#8]) { State.reset with acc := [0x47#8] } =
      .next { State.reset with acc := [0x47#8, 0x47#8] } := ⟨rfl, rfl⟩

/-- A continuation packet of PID 0 with counter 0 and 184 zero bytes of payload. -/
def contPacket : List Byte := [0x47#8, 0#8, 0#8, 0x10#8] ++ List.replicate 184 0#8

/-- A state in which PID 0 is selected and its unit in progress holds `n` zero bytes. -/
def unitInProgress (cc : Cc) (n : Nat) : State :=
  { State.reset with fset := [0#13], ctx := [(0#13, ⟨cc, List.replicate n 0#8⟩)] }

/-- Each of two writes of one continuation packet appends its payload; the second is a discontinuity too. -/
theorem dwrite_not_idempotent :
    exec (.dwrite contPacket) (unitInProgress 15#4 0) = .next (unitInProgress 0#4 184) ∧
    exec (.dwrite contPacket) (unitInProgress 0#4 184) =
      .next ((unitInProgress 0#4 368).addEvents [.err .discontinuity (some 0#13)]) :=
  ⟨nextState?_eq_some (by decide +kernel), nextState?_eq_some (by decide +kernel)⟩

/-- Settles O22: the configuration operations write elements for which writing twice is writing once, and the two
writes above are counterexamples for SWRITE and DWRITE. -/
theorem configurationIsIdempotent : Obligations.ConfigurationIsIdempotent := by
  refine ⟨fun s t i hi => ?_, ⟨_, _, _, _, swrite_not_idempotent.1, swrite_not_idempotent.2, by decide⟩,
    ⟨_, _, _, _, dwrite_not_idempotent.1, dwrite_not_idempotent.2, by decide +kernel⟩⟩
  suffices h : Idempotent i from h s t
  rcases hi with ⟨p, rfl | rfl | rfl | rfl⟩ | ⟨b, rfl | rfl⟩ | ⟨n, rfl⟩
  · exact addf_idempotent p
  · exact rmf_idempotent p
  · exact addp_idempotent p
  · exact rmp_idempotent p
  · exact setfall_idempotent b
  · exact setpall_idempotent b
  · exact setn_idempotent n

end Sys2Proof.Machine
end

section
/-! SUPPORT. The beats at the `EVT` port tell the events apart (R61, R91): the first beat of an event says its kind and
how many beats it has, and the event can be rebuilt from that beat and the bytes. -/

namespace Sys2Proof.Machine

/-! ### Rebuilding an event from its fields -/

/-- The error kind of an `err` code (R75). -/
def ErrKind.ofCode (c : BitVec 3) : ErrKind :=
  if c = 1#3 then .invalidSync
  else if c = 2#3 then .transportError
  else if c = 3#3 then .scrambled
  else if c = 4#3 then .orphan
  else if c = 5#3 then .discontinuity
  else .lengthNotMultiple

/-- The event that beats with these fields and these bytes belong to (R75, R91). -/
def Event.ofFields (kind err : BitVec 3) (pid : Option Pid) (count : Nat) (data : List Byte) : Event :=
  if kind = 0#3 then .run data
  else if kind = 1#3 then .discard count
  else if kind = 2#3 then .raw (pid.getD 0) data
  else if kind = 3#3 then .unit (pid.getD 0) data
  else .err (.ofCode err) pid

theorem ErrKind.ofCode_code (k : ErrKind) : ErrKind.ofCode k.code = k := by
  cases k <;> rfl

theorem Event.ofFields_eq (e : Event) : Event.ofFields e.kindCode e.errCode e.pid? e.count e.data = e := by
  cases e with
  | err k p => exact congrArg (Event.err · p) k.ofCode_code
  | _ => rfl

/-! ### The beats of one event -/

/-- The number of an event's bytes is told by its kind and its count: a discard alone counts bytes that it does not
carry. -/
theorem Event.data_length (e : Event) : e.data.length = if e.kindCode = 1#3 then 0 else e.count := by
  cases e <;> rfl

theorem Event.dataBeats_length (e : Event) (ds : List Byte) : (e.dataBeats ds).length = ds.length := by
  induction ds with
  | nil => rfl
  | cons d ds ih => simp [Event.dataBeats, ih]

theorem Event.dataBeats_map_data (e : Event) (ds : List Byte) : (e.dataBeats ds).map (·.data) = ds := by
  induction ds with
  | nil => rfl
  | cons d ds ih => simp [Event.dataBeats, Event.beat, ih]

theorem Event.beats_length (e : Event) : e.beats.length = max 1 e.data.length := by
  unfold Event.beats
  split
  next h => simp [List.isEmpty_iff.1 h]
  next h =>
    have hpos : 0 < e.data.length := List.length_pos_iff.2 (by simpa using h)
    rw [Event.dataBeats_length]
    omega

/-- Beats of two events with equally many bytes carry the same bytes only if the events do. -/
theorem Event.data_eq_of_beats_eq {e f : Event} (hlen : e.data.length = f.data.length) (h : e.beats = f.beats) :
    e.data = f.data := by
  by_cases he : e.data = []
  · rw [he] at hlen ⊢
    exact (List.length_eq_zero_iff.1 hlen.symm).symm
  · have hf : f.data ≠ [] := fun hf => he (List.length_eq_zero_iff.1 (by simpa [hf] using hlen))
    have hmap : e.beats.map (·.data) = f.beats.map (·.data) := congrArg _ h
    simpa [Event.beats, he, hf, Event.dataBeats_map_data] using hmap

/-- Every event has a first beat, which holds the event's fields. -/
theorem Event.exists_beats_eq_cons (e : Event) : ∃ d l bs, e.beats = e.beat d l :: bs := by
  unfold Event.beats
  split
  next => exact ⟨_, _, _, rfl⟩
  next h =>
    obtain ⟨d, ds, hd⟩ := List.exists_cons_of_ne_nil (by simpa using h : e.data ≠ [])
    exact ⟨_, _, _, by rw [hd]; rfl⟩

/-- A PID and whether it is valid tell whether there is one, and which. -/
theorem option_eq_of_getD_isSome : ∀ {p q : Option Pid}, p.getD 0 = q.getD 0 → p.isSome = q.isSome → p = q
  | none, none, _, _ => rfl
  | some _, some _, hget, _ => congrArg some hget

/-! ### The beats of a list of events -/

/-- Where two sequences of beats begin with an event each and are the same, the events are and so is the rest. -/
theorem Event.beats_append_inj {e f : Event} {bs cs : List EvtBeat} (h : e.beats ++ bs = f.beats ++ cs) :
    e = f ∧ bs = cs := by
  obtain ⟨d, l, es, he⟩ := e.exists_beats_eq_cons
  obtain ⟨d', l', fs, hf⟩ := f.exists_beats_eq_cons
  have hfirst : e.beat d l = f.beat d' l' := by
    rw [he, hf] at h
    exact (List.cons.inj h).1
  obtain ⟨hkind, herr, hpid, hpidv, hcount, -⟩ := EvtBeat.mk.inj hfirst
  have hlen : e.data.length = f.data.length := by rw [e.data_length, f.data_length, hkind, hcount]
  obtain ⟨hbeats, hrest⟩ := List.append_inj h (by rw [e.beats_length, f.beats_length, hlen])
  refine ⟨?_, hrest⟩
  rw [← e.ofFields_eq, ← f.ofFields_eq, hkind, herr, option_eq_of_getD_isSome hpid hpidv, hcount,
    Event.data_eq_of_beats_eq hlen hbeats]

theorem Event.beats_ne_nil (e : Event) : e.beats ≠ [] := by
  obtain ⟨d, l, bs, he⟩ := e.exists_beats_eq_cons
  simp [he]

theorem evtStream_cons (e : Event) (es : List Event) : evtStream (e :: es) = e.beats ++ evtStream es := rfl

/-- No two lists of events give the same beats. -/
theorem evtStream_injective : Function.Injective evtStream := by
  intro es
  induction es with
  | nil =>
    intro fs h
    cases fs with
    | nil => rfl
    | cons f fs => exact absurd (List.append_eq_nil_iff.1 h.symm).1 f.beats_ne_nil
  | cons e es ih =>
    intro fs h
    cases fs with
    | nil => exact absurd (List.append_eq_nil_iff.1 h).1 e.beats_ne_nil
    | cons f fs =>
      obtain ⟨rfl, hrest⟩ := Event.beats_append_inj h
      rw [ih hrest]

/-- Settles O13: the beats determine the events, of R75's shapes or not. -/
theorem eventStreamIsUnambiguous : Obligations.EventStreamIsUnambiguous :=
  fun _ _ _ _ h => evtStream_injective h

end Sys2Proof.Machine
end

section
/-! SUPPORT. The encodings against their decoder (R51, R70 to R74, R76, R79, R80): reading what was put together gives
the parts back, putting together what was read gives the whole back, and so decoder and encoder are inverse to each
other on every format. -/

namespace Sys2Proof

/-! ### Words and their parts -/

/-- A concatenation as a number. -/
theorem toNat_append_eq_add {m n : Nat} (x : BitVec m) (y : BitVec n) :
    (x ++ y).toNat = x.toNat * 2 ^ n + y.toNat := by
  rw [BitVec.toNat_append, ← Nat.shiftLeft_add_eq_or_of_lt y.isLt, Nat.shiftLeft_eq]

/-- A word is its upper bits followed by its lower bits. -/
theorem extractLsb'_append_extractLsb' {m n : Nat} (x : BitVec (m + n)) :
    x.extractLsb' n m ++ x.extractLsb' 0 n = x := by
  rw [BitVec.extractLsb'_append_extractLsb'_eq_extractLsb' (Nat.zero_add n).symm, BitVec.extractLsb'_eq_self]

/-- A field of a word has a value if it has it bit by bit. -/
theorem extractLsb'_eq_iff {w n s : Nat} {x : BitVec w} {v : BitVec n} :
    x.extractLsb' s n = v ↔ ∀ i < n, x.getLsbD (s + i) = v.getLsbD i := by
  constructor
  · rintro rfl i hi
    simp [hi]
  · intro h
    apply BitVec.eq_of_getLsbD_eq
    intro i hi
    simp [hi, h i hi]

/-! ### The header word -/

theorem headerWord_toNat (b0 b1 b2 b3 : Byte) :
    (headerWord b0 b1 b2 b3).toNat = b0.toNat * 2 ^ 24 + b1.toNat * 2 ^ 16 + b2.toNat * 2 ^ 8 + b3.toNat := by
  simp only [headerWord, toNat_append_eq_add]
  omega

/-- Bit `i` of the header word is in the byte at offset `3 - i / 8`: the word is big-endian (R51). -/
theorem headerWord_getLsbD (b0 b1 b2 b3 : Byte) (i : Nat) :
    (headerWord b0 b1 b2 b3).getLsbD i =
      if i < 8 then b3.getLsbD i else if i < 16 then b2.getLsbD (i - 8)
      else if i < 24 then b1.getLsbD (i - 16) else b0.getLsbD (i - 24) := by
  unfold headerWord
  rw [BitVec.getLsbD_append, BitVec.getLsbD_append, BitVec.getLsbD_append]
  grind

/-- R76, R137: the fields of the header word are these bits of the four bytes. -/
theorem parseHeader_headerWord (b0 b1 b2 b3 : Byte) :
    parseHeader (headerWord b0 b1 b2 b3) =
      { sync := b0, tei := b1.getLsbD 7, pusi := b1.getLsbD 6, tp := b1.getLsbD 5,
        pid := b1.extractLsb' 0 5 ++ b2, sc := b3.extractLsb' 6 2, hasAf := b3.getLsbD 5,
        hasPl := b3.getLsbD 4, cc := b3.extractLsb' 0 4 } := by
  simp only [parseHeader, Header.mk.injEq, extractLsb'_eq_iff, headerWord_getLsbD]
  refine ⟨?sync, rfl, rfl, rfl, ?pid, ?sc, rfl, rfl, ?cc⟩ <;> intro i hi
  case sync => grind
  case pid => rw [BitVec.getLsbD_append, BitVec.getLsbD_extractLsb']; grind
  case sc => rw [BitVec.getLsbD_extractLsb']; grind
  case cc => rw [BitVec.getLsbD_extractLsb']; grind

/-- Byte 1 of a header: three flags and the upper bits of the PID (R76). -/
def flagsByte (tei pusi tp : Bool) (pidHigh : BitVec 5) : Byte :=
  BitVec.ofBool tei ++ BitVec.ofBool pusi ++ BitVec.ofBool tp ++ pidHigh

/-- Byte 3 of a header: the scrambling control, the two payload flags and the counter (R76). -/
def controlByte (sc : BitVec 2) (hasAf hasPl : Bool) (cc : Cc) : Byte :=
  sc ++ BitVec.ofBool hasAf ++ BitVec.ofBool hasPl ++ cc

theorem Header.bytes_eq (h : Header) : h.bytes =
    [h.sync, flagsByte h.tei h.pusi h.tp (h.pid.extractLsb' 8 5), h.pid.extractLsb' 0 8,
      controlByte h.sc h.hasAf h.hasPl h.cc] := rfl

theorem flagsByte_getLsbD (tei pusi tp : Bool) (pidHigh : BitVec 5) {i : Nat} (hi : i < 8) :
    (flagsByte tei pusi tp pidHigh).getLsbD i =
      if i < 5 then pidHigh.getLsbD i else if i = 5 then tp else if i = 6 then pusi else tei := by
  unfold flagsByte
  have htop : i - 5 - 1 - 1 = 0 := by omega
  rw [BitVec.getLsbD_append, BitVec.getLsbD_append, BitVec.getLsbD_append, htop]
  simp only [BitVec.getLsbD_ofBool]
  grind

theorem controlByte_getLsbD (sc : BitVec 2) (hasAf hasPl : Bool) (cc : Cc) (i : Nat) :
    (controlByte sc hasAf hasPl cc).getLsbD i =
      if i < 4 then cc.getLsbD i else if i = 4 then hasPl else if i = 5 then hasAf else sc.getLsbD (i - 6) := by
  unfold controlByte
  rw [BitVec.getLsbD_append, BitVec.getLsbD_append, BitVec.getLsbD_append]
  simp only [BitVec.getLsbD_ofBool]
  grind

theorem flagsByte_eta (b : Byte) :
    flagsByte (b.getLsbD 7) (b.getLsbD 6) (b.getLsbD 5) (b.extractLsb' 0 5) = b := by
  apply BitVec.eq_of_getLsbD_eq
  intro i hi
  rw [flagsByte_getLsbD _ _ _ _ hi, BitVec.getLsbD_extractLsb']
  grind

theorem controlByte_eta (b : Byte) :
    controlByte (b.extractLsb' 6 2) (b.getLsbD 5) (b.getLsbD 4) (b.extractLsb' 0 4) = b := by
  apply BitVec.eq_of_getLsbD_eq
  intro i hi
  rw [controlByte_getLsbD, BitVec.getLsbD_extractLsb', BitVec.getLsbD_extractLsb']
  grind

/-- The four bytes of a header, read again, are the header. -/
theorem parseHeader_bytes (h : Header) :
    parseHeader (headerWord h.sync (flagsByte h.tei h.pusi h.tp (h.pid.extractLsb' 8 5)) (h.pid.extractLsb' 0 8)
      (controlByte h.sc h.hasAf h.hasPl h.cc)) = h := by
  have hflags : (flagsByte h.tei h.pusi h.tp (h.pid.extractLsb' 8 5)).extractLsb' 0 5 = h.pid.extractLsb' 8 5 :=
    BitVec.extractLsb'_append_eq_right
  have hpid : h.pid.extractLsb' 8 5 ++ h.pid.extractLsb' 0 8 = h.pid :=
    extractLsb'_append_extractLsb' (m := 5) (n := 8) h.pid
  have hcc : (controlByte h.sc h.hasAf h.hasPl h.cc).extractLsb' 0 4 = h.cc := BitVec.extractLsb'_append_eq_right
  have hsc : (controlByte h.sc h.hasAf h.hasPl h.cc).extractLsb' 6 2 = h.sc := by
    rw [extractLsb'_eq_iff]
    intro i hi
    rw [controlByte_getLsbD]
    grind
  rw [parseHeader_headerWord, hflags, hpid, hcc, hsc]
  simp only [controlByte_getLsbD]
  rw [flagsByte_getLsbD _ _ _ _ (by decide), flagsByte_getLsbD _ _ _ _ (by decide),
    flagsByte_getLsbD _ _ _ _ (by decide)]
  rfl

/-- The bytes of the header that four bytes read as are the four bytes. -/
theorem bytes_parseHeader (b0 b1 b2 b3 : Byte) :
    (parseHeader (headerWord b0 b1 b2 b3)).bytes = [b0, b1, b2, b3] := by
  have hhigh : (b1.extractLsb' 0 5 ++ b2).extractLsb' 8 5 = b1.extractLsb' 0 5 := BitVec.extractLsb'_append_eq_left
  have hlow : (b1.extractLsb' 0 5 ++ b2).extractLsb' 0 8 = b2 := BitVec.extractLsb'_append_eq_right
  rw [parseHeader_headerWord, Header.bytes_eq, hhigh, hlow, flagsByte_eta, controlByte_eta]

/-- Settles O6: the word as a number, and its fields byte by byte. -/
theorem headerFieldsOfBytes : Obligations.HeaderFieldsOfBytes := by
  intro b0 b1 b2 b3
  rw [parseHeader_headerWord]
  refine ⟨headerWord_toNat b0 b1 b2 b3, rfl, rfl, rfl, rfl, ?pid, ?sc, rfl, rfl, ?cc⟩
  case pid => exact (toNat_append_eq_add _ _).trans (by simp)
  case sc =>
    simp [BitVec.extractLsb'_toNat, Nat.shiftRight_eq_div_pow]
    omega
  case cc => simp

/-! ### Packets -/

theorem parsePacket_bytes (p : Packet) : parsePacket p.bytes = p :=
  congrArg (Packet.mk · p.body) (parseHeader_bytes p.header)

theorem bytes_parsePacket {b : List Byte} (h : b.length = 188) : (parsePacket b).bytes = b := by
  obtain _ | ⟨b0, _ | ⟨b1, _ | ⟨b2, _ | ⟨b3, body⟩⟩⟩⟩ := b
  · simp at h
  · simp at h
  · simp at h
  · simp at h
  · exact congrArg (· ++ body) (bytes_parseHeader b0 b1 b2 b3)

/-! ### Packet classes -/

theorem sc_eq_one_iff (sc : BitVec 2) : sc = 1#2 ↔ sc ≠ 0#2 ∧ sc.getLsbD 1 = false := by
  revert sc
  decide

theorem sc_ne_zero_of_getLsbD {sc : BitVec 2} (h : sc.getLsbD 1 = true) : sc ≠ 0#2 := by
  rintro rfl
  cases h

/-- The class that the steps of R131 find is selected by R80's condition. -/
theorem selects_cls (h : Header) : h.cls.selects h = true := by
  have hone := sc_eq_one_iff h.sc
  unfold Header.cls
  split_ifs <;> simp_all [PacketClass.selects]

/-- A class that R80's condition selects is the one that the steps of R131 find. -/
theorem cls_of_selects {k : PacketClass} {h : Header} (hk : k.selects h = true) : h.cls = k := by
  cases k <;> simp only [PacketClass.selects, Bool.and_eq_true, beq_iff_eq, bne_iff_ne, Bool.not_eq_true'] at hk
  case badsync => simp [Header.cls, hk]
  case tei => simp [Header.cls, hk]
  case scrHi =>
    obtain ⟨⟨hsync, htei⟩, hhi⟩ := hk
    have hsc := sc_ne_zero_of_getLsbD hhi
    simpa [Header.cls, hsync, htei, hsc] using hhi
  case scrLo => simp [Header.cls, hk]
  case nopl => simp [Header.cls, hk]
  case start => simp [Header.cls, hk]
  case cont => simp [Header.cls, hk]

theorem cls_eq_iff {h : Header} {k : PacketClass} : h.cls = k ↔ k.selects h = true :=
  ⟨fun hk => hk ▸ selects_cls h, cls_of_selects⟩

theorem wf_instr (k : PacketClass) (p : Packet) : (k.instr p).wf = (p.wf && k.selects p.header) := by
  cases k <;> rfl

theorem encode_instr (k : PacketClass) (p : Packet) : encode (k.instr p) = .ts p.bytes := by
  cases k <;> rfl

theorem bytes_length_of_wf {p : Packet} (h : p.wf = true) : p.bytes.length = 188 := by
  have hbody : p.body.length = 184 := by simpa [Packet.wf] using h
  simp [Packet.bytes, Header.bytes, hbody]

/-- A well-formed packet of a class decodes to it. -/
theorem decode_encode_instr {k : PacketClass} {p : Packet} (h : (k.instr p).wf = true) :
    decode (encode (k.instr p)) = .ok (k.instr p) := by
  rw [wf_instr, Bool.and_eq_true] at h
  obtain ⟨hp, hk⟩ := h
  rw [encode_instr]
  change decodePacket p.bytes = _
  unfold decodePacket
  rw [if_pos (bytes_length_of_wf hp), parsePacket_bytes, cls_of_selects hk]

/-- Bytes that decode to a packet class are the bytes of a well-formed packet of it. -/
theorem wf_encode_of_decodePacket {b : List Byte} {i : Instr} (h : decodePacket b = .ok i) :
    i.wf = true ∧ encode i = .ts b := by
  unfold decodePacket at h
  split at h
  next hb =>
    cases h
    refine ⟨?_, by rw [encode_instr, bytes_parsePacket hb]⟩
    rw [wf_instr, selects_cls]
    simp [Packet.wf, parsePacket, hb]
  next => cases h

/-! ### The command word -/

theorem cmdOp_cmdWord (op : BitVec 4) (arg : BitVec 13) : cmdOp (cmdWord op arg) = op :=
  BitVec.extractLsb'_append_eq_left

theorem cmdArg_cmdWord (op : BitVec 4) (arg : BitVec 13) : cmdArg (cmdWord op arg) = arg :=
  BitVec.extractLsb'_append_eq_right

theorem cmdWord_cmdOp_cmdArg (w : BitVec 17) : cmdWord (cmdOp w) (cmdArg w) = w :=
  extractLsb'_append_extractLsb' (m := 4) (n := 13) w

theorem cmdWord_toNat (op : BitVec 4) (arg : BitVec 13) : (cmdWord op arg).toNat = op.toNat * 8192 + arg.toNat :=
  toNat_append_eq_add op arg

theorem cmdOp_toNat (w : BitVec 17) : (cmdOp w).toNat = w.toNat / 8192 := by
  have h := cmdWord_toNat (cmdOp w) (cmdArg w)
  rw [cmdWord_cmdOp_cmdArg] at h
  omega

theorem cmdArg_toNat (w : BitVec 17) : (cmdArg w).toNat = w.toNat % 8192 := by
  have h := cmdWord_toNat (cmdOp w) (cmdArg w)
  rw [cmdWord_cmdOp_cmdArg] at h
  omega

/-- A command word is put together from its own `op` and `arg`. -/
theorem cmdWord_eq_of_parts {w : BitVec 17} {op : BitVec 4} {arg : BitVec 13} (hop : (cmdOp w).toNat = op.toNat)
    (harg : cmdArg w = arg) : OpWord.cmd (cmdWord op arg) = .cmd w := by
  rw [← BitVec.eq_of_toNat_eq hop, ← harg, cmdWord_cmdOp_cmdArg]

/-- R79, R86: a flag operand is a bit with twelve zero bits before it. -/
theorem flagOperand_eq_ok_iff {arg : BitVec 13} {b : Bool} :
    flagOperand arg = .ok b ↔ arg = 0#12 ++ BitVec.ofBool b := by
  constructor
  · intro h
    unfold flagOperand at h
    split at h
    next hzero =>
      cases h
      have hbit : BitVec.ofBool (arg.getLsbD 0) = arg.extractLsb' 0 1 := by
        rw [eq_comm, extractLsb'_eq_iff]
        simp
      rw [← hzero, hbit]
      exact (extractLsb'_append_extractLsb' (m := 12) (n := 1) arg).symm
    next => cases h
  · rintro rfl
    cases b <;> rfl

/-- R79, R86: a threshold operand is a nonzero byte with five zero bits before it. -/
theorem thresholdOperand_eq_ok_iff {arg : BitVec 13} {n : BitVec 8} :
    thresholdOperand arg = .ok n ↔ n ≠ 0#8 ∧ arg = 0#5 ++ n := by
  constructor
  · intro h
    unfold thresholdOperand at h
    split at h
    next => cases h
    next hzero =>
      split at h
      next => cases h
      next hn =>
        cases h
        refine ⟨hn, ?_⟩
        rw [← not_not.1 hzero]
        exact (extractLsb'_append_extractLsb' (m := 5) (n := 8) arg).symm
  · rintro ⟨hn, rfl⟩
    unfold thresholdOperand
    rw [BitVec.extractLsb'_append_eq_left, BitVec.extractLsb'_append_eq_right]
    simp [hn]

theorem exceptMap_eq_ok {ε α β : Type} {x : Except ε α} {f : α → β} {y : β} (h : x.map f = .ok y) :
    ∃ a, x = .ok a ∧ f a = y := by
  cases x with
  | error e => cases h
  | ok a => cases h; exact ⟨a, rfl, rfl⟩

/-- A command word that decodes is the word of a well-formed instruction. -/
theorem wf_encode_of_decodeCmd {w : BitVec 17} {i : Instr} (h : decodeCmd w = .ok i) :
    i.wf = true ∧ encode i = .cmd w := by
  unfold decodeCmd at h
  split at h
  next hop => cases h; exact ⟨rfl, cmdWord_eq_of_parts hop rfl⟩
  next hop => cases h; exact ⟨rfl, cmdWord_eq_of_parts hop rfl⟩
  next hop => cases h; exact ⟨rfl, cmdWord_eq_of_parts hop rfl⟩
  next hop => cases h; exact ⟨rfl, cmdWord_eq_of_parts hop rfl⟩
  next hop =>
    obtain ⟨b, hb, rfl⟩ := exceptMap_eq_ok h
    exact ⟨rfl, cmdWord_eq_of_parts hop (flagOperand_eq_ok_iff.1 hb)⟩
  next hop =>
    obtain ⟨b, hb, rfl⟩ := exceptMap_eq_ok h
    exact ⟨rfl, cmdWord_eq_of_parts hop (flagOperand_eq_ok_iff.1 hb)⟩
  next hop =>
    obtain ⟨n, hn, rfl⟩ := exceptMap_eq_ok h
    obtain ⟨hne, harg⟩ := thresholdOperand_eq_ok_iff.1 hn
    exact ⟨bne_iff_ne.2 hne, cmdWord_eq_of_parts hop harg⟩
  next => cases h

/-! ### All formats -/

/-- Settles O2: a command word is read by its parts, a packet by its bytes and its class. -/
theorem decodeOfEncodeIsInstruction : Obligations.DecodeOfEncodeIsInstruction := by
  intro i hi
  cases i with
  | swrite c => rfl
  | dwrite c => rfl
  | setn n =>
    have hn := thresholdOperand_eq_ok_iff.2 ⟨bne_iff_ne.1 hi, rfl⟩
    simp [encode, decode, decodeCmd, cmdOp_cmdWord, cmdArg_cmdWord, hn, Except.map]
  | addf p => simp [encode, decode, decodeCmd, cmdOp_cmdWord, cmdArg_cmdWord]
  | rmf p => simp [encode, decode, decodeCmd, cmdOp_cmdWord, cmdArg_cmdWord]
  | addp p => simp [encode, decode, decodeCmd, cmdOp_cmdWord, cmdArg_cmdWord]
  | rmp p => simp [encode, decode, decodeCmd, cmdOp_cmdWord, cmdArg_cmdWord]
  | setfall b => cases b <;> rfl
  | setpall b => cases b <;> rfl
  | reset => rfl
  | pBadsync p => exact decode_encode_instr (k := .badsync) hi
  | pTei p => exact decode_encode_instr (k := .tei) hi
  | pScrHi p => exact decode_encode_instr (k := .scrHi) hi
  | pScrLo p => exact decode_encode_instr (k := .scrLo) hi
  | pNopl p => exact decode_encode_instr (k := .nopl) hi
  | pStart p => exact decode_encode_instr (k := .start) hi
  | pCont p => exact decode_encode_instr (k := .cont) hi

/-- Settles O3, format by format. -/
theorem encodeOfDecodeIsWord : Obligations.EncodeOfDecodeIsWord := by
  intro w i h
  cases w with
  | data inDest chunk => cases inDest <;> cases h <;> exact ⟨rfl, rfl⟩
  | cmd word => exact wf_encode_of_decodeCmd h
  | pin => cases h; exact ⟨rfl, rfl⟩
  | ts bytes => exact wf_encode_of_decodePacket h

/-- Decoder and encoder are inverse to each other on the well-formed instructions. -/
theorem decode_eq_ok_iff {w : OpWord} {i : Instr} : decode w = .ok i ↔ i.wf = true ∧ encode i = w :=
  ⟨encodeOfDecodeIsWord w i, fun ⟨hi, he⟩ => he ▸ decodeOfEncodeIsInstruction i hi⟩

/-! ### The command map -/

theorem cmd_cmdWord_eq_iff {op : BitVec 4} {arg : BitVec 13} {w : BitVec 17} :
    OpWord.cmd (cmdWord op arg) = .cmd w ↔ w.toNat = op.toNat * 8192 + arg.toNat := by
  rw [OpWord.cmd.injEq, ← BitVec.toNat_inj, cmdWord_toNat, eq_comm]

/-- A word whose `op` the command map does not list is rejected (R86). -/
theorem decodeCmd_reservedOp {w : BitVec 17} (h : w.toNat / 8192 = 0 ∨ 8 ≤ w.toNat / 8192) :
    decodeCmd w = .error .reservedOp := by
  rw [← cmdOp_toNat] at h
  unfold decodeCmd
  split
  case h_8 => rfl
  all_goals omega

/-- Settles O4: a word decodes to an instruction exactly if it is the instruction's word, which is read as a number. -/
theorem commandWordMap : Obligations.CommandWordMap := by
  intro w
  have map : ∀ i, decode (.cmd w) = .ok i ↔ i.wf = true ∧ encode i = .cmd w := fun _ => decode_eq_ok_iff
  simp only [map, encode, cmd_cmdWord_eq_iff, Instr.wf, toNat_append_eq_add]
  refine ⟨?_, ?_, ?_, ?_, ?_, ?_, ?_, decodeCmd_reservedOp⟩
  all_goals simp

end Sys2Proof
end

section
/-! SUPPORT. What the edges of the waveform become (R89, R90, R92): one edge completes the step's operation, is refused
(R178), or begins a chunk that later edges complete. -/

namespace Sys2Proof.Machine

variable {s : State} {e : Edge} {es : List Edge} {w : OpWord} {c c' : Option PartChunk}

/-! ### The first edge -/

theorem nextOp_of_completed (h : portEdge c e = (some w, c')) : nextOp c (e :: es) = (some w, c', es) := by
  simp [nextOp, h]

theorem nextOp_of_waiting (h : portEdge c e = (none, c')) : nextOp c (e :: es) = nextOp c' es := by
  simp [nextOp, h]

/-- Where the ports complete a word that decodes, the step is its instruction, from the state they leave. -/
theorem step_of_nextOp {i : Instr} (h : nextOp s.part s.wires = (some w, c', es)) (hd : decode w = .ok i) :
    step s = exec i { s with part := c', wires := es } := by
  rw [step_of_decode (by rw [h]) hd, State.afterPorts, h]

/-- A step that completes a word which does not decode is refused (R178). -/
theorem step_of_reject (h : (nextOp s.part s.wires).1 = some w) (hd : ∀ i, decode w ≠ .ok i) :
    step s = .refused .illegalCommand := by
  cases hw : decode w with
  | ok i => exact absurd hw (hd i)
  | error r => simp [step, h, hw]

theorem portEdge_of_rst (h : e.rst = true) : portEdge c e = (some .pin, none) := by
  simp [portEdge, h]

theorem portEdge_idle_cmd (word : BitVec 17) (beat : Option InBeat) :
    portEdge none ⟨false, some word, beat⟩ = (some (.cmd word), none) := rfl

/-- With a chunk begun the beat is taken, whatever command is offered (log entry 23). -/
theorem portEdge_begun_beat (p : PartChunk) (cmd : Option (BitVec 17)) (b : InBeat) :
    portEdge (some p) ⟨false, cmd, some b⟩ = takeBeat (some p) b := by
  simp [portEdge, cmdReady, inReady]

theorem takeBeat_begun_last (p : PartChunk) (d : Byte) (dest : Bool) :
    takeBeat (some p) ⟨d, true, dest⟩ = (some (.data p.dest (p.bytes ++ [d])), none) := rfl

theorem takeBeat_begun_more (p : PartChunk) (d : Byte) (dest : Bool) :
    takeBeat (some p) ⟨d, false, dest⟩ = (none, some ⟨p.dest, p.bytes ++ [d]⟩) := rfl

theorem decode_data (dest : Bool) (bytes : List Byte) :
    decode (.data dest bytes) = .ok (if dest then .dwrite bytes else .swrite bytes) := by
  cases dest <;> rfl

/-- Settles O9: each clause is what the first edge completes. -/
theorem commandBeforeChunkAtIdleEdge : Obligations.CommandBeforeChunkAtIdleEdge := by
  refine ⟨fun s e es hwires hrst => ?_, fun s word b es i hpart hwires hd => ?_,
    fun s p word b es hpart hwires hlast => ?_⟩
  · refine step_of_nextOp (w := .pin) ?_ rfl
    rw [hwires]
    exact nextOp_of_completed (portEdge_of_rst hrst)
  · have hstep : step s = exec i { s with part := none, wires := es } := by
      refine step_of_nextOp ?_ hd
      rw [hpart, hwires]
      exact nextOp_of_completed (portEdge_idle_cmd word b)
    rw [hstep, ← hpart]
  · obtain ⟨d, last, dest⟩ := b
    obtain rfl : last = true := hlast
    refine step_of_nextOp ?_ (decode_data _ _)
    rw [hpart, hwires]
    exact nextOp_of_completed (portEdge_begun_beat p word _)

/-! ### Illegal command words -/

theorem exists_bool_toNat_eq {n : Nat} (h : n < 2) : ∃ b : Bool, b.toNat = n := by
  obtain rfl | rfl : n = 0 ∨ n = 1 := by omega
  · exact ⟨false, rfl⟩
  · exact ⟨true, rfl⟩

/-- R86: the words that the command map leaves out. -/
theorem decode_cmd_rejects_iff (w : BitVec 17) :
    (∀ i, decode (.cmd w) ≠ .ok i) ↔
      w.toNat / 8192 = 0 ∨ 8 ≤ w.toNat / 8192 ∨
      ((w.toNat / 8192 = 5 ∨ w.toNat / 8192 = 6) ∧ 2 ≤ w.toNat % 8192) ∨
      (w.toNat / 8192 = 7 ∧ (256 ≤ w.toNat % 8192 ∨ w.toNat % 256 = 0)) := by
  obtain ⟨haddf, hrmf, haddp, hrmp, hsetfall, hsetpall, hsetn, -⟩ := commandWordMap w
  constructor
  · intro h
    by_contra hlegal
    have hop : w.toNat / 8192 = 1 ∨ w.toNat / 8192 = 2 ∨ w.toNat / 8192 = 3 ∨ w.toNat / 8192 = 4 ∨
        w.toNat / 8192 = 5 ∨ w.toNat / 8192 = 6 ∨ w.toNat / 8192 = 7 := by omega
    have harg := cmdArg_toNat w
    rcases hop with hop | hop | hop | hop | hop | hop | hop
    · exact h _ ((haddf (cmdArg w)).2 (by omega))
    · exact h _ ((hrmf (cmdArg w)).2 (by omega))
    · exact h _ ((haddp (cmdArg w)).2 (by omega))
    · exact h _ ((hrmp (cmdArg w)).2 (by omega))
    · obtain ⟨b, hb⟩ := exists_bool_toNat_eq (n := w.toNat % 8192) (by omega)
      exact h _ ((hsetfall b).2 (by omega))
    · obtain ⟨b, hb⟩ := exists_bool_toNat_eq (n := w.toNat % 8192) (by omega)
      exact h _ ((hsetpall b).2 (by omega))
    · have hn : (BitVec.ofNat 8 w.toNat).toNat = w.toNat % 256 := BitVec.toNat_ofNat _ _
      refine h _ ((hsetn (BitVec.ofNat 8 w.toNat)).2 ⟨?_, by omega⟩)
      intro hzero
      rw [hzero] at hn
      simp at hn
      omega
  · intro hillegal i hd
    have hbool : ∀ b : Bool, b.toNat < 2 := Bool.toNat_lt
    rcases decodeCmd_eq_ok hd with ⟨p, rfl⟩ | ⟨p, rfl⟩ | ⟨p, rfl⟩ | ⟨p, rfl⟩ | ⟨b, rfl⟩ | ⟨b, rfl⟩ | ⟨n, rfl⟩
    · have := (haddf p).1 hd; omega
    · have := (hrmf p).1 hd; omega
    · have := (haddp p).1 hd; omega
    · have := (hrmp p).1 hd; omega
    · have := (hsetfall b).1 hd; have := hbool b; omega
    · have := (hsetpall b).1 hd; have := hbool b; omega
    · obtain ⟨hne, hw⟩ := (hsetn n).1 hd
      have hpos : n.toNat ≠ 0 := fun h0 => hne (BitVec.eq_of_toNat_eq h0)
      omega

/-- Settles O5: the words by their numbers, the step by its first edge. -/
theorem illegalCommandsAreRefused : Obligations.IllegalCommandsAreRefused := by
  intro w
  refine ⟨decode_cmd_rejects_iff w, fun s es hpart hwires hd => ?_⟩
  refine step_of_reject ?_ hd
  rw [hpart, hwires]
  exact congrArg Prod.fst (nextOp_of_completed (portEdge_idle_cmd w none))

/-! ### Chunks -/

/-- The first beat begins a chunk as if one without bytes had begun, with that beat's destination. -/
theorem portEdge_idle_beat (b : InBeat) :
    portEdge none (Edge.ofBeat b) = portEdge (some ⟨b.dest, []⟩) (Edge.ofBeat b) := rfl

/-- The beats left of a chunk complete it, whatever `in_dest` shows on them. -/
theorem nextOp_beatsOf_begun {bytes : List Byte} (hne : bytes ≠ []) (p : PartChunk) (dests : List Bool) :
    nextOp (some p) ((beatsOf bytes dests).map Edge.ofBeat ++ es) =
      (some (.data p.dest (p.bytes ++ bytes)), none, es) := by
  induction bytes generalizing p dests with
  | nil => exact absurd rfl hne
  | cons d bytes ih =>
    have hedge := portEdge_begun_beat p none ⟨d, bytes.isEmpty, dests.headD false⟩
    cases bytes with
    | nil => exact nextOp_of_completed hedge
    | cons d' bytes =>
      refine (nextOp_of_waiting hedge).trans ((ih (by simp) _ _).trans ?_)
      simp

/-- The beats of a chunk complete it, with the destination of the first. -/
theorem nextOp_beatsOf_idle {bytes : List Byte} (hne : bytes ≠ []) (dests : List Bool) :
    nextOp none ((beatsOf bytes dests).map Edge.ofBeat ++ es) =
      (some (.data (dests.headD false) bytes), none, es) := by
  have hbegun := nextOp_beatsOf_begun (es := es) hne ⟨dests.headD false, []⟩ dests
  cases bytes with
  | nil => exact absurd rfl hne
  | cons d bytes => exact hbegun

/-- Settles O10: the beats complete one `DATA` word, which decodes to the write. -/
theorem beatsFormOneWrite : Obligations.BeatsFormOneWrite := by
  intro s bytes dests es hpart hne hwires
  have hstep : step s = exec (if dests.headD false then .dwrite bytes else .swrite bytes)
      { s with part := none, wires := es } := by
    refine step_of_nextOp ?_ (decode_data _ _)
    rw [hpart, hwires]
    exact nextOp_beatsOf_idle hne dests
  rw [hstep, ← hpart]

end Sys2Proof.Machine
end

section
/-! SUPPORT. What leaves the `EVT` port (R91): the beats of one event, and a queue of beats under any `ev_ready`. -/

namespace Sys2Proof.Machine

/-! ### The beats of one event -/

theorem Event.beats_of_data_ne_nil {e : Event} (h : e.data ≠ []) : e.beats = e.dataBeats e.data := by
  simp [Event.beats, h]

theorem Event.beats_of_data_eq_nil {e : Event} (h : e.data = []) : e.beats = [e.beat none true] := by
  simp [Event.beats, h]

/-- Every data beat carries one byte and the event's fields. -/
theorem Event.eq_beat_of_mem_dataBeats {e : Event} {ds : List Byte} {b : EvtBeat} (h : b ∈ e.dataBeats ds) :
    ∃ d l, b = e.beat (some d) l := by
  induction ds with
  | nil => simp [Event.dataBeats] at h
  | cons d ds ih =>
    rcases List.mem_cons.1 h with rfl | h
    · exact ⟨d, _, rfl⟩
    · exact ih h

/-- An event that carries bytes has one beat a byte, in order, each with the event's fields. -/
theorem Event.beats_carry_data {e : Event} (h : e.data ≠ []) :
    e.beats.length = e.data.length ∧ e.beats.map (·.data) = e.data ∧
      ∀ b ∈ e.beats, b.kind = e.kindCode ∧ b.dv = true ∧ b.count = e.count ∧ b.pidv = e.pid?.isSome ∧
        b.pid = e.pid?.getD 0 ∧ b.err = e.errCode := by
  rw [Event.beats_of_data_ne_nil h]
  refine ⟨e.dataBeats_length _, e.dataBeats_map_data _, fun b hb => ?_⟩
  obtain ⟨d, l, rfl⟩ := Event.eq_beat_of_mem_dataBeats hb
  exact ⟨rfl, rfl, rfl, rfl, rfl, rfl⟩

/-- The last data beat, and no other, is marked last. -/
theorem Event.dataBeats_last (e : Event) {ds : List Byte} (h : ds ≠ []) :
    ∃ bs b, e.dataBeats ds = bs ++ [b] ∧ b.last = true ∧ ∀ a ∈ bs, a.last = false := by
  induction ds with
  | nil => exact absurd rfl h
  | cons d ds ih =>
    cases ds with
    | nil => exact ⟨[], _, rfl, rfl, by simp⟩
    | cons d' ds =>
      obtain ⟨bs, b, hbs, hb, hlast⟩ := ih (by simp)
      refine ⟨e.beat (some d) false :: bs, b, congrArg _ hbs, hb, ?_⟩
      exact List.forall_mem_cons.2 ⟨rfl, hlast⟩

theorem Event.beats_last (e : Event) :
    ∃ bs b, e.beats = bs ++ [b] ∧ b.last = true ∧ ∀ a ∈ bs, a.last = false := by
  by_cases h : e.data = []
  · exact ⟨[], _, Event.beats_of_data_eq_nil h, rfl, by simp⟩
  · rw [Event.beats_of_data_ne_nil h]
    exact e.dataBeats_last h

/-- Settles O12: an event with bytes has the beats of its bytes, any other has one, and each holds the event's
fields. -/
theorem eventBeatsCarryTheEvent : Obligations.EventBeatsCarryTheEvent :=
  ⟨fun d hd => Event.beats_carry_data (e := .run d) hd,
    fun _ => ⟨_, rfl, rfl, rfl, rfl, rfl, rfl, rfl, rfl⟩,
    fun p d hd => Event.beats_carry_data (e := .raw p d) hd,
    fun p d hd => Event.beats_carry_data (e := .unit p d) hd,
    fun _ => ⟨_, rfl, rfl, rfl, rfl, rfl, rfl, rfl, rfl⟩,
    fun _ _ => ⟨_, rfl, rfl, rfl, rfl, rfl, rfl, rfl, rfl⟩,
    fun _ => ⟨_, rfl, rfl, rfl, rfl, rfl, rfl, rfl, rfl⟩,
    Event.beats_last⟩

/-! ### A queue of beats -/

/-- What has left and what is still to come are the queue. -/
theorem deliver_append (ready : List Bool) (q : List EvtBeat) : (deliver ready q).1 ++ (deliver ready q).2 = q := by
  induction ready generalizing q with
  | nil => rfl
  | cons r ready ih =>
    cases r with
    | false => exact ih q
    | true =>
      cases q with
      | nil => exact ih []
      | cons b q => exact congrArg (b :: ·) (ih q)

/-- A beat leaves at every ready edge, as long as there is one (log entry 24). -/
theorem deliver_length (ready : List Bool) (q : List EvtBeat) :
    (deliver ready q).1.length = min (ready.count true) q.length := by
  induction ready generalizing q with
  | nil => simp
  | cons r ready ih =>
    cases r with
    | false => simp [ih]
    | true =>
      cases q with
      | nil => simp [ih]
      | cons b q => simp [ih, Nat.succ_min_succ]

/-- Settles O15: it holds of any queue of beats. -/
theorem stallingChangesNoEvent : Obligations.StallingChangesNoEvent :=
  fun es ready => ⟨deliver_append ready (evtStream es), deliver_length ready (evtStream es)⟩

end Sys2Proof.Machine
end

section
/-! SUPPORT. The opcode table's rows by match and mask (R80): a header word equals a row's match under the row's mask
exactly if the fields that the mask covers do. -/

namespace Sys2Proof

/-! ### Masks -/

/-- Two words agree under a mask exactly if they agree at each of its bits. -/
theorem and_eq_and_iff {w : Nat} {h v m : BitVec w} :
    h &&& m = v &&& m ↔ ∀ i < w, m.getLsbD i = true → h.getLsbD i = v.getLsbD i := by
  constructor
  · intro e i hi hm
    simpa [hm] using congrArg (·.getLsbD i) e
  · intro e
    apply BitVec.eq_of_getLsbD_eq
    intro i hi
    rw [BitVec.getLsbD_and, BitVec.getLsbD_and]
    cases hm : m.getLsbD i with
    | false => simp
    | true => rw [e i hi hm]

/-- Two words agree under a mask of two parts exactly if they agree under both. -/
theorem and_or_eq_and_or_iff {w : Nat} {h v m m' : BitVec w} :
    h &&& (m ||| m') = v &&& (m ||| m') ↔ h &&& m = v &&& m ∧ h &&& m' = v &&& m' := by
  simp only [and_eq_and_iff, BitVec.getLsbD_or, Bool.or_eq_true, or_imp, forall_and]

/-- The mask of the `n` bits from bit `s` on. -/
def fieldMask (s n : Nat) : BitVec 32 := (BitVec.allOnes n).setWidth 32 <<< s

theorem fieldMask_getLsbD {s n i : Nat} (hi : i < 32) : (fieldMask s n).getLsbD i = true ↔ s ≤ i ∧ i < s + n := by
  simp [fieldMask, hi]
  omega

/-- Two words agree under the mask of a field exactly if the field holds the same in both. -/
theorem and_fieldMask_eq_iff {s n : Nat} (hs : s + n ≤ 32) {h v : BitVec 32} :
    h &&& fieldMask s n = v &&& fieldMask s n ↔ h.extractLsb' s n = v.extractLsb' s n := by
  rw [and_eq_and_iff, extractLsb'_eq_iff]
  constructor
  · intro e i hi
    rw [e (s + i) (by omega) ((fieldMask_getLsbD (by omega)).2 (by omega))]
    simp [hi]
  · intro e i hi hm
    obtain ⟨hlow, hhigh⟩ := (fieldMask_getLsbD hi).1 hm
    have := e (i - s) (by omega)
    rw [BitVec.getLsbD_extractLsb', Nat.add_sub_cancel' hlow] at this
    simpa [show i - s < n by omega] using this

/-- Two words agree under the mask of one bit exactly if the bit is the same in both. -/
theorem and_bitMask_eq_iff {i : Nat} (hi : i < 32) {h v : BitVec 32} :
    h &&& fieldMask i 1 = v &&& fieldMask i 1 ↔ h.getLsbD i = v.getLsbD i := by
  rw [and_fieldMask_eq_iff hi, extractLsb'_eq_iff]
  simp

/-- A row's match has no bit outside the row's mask. -/
theorem and_mask_eq_iff {w : Nat} {h v m : BitVec w} (hv : v &&& m = v) : h &&& m = v ↔ h &&& m = v &&& m := by
  rw [hv]

section Rows

variable (h v : BitVec 32)

/-! ### The fields of the header word under their masks -/

theorem syncMask_iff : h &&& 0xFF000000#32 = v &&& 0xFF000000#32 ↔ (parseHeader h).sync = (parseHeader v).sync :=
  and_fieldMask_eq_iff (s := 24) (n := 8) (by decide)

theorem teiMask_iff : h &&& 0x00800000#32 = v &&& 0x00800000#32 ↔ (parseHeader h).tei = (parseHeader v).tei :=
  and_bitMask_eq_iff (i := 23) (by decide)

theorem pusiMask_iff : h &&& 0x00400000#32 = v &&& 0x00400000#32 ↔ (parseHeader h).pusi = (parseHeader v).pusi :=
  and_bitMask_eq_iff (i := 22) (by decide)

theorem scMask_iff : h &&& 0x000000C0#32 = v &&& 0x000000C0#32 ↔ (parseHeader h).sc = (parseHeader v).sc :=
  and_fieldMask_eq_iff (s := 6) (n := 2) (by decide)

theorem scHighMask_iff : h &&& 0x00000080#32 = v &&& 0x00000080#32 ↔
    (parseHeader h).sc.getLsbD 1 = (parseHeader v).sc.getLsbD 1 := by
  have hbit : ∀ u : BitVec 32, (parseHeader u).sc.getLsbD 1 = u.getLsbD 7 := by
    intro u
    unfold parseHeader
    rw [BitVec.getLsbD_extractLsb']
    rfl
  rw [hbit, hbit]
  exact and_bitMask_eq_iff (i := 7) (by decide)

theorem hasPlMask_iff : h &&& 0x00000010#32 = v &&& 0x00000010#32 ↔ (parseHeader h).hasPl = (parseHeader v).hasPl :=
  and_bitMask_eq_iff (i := 4) (by decide)

/-! ### The rows -/

theorem selects_badsync_iff :
    PacketClass.badsync.selects (parseHeader h) = true ↔ h &&& 0xFF000000#32 ≠ 0x47000000#32 := by
  rw [Ne, and_mask_eq_iff (by decide), syncMask_iff]
  exact bne_iff_ne

theorem selects_tei_iff :
    PacketClass.tei.selects (parseHeader h) = true ↔ h &&& 0xFF800000#32 = 0x47800000#32 := by
  have hmask : 0xFF800000#32 = 0xFF000000#32 ||| 0x00800000#32 := by decide
  rw [and_mask_eq_iff (by decide), hmask]
  simp only [and_or_eq_and_or_iff, syncMask_iff, teiMask_iff]
  simp [PacketClass.selects, parseHeader]

theorem selects_scrHi_iff :
    PacketClass.scrHi.selects (parseHeader h) = true ↔ h &&& 0xFF800080#32 = 0x47000080#32 := by
  have hmask : 0xFF800080#32 = 0xFF000000#32 ||| 0x00800000#32 ||| 0x00000080#32 := by decide
  rw [and_mask_eq_iff (by decide), hmask]
  simp only [and_or_eq_and_or_iff, syncMask_iff, teiMask_iff, scHighMask_iff]
  simp [PacketClass.selects, parseHeader]

theorem selects_scrLo_iff :
    PacketClass.scrLo.selects (parseHeader h) = true ↔ h &&& 0xFF8000C0#32 = 0x47000040#32 := by
  have hmask : 0xFF8000C0#32 = 0xFF000000#32 ||| 0x00800000#32 ||| 0x000000C0#32 := by decide
  rw [and_mask_eq_iff (by decide), hmask]
  simp only [and_or_eq_and_or_iff, syncMask_iff, teiMask_iff, scMask_iff]
  simp [PacketClass.selects, parseHeader]

theorem selects_nopl_iff :
    PacketClass.nopl.selects (parseHeader h) = true ↔ h &&& 0xFF8000D0#32 = 0x47000000#32 := by
  have hmask : 0xFF8000D0#32 = 0xFF000000#32 ||| 0x00800000#32 ||| 0x000000C0#32 ||| 0x00000010#32 := by decide
  rw [and_mask_eq_iff (by decide), hmask]
  simp only [and_or_eq_and_or_iff, syncMask_iff, teiMask_iff, scMask_iff, hasPlMask_iff]
  simp [PacketClass.selects, parseHeader]

/-- The mask of the two rows whose packets reach step 8. -/
theorem unitRowMask_eq : 0xFFC000D0#32 =
    0xFF000000#32 ||| 0x00800000#32 ||| 0x000000C0#32 ||| 0x00000010#32 ||| 0x00400000#32 := by decide

theorem selects_start_iff :
    PacketClass.start.selects (parseHeader h) = true ↔ h &&& 0xFFC000D0#32 = 0x47400010#32 := by
  rw [and_mask_eq_iff (by decide), unitRowMask_eq]
  simp only [and_or_eq_and_or_iff, syncMask_iff, teiMask_iff, scMask_iff, hasPlMask_iff, pusiMask_iff]
  simp [PacketClass.selects, parseHeader]

theorem selects_cont_iff :
    PacketClass.cont.selects (parseHeader h) = true ↔ h &&& 0xFFC000D0#32 = 0x47000010#32 := by
  rw [and_mask_eq_iff (by decide), unitRowMask_eq]
  simp only [and_or_eq_and_or_iff, syncMask_iff, teiMask_iff, scMask_iff, hasPlMask_iff, pusiMask_iff]
  simp [PacketClass.selects, parseHeader]

end Rows

/-- Settles O7: the class is the one whose condition selects the header, and each condition is its row's. -/
theorem packetClassesAreTheTablesRows : Obligations.PacketClassesAreTheTablesRows := by
  intro h
  simp only [cls_eq_iff]
  exact ⟨selects_badsync_iff h, selects_tei_iff h, selects_scrHi_iff h, selects_scrLo_iff h, selects_nopl_iff h,
    selects_start_iff h, selects_cont_iff h⟩

end Sys2Proof
end

section
/-! SUPPORT. The payload on the packet's bytes (R78, R84, R152). -/

namespace Sys2Proof.Machine

theorem parsePacket_hasAf (b : List Byte) : (parsePacket b).header.hasAf = (b.getD 3 0).getLsbD 5 := by
  unfold parsePacket
  rw [parseHeader_headerWord]

/-- Where the payload starts, on the packet's bytes (R78). -/
theorem payloadStart_parsePacket (b : List Byte) :
    payloadStart (parsePacket b) = if (b.getD 3 0).getLsbD 5 then 5 + (b.getD 4 0).toNat else 4 := by
  have hafl : (parsePacket b).body.headD 0 = b.getD 4 0 := by simp [parsePacket, List.headD_eq_head?_getD]
  rw [payloadStart, parsePacket_hasAf, hafl]

/-- The payload is what follows its start, if that is within the packet (R152, D12). -/
theorem payload_parsePacket (b : List Byte) :
    payload (parsePacket b) =
      if payloadStart (parsePacket b) ≤ 188 then b.drop (payloadStart (parsePacket b)) else [] := by
  have hstart : 4 ≤ payloadStart (parsePacket b) := by
    unfold payloadStart
    split <;> omega
  have hbody : (parsePacket b).body = b.drop 4 := rfl
  unfold payload
  rw [hbody, List.drop_drop, Nat.add_sub_cancel' hstart]

/-- Settles O29, by where the payload starts. -/
theorem payloadOfPacketBytes : Obligations.PayloadOfPacketBytes := by
  intro b hb
  rw [payload_parsePacket, payloadStart_parsePacket]
  refine ⟨fun hno => ?_, fun haf hle => ?_, fun haf hgt => ?_⟩
  · rw [hno]
    exact ⟨rfl, by simp [hb]⟩
  · rw [if_pos haf, if_pos (by omega), List.length_drop]
    exact ⟨rfl, by omega⟩
  · rw [if_pos haf, if_neg (by omega)]

end Sys2Proof.Machine
end

section
/-! SUPPORT. Every event has the shape of its row of R75, by one relation that the parts of an operation keep. -/

namespace Sys2Proof.Machine

variable {s t u : State}

/-- From `s` to `t` only events of R75's shapes are appended. -/
def EmitsShaped (s t : State) : Prop := ∃ es, t.events = s.events ++ es ∧ ∀ e ∈ es, e.shapeOk = true

namespace EmitsShaped

theorem of_events_eq (h : t.events = s.events) : EmitsShaped s t := ⟨[], by simp [h], by simp⟩

theorem trans (h : EmitsShaped s t) (k : EmitsShaped t u) : EmitsShaped s u := by
  obtain ⟨es, hes, hok⟩ := h
  obtain ⟨fs, hfs, kok⟩ := k
  exact ⟨es ++ fs, by simp [hfs, hes], List.forall_mem_append.2 ⟨hok, kok⟩⟩

theorem of_emit {e : Event} (h : t.events = s.events ++ [e]) (he : e.shapeOk = true) : EmitsShaped s t :=
  ⟨[e], h, by simpa using he⟩

theorem shapeOk_newEvents (h : EmitsShaped s t) : ∀ e ∈ newEvents s t, e.shapeOk = true := by
  obtain ⟨es, hes, hok⟩ := h
  simpa [newEvents, hes] using hok

end EmitsShaped

/-! ### The demultiplexer -/

/-- An error raised carries a PID exactly if its kind does. -/
theorem raiseError_emitsShaped (k : ErrKind) (pid : Pid) (s : State) : EmitsShaped s (raiseError k pid s) :=
  .of_emit rfl (by cases k <;> rfl)

theorem rawEvents_shapeOk {p : Packet} (hp : p.bytes.length = 188) (s : State) :
    ∀ e ∈ rawEvents p s, e.shapeOk = true := by
  unfold rawEvents
  split <;> simp [Event.shapeOk, hp]

theorem execPacket_emitsShaped {p : Packet} (hp : p.bytes.length = 188) (h : execPacket p s = .next t) :
    EmitsShaped s t := by
  have hraw := rawEvents_shapeOk hp s
  rcases execPacket_eq_next h with ⟨raw, rest, rfl, hr, hrest⟩ | ⟨c, rest, rfl, -, -, hcase⟩
  · refine ⟨raw ++ rest, rfl, List.forall_mem_append.2 ⟨?_, ?_⟩⟩
    · rcases hr with rfl | rfl
      · simp
      · exact hraw
    · rcases hrest with rfl | ⟨k, q, rfl, hq⟩
      · simp
      · simpa [Event.shapeOk] using hq
  · refine ⟨rawEvents p s ++ rest, by simp, List.forall_mem_append.2 ⟨hraw, ?_⟩⟩
    rcases hcase with ⟨-, -, rfl⟩ | ⟨-, o, -, -, rfl⟩
    · split <;> simp [Event.shapeOk]
    · split <;> simp [Event.shapeOk, ErrKind.carriesPid]

/-- A well-formed packet class is run as the packet procedure runs the packet. -/
theorem execClass_emitsShaped {k : PacketClass} {p : Packet} (hwf : (k.instr p).wf = true)
    (h : exec (k.instr p) s = .next t) : EmitsShaped s t := by
  rw [wf_instr, Bool.and_eq_true] at hwf
  obtain ⟨hp, hk⟩ := hwf
  rw [← cls_of_selects hk, ← execPacket_eq_exec] at h
  exact execPacket_emitsShaped (bytes_length_of_wf hp) h

theorem runStrides_emitsShaped {ps : List (List Byte)} (hps : ∀ p ∈ ps, p.length = 188)
    (h : runStrides ps s = .next t) : EmitsShaped s t := by
  induction ps generalizing s with
  | nil => cases h; exact .of_events_eq rfl
  | cons p ps ih =>
    obtain ⟨hp, hps⟩ := List.forall_mem_cons.1 hps
    obtain ⟨u, hu, h⟩ := andThen_eq_next h
    exact (execPacket_emitsShaped (parsePacket_bytes_length hp) hu).trans (ih hps h)

theorem demuxWrite_emitsShaped {b : List Byte} (h : demuxWrite b s = .next t) : EmitsShaped s t := by
  obtain ⟨u, hu, h⟩ := andThen_eq_next h
  have hps : ∀ p ∈ strides (b.length / 188) b, p.length = 188 := fun p => length_of_mem_strides (Nat.mul_div_le _ _)
  have hcheck : EmitsShaped u (lengthCheck b u) := by
    unfold lengthCheck
    split
    · exact .of_events_eq rfl
    · exact raiseError_emitsShaped _ _ _
  cases h
  exact (runStrides_emitsShaped hps hu).trans hcheck

/-! ### The synchronizer -/

/-- A failed lock discards at least a stride, an acquired one reports only a discard of some bytes (R104, R105). -/
theorem hunt_emitsShaped (s : State) : EmitsShaped s (hunt s).1 := by
  rcases hunt_cases s with ⟨-, he⟩ | ⟨-, -, he⟩ | ⟨-, hlong, -, he⟩ | ⟨o, -, -, -, he⟩ <;> rw [he]
  · exact .of_events_eq rfl
  · exact .of_events_eq rfl
  · refine .of_emit rfl ?_
    simp only [Event.shapeOk, decide_eq_true_eq]
    omega
  · refine ⟨_, rfl, ?_⟩
    split
    · simp
    · simp [Event.shapeOk]
      omega

/-- The scan covers whole strides of what is held (R107). -/
theorem scanPtr_le (b : List Byte) : scanPtr b ≤ b.length := by
  have := goodStrides_le (strideCount b) b
  unfold scanPtr strideCount at *
  omega

/-- The run is the bytes that the scan covers, if there are any (R108). -/
theorem emitRun_emitsShaped {n : Nat} (hle : n ≤ s.acc.length) (hdvd : n % 188 = 0) (h : emitRun n s = .next t) :
    EmitsShaped s t := by
  unfold emitRun at h
  split at h
  next => cases h; exact .of_events_eq rfl
  next hn =>
    have hrun : EmitsShaped s (emit (.run (s.acc.take n)) (accDrop n s)) := by
      refine .of_emit rfl ?_
      simp [Event.shapeOk, List.length_take, Nat.min_eq_left hle, hdvd, Nat.pos_of_ne_zero hn]
    dsimp only at h
    split at h
    next => exact hrun.trans (demuxWrite_emitsShaped h)
    next => cases h; exact hrun

theorem drainLoop_emitsShaped {n : Nat} (h : drainLoop n s = .next t) : EmitsShaped s t := by
  induction n generalizing s with
  | zero => cases h
  | succ n ih =>
    have hhunt := hunt_emitsShaped s
    rcases drainBody_eq_next h with ⟨rfl, -⟩ | ⟨u, -, hu, hnext⟩
    · exact hhunt
    · have hrun : EmitsShaped (setLocked (!scanLost (hunt s).1.acc) (hunt s).1) u :=
        emitRun_emitsShaped (scanPtr_le _) (Nat.mul_mod_right _ _) hu
      have hpass : EmitsShaped s u := hhunt.trans ((EmitsShaped.of_events_eq rfl).trans hrun)
      rcases hnext with ⟨-, rfl⟩ | ⟨-, hagain⟩
      · exact hpass
      · exact hpass.trans (ih hagain)

theorem execSwrite_emitsShaped {c : List Byte} (h : execSwrite c s = .next t) : EmitsShaped s t := by
  have hdrain : EmitsShaped (accAppend c s) t := drainLoop_emitsShaped (execSwrite_eq_next h).2
  exact (EmitsShaped.of_events_eq rfl).trans hdrain

/-- Settles O55: the writes and the packet classes emit events of R75's shapes, every other operation none. -/
theorem emittedEventsHaveTheirShape : Obligations.EmittedEventsHaveTheirShape := by
  intro i s t hwf h
  suffices hs : EmitsShaped s t from hs.shapeOk_newEvents
  cases i with
  | swrite c => exact execSwrite_emitsShaped h
  | dwrite c => exact demuxWrite_emitsShaped h
  | setn n =>
    have hn : exec (.setn n) s = .next (setNlock n (setLocked false (accClear s))) := if_neg (bne_iff_ne.1 hwf)
    rw [hn] at h
    cases h
    exact .of_events_eq rfl
  | addf pid => cases h; exact .of_events_eq rfl
  | rmf pid => cases h; exact .of_events_eq rfl
  | addp pid => cases h; exact .of_events_eq rfl
  | rmp pid => cases h; exact .of_events_eq rfl
  | setfall b => cases h; exact .of_events_eq rfl
  | setpall b => cases h; exact .of_events_eq rfl
  | reset => cases h; exact .of_events_eq rfl
  | pBadsync p => exact execClass_emitsShaped (k := .badsync) hwf h
  | pTei p => exact execClass_emitsShaped (k := .tei) hwf h
  | pScrHi p => exact execClass_emitsShaped (k := .scrHi) hwf h
  | pScrLo p => exact execClass_emitsShaped (k := .scrLo) hwf h
  | pNopl p => exact execClass_emitsShaped (k := .nopl) hwf h
  | pStart p => exact execClass_emitsShaped (k := .start) hwf h
  | pCont p => exact execClass_emitsShaped (k := .cont) hwf h

end Sys2Proof.Machine
end

section
/-! SUPPORT. The lock search and the stride scan as R103 and R107 word them. -/

namespace Sys2Proof.Machine

variable {b : List Byte} {m n o : Nat}

/-! ### The lock search -/

theorem probesMatch_eq_false_iff :
    probesMatch b n o = false ↔ ∃ i, i ≤ n ∧ b[o + 188 * i]? ≠ some syncByte := by
  rw [← Bool.not_eq_true, probesMatch_iff]
  push Not
  rfl

/-- Where all probes match, the last of them makes the offset one of R103's candidates. -/
theorem lt_of_probesMatch (h : probesMatch b n o = true) : o < b.length - 188 * n := by
  obtain ⟨hlt, -⟩ := List.getElem?_eq_some_iff.1 ((probesMatch_iff b n o).1 h n le_rfl)
  omega

theorem findLock_eq_some_iff :
    findLock b n = some o ↔ probesMatch b n o = true ∧ ∀ o', o' < o → probesMatch b n o' = false := by
  simp only [findLock, List.find?_range_eq_some, List.mem_range, Bool.not_eq_true']
  exact ⟨fun ⟨hm, _, hleast⟩ => ⟨hm, hleast⟩, fun ⟨hm, hleast⟩ => ⟨hm, lt_of_probesMatch hm, hleast⟩⟩

theorem findLock_eq_none_iff : findLock b n = none ↔ ∀ o, probesMatch b n o = false := by
  simp only [findLock, List.find?_range_eq_none, Bool.not_eq_true']
  refine ⟨fun h o => ?_, fun h o _ => h o⟩
  by_contra hm
  rw [Bool.not_eq_false] at hm
  exact absurd (h o (lt_of_probesMatch hm)) (by simp [hm])

/-- Settles O37: the search is the first match among the candidates, and every match is a candidate. -/
theorem findLockIsLeastMatch : Obligations.FindLockIsLeastMatch := by
  intro b n
  refine ⟨fun o => ?_, ?_⟩
  · simp only [findLock_eq_some_iff, probesMatch_iff, probesMatch_eq_false_iff]
  · simp only [findLock_eq_none_iff, probesMatch_eq_false_iff]

/-! ### The stride scan -/

theorem scanPtr_mod (b : List Byte) : scanPtr b % 188 = 0 := Nat.mul_mod_right _ _

theorem scanLost_iff : scanLost b = true ↔ scanPtr b + 188 ≤ b.length := by
  rw [scanLost, decide_eq_true_iff, scanPtr, strideCount]
  omega

theorem scanPtr_of_kept (h : scanLost b = false) : scanPtr b = 188 * (b.length / 188) := by
  have hle := scanPtr_le b
  have hmod := scanPtr_mod b
  have hkept : ¬ scanPtr b + 188 ≤ b.length := by simp [← scanLost_iff, h]
  omega

theorem sync_of_lt_scanPtr {j : Nat} (h : 188 * j < scanPtr b) : b[188 * j]? = some syncByte :=
  goodStrides_sync (Nat.lt_of_mul_lt_mul_left h)

theorem not_sync_at_scanPtr (h : scanLost b = true) : b[scanPtr b]? ≠ some syncByte :=
  goodStrides_stop (of_decide_eq_true h)

/-- The scan does not stop within the complete strides that begin with the sync byte. -/
theorem le_scanPtr (hm : 188 * m ≤ b.length) (h : ∀ j, j < m → b[188 * j]? = some syncByte) :
    188 * m ≤ scanPtr b := by
  by_contra hlt
  have hlost : scanLost b = true := by
    have hmod := scanPtr_mod b
    rw [scanLost_iff]
    omega
  exact not_sync_at_scanPtr hlost (h _ (by unfold scanPtr at hlt; omega))

/-- Settles O38, clause by clause. -/
theorem strideScanStops : Obligations.StrideScanStops := fun b =>
  ⟨scanPtr_mod b, scanPtr_le b, fun _ => sync_of_lt_scanPtr, scanLost_iff, not_sync_at_scanPtr, scanPtr_of_kept⟩

end Sys2Proof.Machine
end

section
/-! SUPPORT. The passes of the drain (R101 to R109): the equation of a pass, that a pass that goes round leaves fewer to
come, and so the equation of the whole loop without its bound. -/

namespace Sys2Proof.Machine

variable {s t u : State} {again : State → Out}

/-! ### Step 1, case by case -/

theorem hunt_of_locked (hl : s.locked = true) : hunt s = (s, true) := by simp [hunt, hl]

theorem hunt_of_short (hl : s.locked = false) (h : s.acc.length < (s.nlock.toNat + 1) * 188) :
    hunt s = (s, false) := by
  simp [hunt, hl, h]

theorem hunt_of_failed (hl : s.locked = false) (h : (s.nlock.toNat + 1) * 188 ≤ s.acc.length)
    (hf : findLock s.acc s.nlock.toNat = none) :
    hunt s = (discardFront (s.acc.length - s.nlock.toNat * 188) s, false) := by
  simp [hunt, hl, Nat.not_lt.2 h, hf]

theorem hunt_of_found {o : Nat} (hl : s.locked = false) (h : (s.nlock.toNat + 1) * 188 ≤ s.acc.length)
    (hf : findLock s.acc s.nlock.toNat = some o) :
    hunt s = (State.addEvents { s with locked := true, acc := s.acc.drop o }
      (if o = 0 then [] else [.discard o]), true) := by
  rcases hunt_cases s with ⟨hl', -⟩ | ⟨-, hshort, -⟩ | ⟨-, -, hnone, -⟩ | ⟨o', -, -, hsome, he⟩
  · simp [hl] at hl'
  · omega
  · simp [hf] at hnone
  · obtain rfl : o = o' := by simpa [hf] using hsome
    exact he

/-! ### A pass -/

/-- Step 1 of the pass leaves the lock held and a complete stride is there, so that the pass comes to its scan. -/
def ComesToScan (s : State) : Prop := (hunt s).2 = true ∧ 188 ≤ (hunt s).1.acc.length

/-- The scan and the run of a pass, from the state that step 1 left (R107, R108). -/
def scanAndRun (s : State) : Out := emitRun (scanPtr s.acc) (setLocked (!scanLost s.acc) s)

theorem drainBody_of_waits (h : ¬ ComesToScan s) : drainBody again s = .next (hunt s).1 := by
  rw [drainBody_eq_scanPass]
  split
  next hgo => exact if_pos (Nat.lt_of_not_le fun hlen => h ⟨hgo, hlen⟩)
  next => rfl

theorem drainBody_of_comesToScan (h : ComesToScan s) :
    drainBody again s = andThen (scanAndRun (hunt s).1) fun t => if t.locked then .next t else again t := by
  obtain ⟨hgo, hlen⟩ := h
  rw [drainBody_eq_scanPass, if_pos hgo]
  exact if_neg (Nat.not_lt.2 hlen)

/-- The pass from `s` loses the lock and goes round from `u` (R109). -/
structure GoesRound (s u : State) : Prop where
  comesToScan : ComesToScan s
  run : scanAndRun (hunt s).1 = .next u
  lost : u.locked = false

/-- A pass depends on going round only in the states from which it goes round. -/
theorem drainBody_congr {again' : State → Out} (h : ∀ u, GoesRound s u → again u = again' u) :
    drainBody again s = drainBody again' s := by
  by_cases hs : ComesToScan s
  · rw [drainBody_of_comesToScan hs, drainBody_of_comesToScan hs]
    cases hu : scanAndRun (hunt s).1 with
    | next u =>
      cases hl : u.locked with
      | true => simp [hl]
      | false => simpa [hl] using h u ⟨hs, hu, hl⟩
    | fault r => rfl
    | refused r => rfl
  · rw [drainBody_of_waits hs, drainBody_of_waits hs]

/-! ### How many passes -/

/-- A bound on the passes from `s` on (R101): the accumulator's strides, the last pass, and one more if the lock is
held, because a first pass that loses it may take no byte. -/
def passes (s : State) : Nat := s.acc.length / 188 + 1 + s.locked.toNat

/-- Where the accumulator begins with the sync byte the scan covers at least one stride. -/
theorem le_scanPtr_of_head {b : List Byte} (hlen : 188 ≤ b.length) (h : b[0]? = some syncByte) : 188 ≤ scanPtr b := by
  refine le_scanPtr (m := 1) hlen fun j hj => ?_
  obtain rfl : j = 0 := by omega
  exact h

/-- The bytes at the offset that the search finds begin with `N+1` sync bytes, 188 apart. -/
theorem sync_of_findLock {b : List Byte} {n o j : Nat} (h : findLock b n = some o) (hj : j ≤ n) :
    (b.drop o)[188 * j]? = some syncByte := by
  rw [List.getElem?_drop]
  exact (probesMatch_iff b n o).1 (findLock_some h).1 j hj

/-- Either the lock was held and is lost, or it was acquired and the pass took at least a stride (R101). -/
theorem GoesRound.passes_lt (h : GoesRound s u) : passes u < passes s := by
  obtain ⟨⟨hgo, hlen⟩, hrun, hlost⟩ := h
  obtain ⟨hacc, -⟩ := emitRun_acc_locked hrun
  have hleft : u.acc.length = (hunt s).1.acc.length - scanPtr (hunt s).1.acc := by rw [hacc]; exact List.length_drop
  unfold passes
  rw [hlost, hleft]
  rcases hunt_cases s with ⟨hl, he⟩ | ⟨-, -, he⟩ | ⟨-, -, -, he⟩ | ⟨o, hl, -, ho, he⟩ <;> rw [he] at hgo hlen ⊢
  · rw [hl]
    simp only [Bool.toNat_true, Bool.toNat_false]
    omega
  · cases hgo
  · cases hgo
  · have hpos := le_scanPtr_of_head hlen (sync_of_findLock ho (Nat.zero_le _))
    rw [hl]
    simp only [addEvents_acc, List.length_drop, Bool.toNat_false] at hlen hpos ⊢
    omega

/-- An induction on the passes: going round always ends. -/
theorem goesRound_wf : WellFounded fun u s => GoesRound s u :=
  Subrelation.wf GoesRound.passes_lt (measure passes).wf

/-- Two bounds that are both enough give the same. -/
theorem drainLoop_eq_of_passes_le {m n : Nat} (hm : passes s ≤ m) (hn : passes s ≤ n) :
    drainLoop m s = drainLoop n s := by
  induction m generalizing s n with
  | zero => simp [passes] at hm
  | succ m ih =>
    cases n with
    | zero => simp [passes] at hn
    | succ n =>
      refine drainBody_congr fun u hu => ?_
      have hlt := hu.passes_lt
      exact ih (by omega) (by omega)

theorem drainLoop_eq_drain {n : Nat} (h : passes s ≤ n) : drainLoop n s = drain s :=
  drainLoop_eq_of_passes_le h (Nat.add_le_add_left (Bool.toNat_le s.locked) _)

/-- The drain is one pass with the drain itself as the going round. -/
theorem drain_eq_drainBody (s : State) : drain s = drainBody drain s := by
  rw [← drainLoop_eq_drain (Nat.le_succ (passes s))]
  exact drainBody_congr fun u hu => drainLoop_eq_drain hu.passes_lt.le

theorem drain_of_waits (h : ¬ ComesToScan s) : drain s = .next (hunt s).1 := by
  rw [drain_eq_drainBody, drainBody_of_waits h]

theorem drain_of_comesToScan (h : ComesToScan s) :
    drain s = andThen (scanAndRun (hunt s).1) fun t => if t.locked then .next t else drain t := by
  rw [drain_eq_drainBody, drainBody_of_comesToScan h]

theorem drain_of_hunt_ends (h : hunt s = (u, false)) : drain s = .next u := by
  rw [drain_of_waits (by simp [ComesToScan, h]), h]

theorem drain_of_hunt_short (h : hunt s = (u, true)) (hlen : u.acc.length < 188) : drain s = .next u := by
  rw [drain_of_waits (by simpa [ComesToScan, h] using hlen), h]

theorem drain_of_hunt_scans (h : hunt s = (u, true)) (hlen : 188 ≤ u.acc.length) :
    drain s = andThen (scanAndRun u) fun t => if t.locked then .next t else drain t := by
  rw [drain_of_comesToScan (by simpa [ComesToScan, h] using hlen), h]

/-! ### R101's loop -/

theorem scanR101_eq_scanPass (hl : s.locked = true) : scanR101 again s = scanPass again s := by
  have hlock : (if scanPtr s.acc + 188 ≤ s.acc.length then { s with locked := false } else s) =
      setLocked (!scanLost s.acc) s := by
    cases hlost : scanLost s.acc with
    | true => exact if_pos (scanLost_iff.1 hlost)
    | false => simp [← scanLost_iff, hlost, setLocked, ← hl]
  unfold scanR101 scanPass emitRun
  dsimp only
  rw [hlock]
  split
  · rfl
  · by_cases hp : scanPtr s.acc = 0
    · rw [if_pos hp, if_neg (by omega)]; rfl
    · rw [if_neg hp, if_pos (by omega)]
      cases hc : s.cfg.chain <;> simp [hc] <;> rfl

theorem drainR101_eq_drainBody (again : State → Out) (s : State) : drainR101 again s = drainBody again s := by
  rw [drainBody_eq_scanPass]
  unfold drainR101
  rcases hunt_cases s with ⟨hl, he⟩ | ⟨hl, hshort, he⟩ | ⟨hl, hlong, hf, he⟩ | ⟨o, hl, hlong, hf, he⟩
  · rw [he, if_neg (by simp [hl])]
    exact scanR101_eq_scanPass hl
  · rw [he, if_pos hl]
    exact if_pos hshort
  · rw [he, if_pos hl]
    dsimp only
    rw [if_neg (Nat.not_lt.2 hlong), hf]
    rfl
  · have hs : (if o ≠ 0 then State.addEvents { s with locked := true, acc := s.acc.drop o } [.discard o]
          else { s with locked := true }) =
        State.addEvents { s with locked := true, acc := s.acc.drop o } (if o = 0 then [] else [.discard o]) := by
      by_cases ho : o = 0 <;> simp [ho, State.addEvents]
    rw [he, if_pos hl]
    dsimp only
    rw [if_neg (Nat.not_lt.2 hlong), hf]
    exact (congrArg _ hs).trans (scanR101_eq_scanPass rfl)

end Sys2Proof.Machine
end

section
/-! SUPPORT. A DWRITE completes, or is refused at a stride that overflows a finite `UNIT_CAP` (R67, R155); where the
buffers have room it completes and leaves the room it did not need (R219). -/

namespace Sys2Proof.Machine

variable {s t u : State}

/-! ### A packet -/

theorem withinCap_eq_false_iff {cap : Option Nat} {n : Nat} : withinCap cap n = false ↔ ∃ c, cap = some c ∧ c < n := by
  cases cap <;> simp [withinCap]

/-- An append completes, or the buffer would be longer than a finite `UNIT_CAP` (R155). -/
theorem appendUnit_completes_or_overflows (pid : Pid) (cc : Cc) (buf pl : List Byte) (s : State) :
    (∃ t, appendUnit pid cc buf pl s = .next t) ∨
    (appendUnit pid cc buf pl s = .refused .unitOverflow ∧
      ∃ c, s.cfg.unitCap = some c ∧ c < buf.length + pl.length) := by
  cases hw : withinCap s.cfg.unitCap (buf ++ pl).length with
  | true => exact .inl ⟨_, appendUnit_of_within hw⟩
  | false =>
    refine .inr ⟨?_, by simpa using withinCap_eq_false_iff.1 hw⟩
    unfold appendUnit
    rw [hw]
    rfl

theorem execPStart_completes_or_overflows {p : Packet} (hc : p.header.cls = .start) (s : State) :
    (∃ t, execPStart p s = .next t) ∨ (execPStart p s = .refused .unitOverflow ∧ overflowsUnit p s) := by
  simp only [execPStart, passthrough_eq, emitUnit_eq, addEvents_addEvents]
  split
  next hsel =>
    refine (appendUnit_completes_or_overflows _ _ _ _ _).imp_right (And.imp_right fun ⟨c, hcap, hlt⟩ => ?_)
    exact ⟨(selected_iff _ _).1 hsel, c, hcap, .inl ⟨hc, by simpa using hlt⟩⟩
  next => exact .inl ⟨_, rfl⟩

theorem execPCont_completes_or_overflows {p : Packet} (hc : p.header.cls = .cont) (s : State) :
    (∃ t, execPCont p s = .next t) ∨ (execPCont p s = .refused .unitOverflow ∧ overflowsUnit p s) := by
  simp only [execPCont, passthrough_eq, raiseError_eq, addEvents_addEvents, ← apply_ite]
  split
  next hsel =>
    split
    next => exact .inl ⟨_, rfl⟩
    next old hold =>
      refine (appendUnit_completes_or_overflows _ _ _ _ _).imp_right (And.imp_right fun ⟨c, hcap, hlt⟩ => ?_)
      exact ⟨(selected_iff _ _).1 hsel, c, hcap, .inr ⟨hc, old, hold, hlt⟩⟩
  next => exact .inl ⟨_, rfl⟩

/-- Only a start packet and a continuation append, so no other packet can be refused (R157). -/
theorem execPacket_completes_or_overflows (p : Packet) (s : State) :
    (∃ t, execPacket p s = .next t) ∨ (execPacket p s = .refused .unitOverflow ∧ overflowsUnit p s) := by
  unfold execPacket
  cases hc : p.header.cls with
  | start => exact execPStart_completes_or_overflows hc s
  | cont => exact execPCont_completes_or_overflows hc s
  | _ => exact .inl ⟨_, rfl⟩

/-! ### The strides -/

theorem strides_succ (n : Nat) (b : List Byte) : strides (n + 1) b = b.take 188 :: strides n (b.drop 188) := rfl

/-- The strides complete, or one overflows, in the state in which those before it leave the machine. -/
theorem runStrides_completes_or_overflows (n : Nat) (b : List Byte) (s : State) :
    (∃ t, runStrides (strides n b) s = .next t) ∨
    (runStrides (strides n b) s = .refused .unitOverflow ∧ ∃ k t, k < n ∧ runStrides (strides k b) s = .next t ∧
      overflowsUnit (parsePacket ((b.drop (188 * k)).take 188)) t) := by
  induction n generalizing b s with
  | zero => exact .inl ⟨s, rfl⟩
  | succ n ih =>
    have hcons : ∀ k, runStrides (strides (k + 1) b) s =
        andThen (execPacket (parsePacket (b.take 188)) s) (runStrides (strides k (b.drop 188))) := fun _ => rfl
    rw [hcons]
    rcases execPacket_completes_or_overflows (parsePacket (b.take 188)) s with ⟨u, hu⟩ | ⟨hr, hover⟩
    · rw [hu, andThen_next]
      refine (ih (b.drop 188) u).imp_right (And.imp_right fun ⟨k, t, hk, ht, hover⟩ => ?_)
      refine ⟨k + 1, t, by omega, by rw [hcons, hu]; exact ht, ?_⟩
      rwa [List.drop_drop, Nat.add_comm, ← Nat.mul_succ] at hover
    · exact .inr ⟨by rw [hr]; rfl, 0, s, by omega, rfl, hover⟩

theorem strides_take (k : Nat) (b : List Byte) : strides k (b.take (188 * k)) = strides k b := by
  induction k generalizing b with
  | zero => rfl
  | succ k ih =>
    rw [strides_succ, strides_succ, List.take_take, List.drop_take, Nat.min_eq_left (by omega),
      Nat.mul_succ, Nat.add_sub_cancel, ih]

/-- A chunk of whole strides is its strides and raises no length error (R130, R191). -/
theorem demuxWrite_take {k : Nat} {b : List Byte} (h : 188 * k ≤ b.length) (s : State) :
    demuxWrite (b.take (188 * k)) s = runStrides (strides k b) s := by
  have hlen : (b.take (188 * k)).length = 188 * k := List.length_take_of_le h
  unfold demuxWrite lengthCheck
  rw [hlen, Nat.mul_mod_right, Nat.mul_div_cancel_left k (by omega), strides_take]
  exact andThen_next_right _

theorem demuxWrite_completes_or_overflows (b : List Byte) (s : State) :
    (∃ t, demuxWrite b s = .next t) ∨ (demuxWrite b s = .refused .unitOverflow ∧ dwriteOverflows b s) := by
  unfold demuxWrite
  rcases runStrides_completes_or_overflows (b.length / 188) b s with ⟨t, ht⟩ | ⟨hr, k, t, hk, ht, hover⟩
  · exact .inl ⟨_, by rw [ht]; rfl⟩
  · refine .inr ⟨by rw [hr]; rfl, k, t, by omega, ?_, hover⟩
    exact (demuxWrite_take (by omega) s).trans ht

/-! ### Room in the buffers -/

variable {m n : Nat}

theorem roomFor_mono (hmn : m ≤ n) (h : roomFor n s) : roomFor m s := fun c hc =>
  ⟨fun e he => le_trans (by gcongr) ((h c hc).1 e he), le_trans (by gcongr) (h c hc).2⟩

theorem roomFor_congr (hctx : t.ctx = s.ctx) (hcfg : t.cfg = s.cfg) : roomFor n t ↔ roomFor n s := by
  unfold roomFor
  rw [hctx, hcfg]

/-- The packet read from a stride has 184 bytes behind its header (R70), so no more payload (R152). -/
theorem payload_parsePacket_le {b : List Byte} (h : b.length = 188) : (payload (parsePacket b)).length ≤ 184 :=
  payload_length_le _ (by simp [parsePacket, h])

theorem not_overflowsUnit {p : Packet} (hp : (payload p).length ≤ 184) (h : roomFor (n + 1) s) :
    ¬ overflowsUnit p s := by
  rintro ⟨-, c, hc, ⟨-, hlt⟩ | ⟨-, old, hold, hlt⟩⟩
  · have := (h c hc).2
    omega
  · have := (h c hc).1 _ (mem_of_tableGet hold)
    dsimp only at this
    omega

/-- A packet takes at most its payload's bytes of the room. -/
theorem execPacket_roomFor {p : Packet} (hp : (payload p).length ≤ 184) (hs : roomFor (n + 1) s)
    (h : execPacket p s = .next t) : roomFor n t := by
  rcases execPacket_eq_next h with ⟨raw, rest, rfl, -⟩ | ⟨c, rest, rfl, -, -, hbuf⟩
  · exact roomFor_mono (Nat.le_succ n) hs
  · intro cap hcap
    obtain ⟨hctx, hfresh⟩ := hs cap hcap
    refine ⟨fun e he => ?_, by omega⟩
    rcases mem_tablePut he with rfl | he
    · rcases hbuf with ⟨-, hc, -⟩ | ⟨-, old, hold, hc, -⟩
      · dsimp only
        rw [hc]
        omega
      · have := hctx _ (mem_of_tableGet hold)
        dsimp only at this ⊢
        rw [hc, List.length_append]
        omega
    · have := hctx e he
      omega

theorem runStrides_of_roomFor {ps : List (List Byte)} (hps : ∀ p ∈ ps, p.length = 188)
    (hs : roomFor (m + ps.length) s) : ∃ t, runStrides ps s = .next t ∧ roomFor m t := by
  induction ps generalizing s with
  | nil => exact ⟨s, rfl, hs⟩
  | cons p ps ih =>
    obtain ⟨hp, hps⟩ := List.forall_mem_cons.1 hps
    have hpl := payload_parsePacket_le hp
    rcases execPacket_completes_or_overflows (parsePacket p) s with ⟨u, hu⟩ | ⟨-, hover⟩
    · obtain ⟨t, ht, hroom⟩ := ih hps (execPacket_roomFor hpl hs hu)
      exact ⟨t, by rw [runStrides, hu]; exact ht, hroom⟩
    · exact absurd hover (not_overflowsUnit hpl hs)

theorem length_strides (n : Nat) (b : List Byte) : (strides n b).length = n := by
  induction n generalizing b with
  | zero => rfl
  | succ n ih => rw [strides_succ, List.length_cons, ih]

/-- With room for its strides a DWRITE completes, and leaves the room beyond them. -/
theorem demuxWrite_of_roomFor {b : List Byte} (hs : roomFor (m + b.length / 188) s) :
    ∃ t, demuxWrite b s = .next t ∧ roomFor m t := by
  obtain ⟨t, ht, hroom⟩ := runStrides_of_roomFor (ps := strides (b.length / 188) b)
    (fun p => length_of_mem_strides (Nat.mul_div_le _ _)) (by rwa [length_strides])
  refine ⟨lengthCheck b t, by unfold demuxWrite; rw [ht]; rfl, ?_⟩
  unfold lengthCheck
  split <;> exact hroom

end Sys2Proof.Machine
end

section
/-! SUPPORT. The drain as a whole: it never faults, it completes where there is room (R101, R66), and what it does at
its waits, at a failed lock, on a valid stream and where it acquires the lock (R102 to R108). -/

namespace Sys2Proof.Machine

variable {s t u : State}

/-! ### No fault, and the room the runs need -/

/-- The run completes, or with `CHAIN = 1` its DWRITE is refused (R62). -/
theorem emitRun_completes_or_refused (n : Nat) (s : State) :
    (∃ t, emitRun n s = .next t) ∨ (s.cfg.chain = true ∧ emitRun n s = .refused .unitOverflow) := by
  unfold emitRun
  split
  · exact .inl ⟨s, rfl⟩
  · dsimp only
    split
    next hchain => exact (demuxWrite_completes_or_overflows _ _).imp_right fun h => ⟨hchain, h.1⟩
    next => exact .inl ⟨_, rfl⟩

theorem scanAndRun_ne_fault (s : State) (r : Fault) : scanAndRun s ≠ .fault r := by
  rcases emitRun_completes_or_refused (scanPtr s.acc) (setLocked (!scanLost s.acc) s) with ⟨t, ht⟩ | ⟨-, hr⟩
  · rw [scanAndRun, ht]; nofun
  · rw [scanAndRun, hr]; nofun

theorem drain_ne_fault (s : State) (r : Fault) : drain s ≠ .fault r := by
  induction s using goesRound_wf.induction with
  | _ s ih =>
    by_cases hs : ComesToScan s
    · rw [drain_of_comesToScan hs]
      cases hu : scanAndRun (hunt s).1 with
      | next u =>
        cases hl : u.locked with
        | true => simp [hl]
        | false => simpa [hl] using ih u ⟨hs, hu, hl⟩
      | fault r => exact absurd hu (scanAndRun_ne_fault _ _)
      | refused r => nofun
    · rw [drain_of_waits hs]
      nofun

/-- Settles O39: a pass is a round of R101's loop, and the bound on the passes is never met. -/
theorem drainSatisfiesItsLoop : Obligations.DrainSatisfiesItsLoop := fun s =>
  ⟨(drain_eq_drainBody s).trans (drainR101_eq_drainBody drain s).symm, drain_ne_fault s⟩

/-- With `CHAIN = 1` the buffers have room for every stride held (R67, R219). -/
def RoomForRuns (s : State) : Prop := s.cfg.chain = true → roomFor (s.acc.length / 188) s

theorem hunt_ctx (s : State) : (hunt s).1.ctx = s.ctx := by
  rcases hunt_cases s with ⟨-, he⟩ | ⟨-, -, he⟩ | ⟨-, -, -, he⟩ | ⟨o, -, -, -, he⟩ <;> rw [he] <;> rfl

theorem RoomForRuns.hunt (h : RoomForRuns s) : RoomForRuns (hunt s).1 := by
  have hframe := (hunt_drainWrites s).onlySwrite
  intro hchain
  rw [hframe.cfg_eq] at hchain
  rw [roomFor_congr (hunt_ctx s) hframe.cfg_eq]
  exact roomFor_mono (Nat.div_le_div_right hframe.accSuffix.length_le) (h hchain)

theorem emitRun_of_roomForRuns {n : Nat} (hmod : n % 188 = 0) (hle : n ≤ s.acc.length) (hs : RoomForRuns s) :
    ∃ t, emitRun n s = .next t ∧ RoomForRuns t := by
  unfold emitRun
  split
  next => exact ⟨s, rfl, hs⟩
  next =>
    dsimp only
    split
    next hchain =>
      have hlen : (s.acc.take n).length = n := List.length_take_of_le hle
      have hroom : roomFor ((s.acc.length - n) / 188 + (s.acc.take n).length / 188) s := by
        rw [hlen]
        exact roomFor_mono (by omega) (hs hchain)
      obtain ⟨t, ht, hleft⟩ := demuxWrite_of_roomFor (s := emit (.run (s.acc.take n)) (accDrop n s)) hroom
      refine ⟨t, ht, fun _ => ?_⟩
      rw [(demuxWrite_onlyDemux ht).acc_eq]
      simpa using hleft
    next hchain => exact ⟨_, rfl, fun h => absurd h hchain⟩

theorem scanAndRun_of_roomForRuns (hs : RoomForRuns s) : ∃ t, scanAndRun s = .next t ∧ RoomForRuns t :=
  emitRun_of_roomForRuns (s := setLocked (!scanLost s.acc) s) (scanPtr_mod _) (scanPtr_le _) hs

theorem drain_of_roomForRuns (hs : RoomForRuns s) : ∃ t, drain s = .next t := by
  induction s using goesRound_wf.induction with
  | _ s ih =>
    by_cases hscan : ComesToScan s
    · obtain ⟨u, hu, hroom⟩ := scanAndRun_of_roomForRuns hs.hunt
      rw [drain_of_comesToScan hscan, hu, andThen_next]
      cases hl : u.locked with
      | true => exact ⟨u, rfl⟩
      | false => exact ih u ⟨hscan, hu, hl⟩ hroom
    · exact ⟨_, drain_of_waits hscan⟩

/-! ### SWRITE -/

variable {c : List Byte}

theorem exec_swrite_of_withinCap (h : withinCap s.cfg.accCap (s.acc.length + c.length) = true) :
    exec (.swrite c) s = drain (accAppend c s) := if_pos h

theorem exec_swrite_of_beyondCap (h : withinCap s.cfg.accCap (s.acc.length + c.length) = false) :
    exec (.swrite c) s = .refused .accOverflow := if_neg (by simp [h])

/-- Settles O40: the decoder's `DATA` row and the two branches of SWRITE. -/
theorem swriteAppendsThenDrains : Obligations.SwriteAppendsThenDrains := fun _ _ =>
  ⟨rfl, exec_swrite_of_withinCap, exec_swrite_of_beyondCap⟩

theorem length_accAppend (c : List Byte) (s : State) : (accAppend c s).acc.length = s.acc.length + c.length := by simp

/-- Settles O41: the drain completes for the room, writes what an SWRITE may, and stops within the bounds. -/
theorem swriteCompletes : Obligations.SwriteCompletes := by
  intro c s hcap hroom
  obtain ⟨t, ht⟩ := drain_of_roomForRuns (s := accAppend c s) fun hchain => by
    rw [length_accAppend]; exact hroom hchain
  have hframe := (drainLoop_drainWrites ht).onlySwrite
  obtain ⟨hlocked, hunlocked⟩ := drainLoop_drained ht
  rw [hframe.nlock_eq] at hunlocked
  exact ⟨t, (exec_swrite_of_withinCap hcap).trans ht, hframe.frame, hlocked, hunlocked, hframe.appended⟩

/-- Settles O42: at either wait step 1 does nothing and the drain ends. -/
theorem drainWaitsForData : Obligations.DrainWaitsForData := by
  refine ⟨fun c s hcap hl hshort => ?_, fun c s hcap hl hshort => ?_⟩
  · rw [exec_swrite_of_withinCap hcap]
    exact drain_of_hunt_ends (hunt_of_short hl (by simpa using hshort))
  · rw [exec_swrite_of_withinCap hcap]
    exact drain_of_hunt_short (hunt_of_locked hl) (by simpa using hshort)

/-- Settles O43: a failed lock ends the drain after step 1. -/
theorem failedLockDiscards : Obligations.FailedLockDiscards := by
  intro c s hcap hl hlong hnone
  rw [exec_swrite_of_withinCap hcap, ← length_accAppend]
  rw [← length_accAppend] at hlong
  refine ⟨drain_of_hunt_ends (hunt_of_failed hl hlong hnone), ?_, by omega⟩
  change ((accAppend c s).acc.drop _).length = _
  rw [List.length_drop]
  omega

/-! ### The run, with `CHAIN = 0` -/

/-- Without a chained DWRITE the scan and the run write the lock, the accumulator and one event (R107, R108). -/
theorem scanAndRun_of_unchained (hchain : s.cfg.chain = false) (hpos : 0 < scanPtr s.acc) :
    scanAndRun s = .next (State.addEvents { s with acc := s.acc.drop (scanPtr s.acc), locked := !scanLost s.acc }
      [.run (s.acc.take (scanPtr s.acc))]) := by
  unfold scanAndRun emitRun
  rw [if_neg hpos.ne']
  exact if_neg (by simp [hchain])

/-- A scan over strides that all begin with the sync byte keeps the lock. -/
theorem scanLost_eq_false_of_sync {b : List Byte}
    (h : ∀ j, 188 * j + 188 ≤ b.length → b[188 * j]? = some syncByte) : scanLost b = false := by
  by_contra hlost
  rw [Bool.not_eq_false] at hlost
  obtain ⟨j, hj, hbad⟩ := exists_stride_of_scanLost hlost
  exact hbad (h j hj)

/-- On a valid stream the scan covers every complete stride, so one run leaves and the lock is kept. -/
theorem drain_of_validStream (hchain : s.cfg.chain = false) (hl : s.locked = true) (hlen : 188 ≤ s.acc.length)
    (hsync : ∀ j, 188 * j + 188 ≤ s.acc.length → s.acc[188 * j]? = some syncByte) :
    drain s = .next (State.addEvents { s with acc := s.acc.drop (188 * (s.acc.length / 188)) }
      [.run (s.acc.take (188 * (s.acc.length / 188)))]) := by
  have hkept := scanLost_eq_false_of_sync hsync
  have hptr := scanPtr_of_kept hkept
  rw [drain_of_hunt_scans (hunt_of_locked hl) hlen, scanAndRun_of_unchained hchain (by omega), hkept, hptr]
  simp [State.addEvents, hl]

/-- Settles O44: after the append the accumulator is a valid stream. -/
theorem lockedStreamIsEmittedWhole : Obligations.LockedStreamIsEmittedWhole := by
  intro c s hcap hchain hl hsync hlen
  rw [← length_accAppend] at hsync hlen ⊢
  exact (exec_swrite_of_withinCap hcap).trans (drain_of_validStream (s := accAppend c s) hchain hl hlen hsync)

/-- What follows a pass only appends events. -/
theorem appended_of_round (h : (if u.locked then .next u else drain u) = Host.Outcome.next t) :
    u.events <+: t.events := by
  split at h
  next => cases h; exact List.prefix_refl _
  next => exact (drainLoop_drainWrites h).onlySwrite.appended

/-- The found offset has `NLOCK+1` sync bytes behind it, so the scan covers `NLOCK` strides at least. -/
theorem drain_of_foundLock {o : Nat} (hchain : s.cfg.chain = false) (hl : s.locked = false) (hn : 0 < s.nlock.toNat)
    (hlong : (s.nlock.toNat + 1) * 188 ≤ s.acc.length) (hfound : findLock s.acc s.nlock.toNat = some o) :
    ∃ t r, drain s = .next t ∧ (s.events ++ (if o = 0 then [] else [.discard o]) ++ [.run r]) <+: t.events ∧
      r <+: s.acc.drop o ∧ s.nlock.toNat * 188 ≤ r.length := by
  have hlen : 188 * s.nlock.toNat ≤ (s.acc.drop o).length := by
    have := (findLock_some hfound).2
    rw [List.length_drop]
    omega
  have hptr : 188 * s.nlock.toNat ≤ scanPtr (s.acc.drop o) := le_scanPtr hlen fun j hj => sync_of_findLock hfound hj.le
  have hpos : 0 < scanPtr (s.acc.drop o) := by omega
  obtain ⟨t, ht⟩ := drain_of_roomForRuns (s := s) fun h => absurd (hchain.symm.trans h) nofun
  refine ⟨t, (s.acc.drop o).take (scanPtr (s.acc.drop o)), ht, ?_, List.take_prefix _ _, ?_⟩
  · rw [drain_of_hunt_scans (hunt_of_found hl hlong hfound) (le_trans (by omega) hlen),
      scanAndRun_of_unchained (by exact hchain) (by exact hpos)] at ht
    exact appended_of_round ht
  · rw [List.length_take_of_le (scanPtr_le _)]
    omega

/-- Settles O45, from the state with the chunk appended. -/
theorem lockAcquisitionEmits : Obligations.LockAcquisitionEmits := by
  intro c s o hcap hchain hl hn hlong hfound
  have hpos : 0 < s.nlock.toNat := Nat.pos_of_ne_zero fun h => hn (BitVec.eq_of_toNat_eq h)
  rw [← length_accAppend] at hlong
  rw [exec_swrite_of_withinCap hcap]
  exact drain_of_foundLock (s := accAppend c s) hchain hl hpos hlong hfound

end Sys2Proof.Machine
end

section
/-! SUPPORT. What the events of an SWRITE say: they account for every byte, in order (R112 c), and each has the form
that R112 a, b, d give it. -/

namespace Sys2Proof.Machine

variable {s t u : State}

/-! ### One induction on the passes -/

/-- A transitive relation that step 1 and the scan with its run establish holds from the drain's start to its end. -/
theorem drainLoop_rel {R : State → State → Prop} (trans : ∀ {s t u}, R s t → R t u → R s u)
    (hunts : ∀ s, R s (hunt s).1) (runs : ∀ {s t}, scanAndRun s = .next t → R s t) {n : Nat}
    (h : drainLoop n s = .next t) : R s t := by
  induction n generalizing s with
  | zero => cases h
  | succ n ih =>
    rcases drainBody_eq_next h with ⟨rfl, -⟩ | ⟨u, -, hu, hnext⟩
    · exact hunts s
    · have hpass : R s u := trans (hunts s) (runs hu)
      rcases hnext with ⟨-, rfl⟩ | ⟨-, hagain⟩
      · exact hpass
      · exact trans hpass (ih hagain)

/-- The events appended from `s` to `t` all satisfy `P`. -/
def EmitsOnly (P : Event → Prop) (s t : State) : Prop := ∃ es, t.events = s.events ++ es ∧ ∀ e ∈ es, P e

namespace EmitsOnly

variable {P : Event → Prop}

theorem of_events_eq (h : t.events = s.events) : EmitsOnly P s t := ⟨[], by simp [h], by simp⟩

theorem trans (h : EmitsOnly P s t) (k : EmitsOnly P t u) : EmitsOnly P s u := by
  obtain ⟨es, hes, hp⟩ := h
  obtain ⟨fs, hfs, kp⟩ := k
  exact ⟨es ++ fs, by simp [hfs, hes], List.forall_mem_append.2 ⟨hp, kp⟩⟩

theorem of_emit {e : Event} (h : t.events = s.events ++ [e]) (he : P e) : EmitsOnly P s t := ⟨[e], h, by simpa using he⟩

theorem mem_newEvents (h : EmitsOnly P s t) : ∀ e ∈ newEvents s t, P e := by
  obtain ⟨es, hes, hp⟩ := h
  simpa [newEvents, hes] using hp

end EmitsOnly

/-! ### The demultiplexer's events -/

/-- An event of the demultiplexer: neither a run nor a discard. -/
def OfDemux (e : Event) : Prop := (∀ d, e ≠ .run d) ∧ ∀ n, e ≠ .discard n

theorem ofDemux_err (k : ErrKind) (q : Option Pid) : OfDemux (.err k q) := ⟨nofun, nofun⟩
theorem ofDemux_unit (pid : Pid) (d : List Byte) : OfDemux (.unit pid d) := ⟨nofun, nofun⟩
theorem ofDemux_rawEvents (p : Packet) (s : State) : ∀ e ∈ rawEvents p s, OfDemux e := by
  unfold rawEvents
  split
  · exact List.forall_mem_singleton.2 ⟨nofun, nofun⟩
  · simp

theorem execPacket_emitsOfDemux {p : Packet} (h : execPacket p s = .next t) : EmitsOnly OfDemux s t := by
  have hraw := ofDemux_rawEvents p s
  rcases execPacket_eq_next h with ⟨raw, rest, rfl, hr, hrest⟩ | ⟨c, rest, rfl, -, -, hcase⟩
  · refine ⟨raw ++ rest, rfl, List.forall_mem_append.2 ⟨?_, ?_⟩⟩
    · rcases hr with rfl | rfl
      · simp
      · exact hraw
    · rcases hrest with rfl | ⟨k, q, rfl, -⟩
      · simp
      · exact List.forall_mem_singleton.2 (ofDemux_err k q)
  · refine ⟨rawEvents p s ++ rest, by simp, List.forall_mem_append.2 ⟨hraw, ?_⟩⟩
    rcases hcase with ⟨-, -, rfl⟩ | ⟨-, o, -, -, rfl⟩
    · split
      · exact List.forall_mem_singleton.2 (ofDemux_unit _ _)
      · simp
    · split
      · simp
      · exact List.forall_mem_singleton.2 (ofDemux_err _ _)

theorem runStrides_emitsOfDemux {ps : List (List Byte)} (h : runStrides ps s = .next t) : EmitsOnly OfDemux s t := by
  induction ps generalizing s with
  | nil => cases h; exact .of_events_eq rfl
  | cons p ps ih =>
    obtain ⟨u, hu, h⟩ := andThen_eq_next h
    exact (execPacket_emitsOfDemux hu).trans (ih h)

theorem demuxWrite_emitsOfDemux {b : List Byte} (h : demuxWrite b s = .next t) : EmitsOnly OfDemux s t := by
  obtain ⟨u, hu, h⟩ := andThen_eq_next h
  have hcheck : EmitsOnly OfDemux u (lengthCheck b u) := by
    unfold lengthCheck
    split
    · exact .of_events_eq rfl
    · exact .of_emit rfl (ofDemux_err _ _)
  cases h
  exact (runStrides_emitsOfDemux hu).trans hcheck

/-- The scan and its run: nothing but the lock, or the run's event, the accumulator without its bytes, and behind them,
with `CHAIN = 1` only, events of the demultiplexer (R62, R108). -/
theorem scanAndRun_eq_next (h : scanAndRun s = .next t) :
    (t = setLocked (!scanLost s.acc) s) ∨
    (0 < scanPtr s.acc ∧ t.acc = s.acc.drop (scanPtr s.acc) ∧ t.cfg = s.cfg ∧
      ∃ es, t.events = s.events ++ .run (s.acc.take (scanPtr s.acc)) :: es ∧
        ∀ e ∈ es, OfDemux e ∧ s.cfg.chain = true) := by
  have hcfg := (emitRun_drainWrites h).onlySwrite.cfg_eq
  obtain ⟨hacc, -⟩ := emitRun_acc_locked h
  unfold scanAndRun emitRun at h
  split at h
  next => cases h; exact .inl rfl
  next hne =>
    refine .inr ⟨by omega, hacc, hcfg, ?_⟩
    dsimp only at h
    split at h
    next hchain =>
      obtain ⟨es, hes, hdemux⟩ := demuxWrite_emitsOfDemux h
      exact ⟨es, by simpa using hes, fun e he => ⟨hdemux e he, hchain⟩⟩
    next => cases h; exact ⟨[], rfl, by simp⟩

/-! ### Every byte is accounted for -/

theorem account_append (es fs : List Event) (b : List Byte) :
    account (es ++ fs) b = (account es b).bind (account fs) := by
  induction es generalizing b with
  | nil => rfl
  | cons e es ih =>
    cases e with
    | run d => simp only [List.cons_append, account]; split <;> [exact ih _; rfl]
    | discard n => simp only [List.cons_append, account]; split <;> [exact ih _; rfl]
    | raw p d => exact ih b
    | unit p d => exact ih b
    | err k p => exact ih b

theorem account_of_ofDemux {es : List Event} (h : ∀ e ∈ es, OfDemux e) (b : List Byte) : account es b = some b := by
  induction es with
  | nil => rfl
  | cons e es ih =>
    obtain ⟨⟨hrun, hdiscard⟩, hes⟩ := List.forall_mem_cons.1 h
    cases e with
    | run d => exact absurd rfl (hrun d)
    | discard n => exact absurd rfl (hdiscard n)
    | raw p d => exact ih hes
    | unit p d => exact ih hes
    | err k p => exact ih hes

/-- The events from `s` to `t` account for the bytes that have left the accumulator (R112 c). -/
def Accounts (s t : State) : Prop := ∃ es, t.events = s.events ++ es ∧ account es s.acc = some t.acc

theorem Accounts.trans (h : Accounts s t) (k : Accounts t u) : Accounts s u := by
  obtain ⟨es, hes, ha⟩ := h
  obtain ⟨fs, hfs, ka⟩ := k
  exact ⟨es ++ fs, by simp [hfs, hes], by rw [account_append, ha]; exact ka⟩

theorem Accounts.of_discard {n : Nat} (hn : n ≤ s.acc.length) (hacc : t.acc = s.acc.drop n)
    (hevents : t.events = s.events ++ [.discard n]) : Accounts s t :=
  ⟨_, hevents, by rw [hacc]; exact if_pos hn⟩

theorem Accounts.of_nothing (hacc : t.acc = s.acc) (hevents : t.events = s.events) : Accounts s t :=
  ⟨[], by simp [hevents], by rw [hacc]; rfl⟩

theorem hunt_accounts (s : State) : Accounts s (hunt s).1 := by
  rcases hunt_cases s with ⟨-, he⟩ | ⟨-, -, he⟩ | ⟨-, -, -, he⟩ | ⟨o, -, -, ho, he⟩ <;> rw [he]
  · exact .of_nothing rfl rfl
  · exact .of_nothing rfl rfl
  · exact .of_discard (Nat.sub_le _ _) rfl rfl
  · by_cases h0 : o = 0
    · exact .of_nothing (by simp [h0]) (by simp [h0])
    · exact .of_discard (Nat.le_of_lt (by have := (findLock_some ho).2; omega)) rfl (by simp [h0])

theorem scanAndRun_accounts (h : scanAndRun s = .next t) : Accounts s t := by
  rcases scanAndRun_eq_next h with rfl | ⟨-, hacc, -, es, hes, hdemux⟩
  · exact .of_nothing rfl rfl
  · refine ⟨_, hes, ?_⟩
    have hlen : (s.acc.take (scanPtr s.acc)).length = scanPtr s.acc := List.length_take_of_le (scanPtr_le _)
    rw [hacc, account, hlen, if_pos rfl]
    exact account_of_ofDemux (fun e he => (hdemux e he).1) _

/-- Settles O47: every pass of the drain accounts for what it takes from the accumulator. -/
theorem swriteConservesBytes : Obligations.SwriteConservesBytes := by
  intro c s t h
  have hdrain : Accounts (accAppend c s) t :=
    drainLoop_rel Accounts.trans hunt_accounts scanAndRun_accounts (execSwrite_eq_next h).2
  obtain ⟨es, hes, hacc⟩ := hdrain
  have hnew : newEvents s t = es := by simp [newEvents, hes]
  rw [hnew]
  exact hacc

/-! ### The form of the events -/

/-- What R112 says of an event of an SWRITE beyond R75's shapes: in a run the sync byte begins every packet, and an
event that is neither a run nor a discard comes with `CHAIN = 1` only. -/
def SwriteEvent (chain : Bool) (e : Event) : Prop :=
  (∀ d, e = .run d → ∀ j, 188 * j < d.length → d[188 * j]? = some syncByte) ∧ (OfDemux e → chain = true)

theorem swriteEvent_discard (chain : Bool) (n : Nat) : SwriteEvent chain (.discard n) :=
  ⟨nofun, fun h => absurd rfl (h.2 n)⟩

theorem swriteEvent_run {chain : Bool} {d : List Byte} (h : ∀ j, 188 * j < d.length → d[188 * j]? = some syncByte) :
    SwriteEvent chain (.run d) :=
  ⟨fun _ he => Event.run.inj he ▸ h, fun hd => absurd rfl (hd.1 d)⟩

theorem swriteEvent_ofDemux {e : Event} (h : OfDemux e) : SwriteEvent true e :=
  ⟨fun d he => absurd he (h.1 d), fun _ => rfl⟩

/-- The build stays, and the events are as R112 says of its `CHAIN`. -/
def EmitsAligned (s t : State) : Prop := t.cfg = s.cfg ∧ EmitsOnly (SwriteEvent s.cfg.chain) s t

theorem EmitsAligned.trans (h : EmitsAligned s t) (k : EmitsAligned t u) : EmitsAligned s u := by
  obtain ⟨hcfg, hemits⟩ := h
  obtain ⟨kcfg, kemits⟩ := k
  rw [hcfg] at kemits
  exact ⟨kcfg.trans hcfg, hemits.trans kemits⟩

theorem hunt_emitsAligned (s : State) : EmitsAligned s (hunt s).1 := by
  refine ⟨(hunt_drainWrites s).onlySwrite.cfg_eq, ?_⟩
  rcases hunt_cases s with ⟨-, he⟩ | ⟨-, -, he⟩ | ⟨-, -, -, he⟩ | ⟨o, -, -, -, he⟩ <;> rw [he]
  · exact .of_events_eq rfl
  · exact .of_events_eq rfl
  · exact .of_emit rfl (swriteEvent_discard _ _)
  · refine ⟨_, rfl, ?_⟩
    split
    · simp
    · exact List.forall_mem_singleton.2 (swriteEvent_discard _ _)

/-- The run that the scan covers has the sync byte at the head of every packet (R107). -/
theorem sync_take_scanPtr {b : List Byte} {j : Nat} (h : 188 * j < (b.take (scanPtr b)).length) :
    (b.take (scanPtr b))[188 * j]? = some syncByte := by
  have hlt : 188 * j < scanPtr b := h.trans_le (List.length_take_le _ _)
  rw [List.getElem?_take_of_lt hlt]
  exact sync_of_lt_scanPtr hlt

theorem scanAndRun_emitsAligned (h : scanAndRun s = .next t) : EmitsAligned s t := by
  rcases scanAndRun_eq_next h with rfl | ⟨-, -, hcfg, es, hes, hdemux⟩
  · exact ⟨rfl, .of_events_eq rfl⟩
  · refine ⟨hcfg, _, hes, List.forall_mem_cons.2 ⟨swriteEvent_run fun j => sync_take_scanPtr, fun e he => ?_⟩⟩
    obtain ⟨hd, hchain⟩ := hdemux e he
    rw [hchain]
    exact swriteEvent_ofDemux hd

theorem run_or_discard_of_not_ofDemux {e : Event} (h : ¬ OfDemux e) : (∃ d, e = .run d) ∨ ∃ n, e = .discard n := by
  unfold OfDemux at h
  by_contra hne
  push Not at hne
  exact h hne

/-- Settles O48: the lengths and counts are those of R75's shapes, the sync bytes are the scan's, and with `CHAIN = 0`
no DWRITE runs. -/
theorem synchronizerOutputIsAligned : Obligations.SynchronizerOutputIsAligned := by
  intro c s t h
  have haligned : EmitsAligned (accAppend c s) t :=
    drainLoop_rel EmitsAligned.trans hunt_emitsAligned scanAndRun_emitsAligned (execSwrite_eq_next h).2
  have hevents := haligned.2.mem_newEvents
  have hshape := (execSwrite_emitsShaped h).shapeOk_newEvents
  refine ⟨fun d hd => ?_, fun n hn => ?_, fun hchain => ⟨?_, fun e he => ?_⟩⟩
  · have hok := hshape _ hd
    simp only [Event.shapeOk, Bool.and_eq_true, decide_eq_true_eq, beq_iff_eq] at hok
    exact ⟨by omega, hok.2, (hevents _ hd).1 d rfl⟩
  · simpa [Event.shapeOk] using hshape _ hn
  · obtain ⟨hframe, -, hctx⟩ := execSwrite_drainWrites h
    have hf := hframe.frame
    rw [hctx hchain] at hf
    exact hf
  · refine run_or_discard_of_not_ofDemux fun hd => ?_
    exact absurd (hchain.symm.trans ((hevents e he).2 hd)) nofun

end Sys2Proof.Machine
end

section
/-! SUPPORT. What a step refuses (R66, R67, R178), and SETN (R111). -/

namespace Sys2Proof.Machine

variable {s t : State} {c : List Byte}

/-! ### SETN -/

theorem execSetn_of_ne_zero {n : BitVec 8} (hn : n ≠ 0#8) (s : State) :
    execSetn n s = .next { s with acc := [], locked := false, nlock := n } := if_neg hn

/-- Settles O17: the two branches of SETN, and its row of the command map. -/
theorem setnResetsSynchronizer : Obligations.SetnResetsSynchronizer := by
  refine ⟨fun n s hn => execSetn_of_ne_zero hn s, fun s => rfl, fun n hn w hw => ?_⟩
  obtain ⟨-, -, -, -, -, -, hsetn, -⟩ := commandWordMap w
  exact (hsetn n).2 ⟨hn, hw⟩

/-! ### The writes -/

/-- Where delivering a list of events is refused, a run's DWRITE is, in the state in which the events before it leave
the machine. -/
theorem feedRuns_completes_or_overflows (es : List Event) (s : State) :
    (∃ t, feedRuns es s = .next t) ∨
    (feedRuns es s = .refused .unitOverflow ∧ ∃ ds d fs u, es = ds ++ .run d :: fs ∧ feedRuns ds s = .next u ∧
      dwriteOverflows d (u.addEvents [.run d])) := by
  induction es generalizing s with
  | nil => exact .inl ⟨s, rfl⟩
  | cons e es ih =>
    have hstep : (∃ u, feedEvent e s = .next u) ∨ (feedEvent e s = .refused .unitOverflow ∧
        ∃ d, e = .run d ∧ dwriteOverflows d (s.addEvents [.run d])) := by
      cases e with
      | run d =>
        exact (demuxWrite_completes_or_overflows d (s.addEvents [.run d])).imp_right fun ⟨hr, hover⟩ =>
          ⟨hr, d, rfl, hover⟩
      | _ => exact .inl ⟨_, rfl⟩
    rcases hstep with ⟨u, hu⟩ | ⟨hr, d, rfl, hover⟩
    · rw [feedRuns_cons, hu, andThen_next]
      refine (ih u).imp_right fun ⟨hr, ds, d, fs, v, hes, hv, hover⟩ => ?_
      refine ⟨hr, e :: ds, d, fs, v, by rw [hes]; rfl, ?_, hover⟩
      rw [feedRuns_cons, hu, andThen_next, hv]
    · exact .inr ⟨by rw [feedRuns_cons, hr]; rfl, [], d, es, s, rfl, rfl, hover⟩

/-- The synchronizer alone completes: without `CHAIN` there is no run to refuse. -/
theorem exec_swrite_unchained (hcap : withinCap s.cfg.accCap (s.acc.length + c.length) = true)
    (hchain : s.cfg.chain = false) : ∃ t, exec (.swrite c) s = .next t := by
  obtain ⟨t, ht⟩ := drain_of_roomForRuns (s := accAppend c s) fun h => absurd (hchain.symm.trans h) nofun
  exact ⟨t, (exec_swrite_of_withinCap hcap).trans ht⟩

/-- An SWRITE within `ACC_CAP` completes, or a chained run of it overflows (R62). -/
theorem exec_swrite_completes_or_overflows (hcap : withinCap s.cfg.accCap (s.acc.length + c.length) = true) :
    (∃ t, exec (.swrite c) s = .next t) ∨ (exec (.swrite c) s = .refused .unitOverflow ∧ swriteOverflows c s) := by
  cases hchain : s.cfg.chain with
  | false => exact .inl (exec_swrite_unchained hcap hchain)
  | true =>
    obtain ⟨t, ht⟩ := exec_swrite_unchained
      (s := { s with cfg := { s.cfg with chain := false }, events := [] }) (c := c) hcap rfl
    rw [chainedWriteInterleavesDwrites c s t hchain ht]
    rcases feedRuns_completes_or_overflows t.events s with ⟨u, hu⟩ | ⟨hr, ds, d, fs, u, hes, hu, hover⟩
    · exact .inl ⟨_, by rw [hu]; rfl⟩
    · exact .inr ⟨by rw [hr]; rfl, hchain, t, ds, d, fs, u, ht, hes, hu, hover⟩

/-! ### The step -/

/-- A command word that decodes completes: the decoder hands on no threshold 0 (R86). -/
theorem exec_of_decodeCmd {w : BitVec 17} {i : Instr} (h : decodeCmd w = .ok i) (s : State) :
    ∃ t, exec i s = .next t := by
  have hwf := (wf_encode_of_decodeCmd h).1
  rcases decodeCmd_eq_ok h with ⟨p, rfl⟩ | ⟨p, rfl⟩ | ⟨p, rfl⟩ | ⟨p, rfl⟩ | ⟨b, rfl⟩ | ⟨b, rfl⟩ | ⟨n, rfl⟩
  · exact ⟨_, rfl⟩
  · exact ⟨_, rfl⟩
  · exact ⟨_, rfl⟩
  · exact ⟨_, rfl⟩
  · exact ⟨_, rfl⟩
  · exact ⟨_, rfl⟩
  · exact ⟨_, execSetn_of_ne_zero (bne_iff_ne.1 hwf) s⟩

/-- Why a step is refused: the reasons of 93_implementation_defined section 3, each with its condition. -/
inductive RefusedBecause (s : State) : Refusal → Prop
  | command (w : BitVec 17) (hw : (nextOp s.part s.wires).1 = some (.cmd w)) (hd : ∀ i, decode (.cmd w) ≠ .ok i) :
    RefusedBecause s .illegalCommand
  | acc (c : List Byte) (hw : (nextOp s.part s.wires).1 = some (.data false c))
    (hcap : withinCap s.cfg.accCap (s.acc.length + c.length) = false) : RefusedBecause s .accOverflow
  | dwrite (c : List Byte) (hw : (nextOp s.part s.wires).1 = some (.data true c))
    (h : dwriteOverflows c s.afterPorts) : RefusedBecause s .unitOverflow
  | swrite (c : List Byte) (hw : (nextOp s.part s.wires).1 = some (.data false c))
    (h : swriteOverflows c s.afterPorts) : RefusedBecause s .unitOverflow

/-- Every step completes or is refused for one of the reasons. -/
theorem step_completes_or_refused (s : State) :
    (∃ t, step s = .next t) ∨ ∃ r, step s = .refused r ∧ RefusedBecause s r := by
  cases hw : (nextOp s.part s.wires).1 with
  | none => exact .inl ⟨_, step_of_wait hw⟩
  | some w =>
    cases w with
    | data dest c =>
      cases dest with
      | false =>
        rw [step_of_decode hw rfl]
        cases hcap : withinCap s.cfg.accCap (s.acc.length + c.length) with
        | true =>
          exact (exec_swrite_completes_or_overflows (s := s.afterPorts) hcap).imp_right fun ⟨hr, hover⟩ =>
            ⟨_, hr, .swrite c hw hover⟩
        | false => exact .inr ⟨_, exec_swrite_of_beyondCap (s := s.afterPorts) hcap, .acc c hw hcap⟩
      | true =>
        rw [step_of_decode hw rfl]
        exact (demuxWrite_completes_or_overflows c s.afterPorts).imp_right fun ⟨hr, hover⟩ =>
          ⟨_, hr, .dwrite c hw hover⟩
    | cmd w =>
      cases hd : decodeCmd w with
      | ok i =>
        rw [step_of_decode hw hd]
        exact .inl (exec_of_decodeCmd hd _)
      | error e =>
        have hno : ∀ i, decode (.cmd w) ≠ .ok i := fun i h => nomatch hd.symm.trans h
        exact .inr ⟨_, step_of_reject hw hno, .command w hw hno⟩
    | pin => exact .inl ⟨_, step_of_decode hw rfl⟩
    | ts bytes => exact absurd hw (nextOp_ne_ts _ _ _)

/-- Settles O59, reading each reason's condition. -/
theorem noStepFaults : Obligations.NoStepFaults := by
  refine ⟨fun s r h => ?_, fun s r h => ?_⟩
  · rcases step_completes_or_refused s with ⟨t, ht⟩ | ⟨r', hr, -⟩
    · exact nomatch h.symm.trans ht
    · exact nomatch h.symm.trans hr
  · rcases step_completes_or_refused s with ⟨t, ht⟩ | ⟨r', hr, hbecause⟩
    · exact nomatch h.symm.trans ht
    · cases h.symm.trans hr
      cases hbecause with
      | command w hw hd => exact .inl ⟨rfl, w, hw, hd⟩
      | acc c hw hcap =>
        obtain ⟨a, ha, hlt⟩ := withinCap_eq_false_iff.1 hcap
        exact .inr (.inl ⟨rfl, c, a, hw, ha, hlt⟩)
      | dwrite c hw hover => exact .inr (.inr ⟨rfl, c, .inl ⟨hw, hover⟩⟩)
      | swrite c hw hover => exact .inr (.inr ⟨rfl, c, .inr ⟨hw, hover⟩⟩)

end Sys2Proof.Machine
end

section
/-! SUPPORT. The packet procedure in the order of R131's steps: the two tests before everything (R132, R133), the
passthrough (R134), the filter gate (R135), and behind it the steps that only a selected PID's packet reaches. -/

namespace Sys2Proof.Machine

variable {s t : State} {p : Packet} {b : List Byte}

/-! ### The steps -/

theorem not_filtered_iff {pid : Pid} : ¬ filtered pid s ↔ pid ∉ s.fset ∧ s.fall = false := by
  simp [filtered]

/-- Steps 7 to 9 of R131 on a start packet (R153). -/
def startUnit (p : Packet) (s : State) : Out :=
  appendUnit p.header.pid p.header.cc [] (payload p) (emitUnit p.header.pid s)

/-- Steps 7 to 9 of R131 on a continuation (R154). -/
def continueUnit (p : Packet) (s : State) : Out :=
  match ctxGet p.header.pid s with
  | none => .next (raiseError .orphan p.header.pid s)
  | some c =>
    appendUnit p.header.pid p.header.cc c.buf (payload p)
      (if cvOk c.cc p.header.cc then s else raiseError .discontinuity p.header.pid s)

/-- Steps 5 to 9 of R131, on a packet whose PID is selected. -/
def reassemble (p : Packet) (s : State) : Out :=
  if p.header.sc ≠ 0#2 then .next (raiseError .scrambled p.header.pid s)
  else if p.header.hasPl = false then .next s
  else if p.header.pusi then startUnit p s
  else continueUnit p s

/-- Steps 3 to 9 of R131, on a packet that passed the first two. -/
def passAndFilter (p : Packet) (s : State) : Out :=
  if filtered p.header.pid s then reassemble p (passthrough p s) else .next (passthrough p s)

theorem ctxGet_passthrough (pid : Pid) (p : Packet) (s : State) : ctxGet pid (passthrough p s) = ctxGet pid s := by
  rw [passthrough_eq]
  rfl

theorem execPStart_eq (p : Packet) (s : State) :
    execPStart p s = if filtered p.header.pid s then startUnit p (passthrough p s) else .next (passthrough p s) := by
  simp only [execPStart, selected_iff]
  rfl

theorem execPCont_eq (p : Packet) (s : State) :
    execPCont p s =
      if filtered p.header.pid s then continueUnit p (passthrough p s) else .next (passthrough p s) := by
  cases hc : ctxGet p.header.pid s <;> simp only [execPCont, selected_iff, continueUnit, ctxGet_passthrough, hc]

theorem scrambledPacket_eq_ite (p : Packet) (s : State) :
    scrambledPacket p s =
      if filtered p.header.pid s then raiseError .scrambled p.header.pid (passthrough p s) else passthrough p s := by
  simp only [scrambledPacket, selected_iff]

/-- Past the first two tests a packet's class does steps 3 to 9: every class passes through first, and the filter
gate stands before what tells the classes apart. -/
theorem execPacket_eq_passAndFilter (hsync : p.header.sync = syncByte) (htei : p.header.tei = false) :
    execPacket p s = passAndFilter p s := by
  have hcls : p.header.cls = if p.header.sc ≠ 0#2 then (if p.header.sc.getLsbD 1 then .scrHi else .scrLo)
      else if !p.header.hasPl then .nopl else if p.header.pusi then .start else .cont := by
    simp [Header.cls, hsync, htei]
  unfold execPacket passAndFilter reassemble
  rw [hcls]
  by_cases hsc : p.header.sc = 0#2
  · cases hpl : p.header.hasPl with
    | false => simp [hsc, execPNopl]
    | true =>
      cases hpusi : p.header.pusi with
      | true => simpa [hsc] using execPStart_eq p s
      | false => simpa [hsc] using execPCont_eq p s
  · cases hhi : p.header.sc.getLsbD 1 with
    | true => simp [hsc, execPScrHi, scrambledPacket_eq_ite, apply_ite Host.Outcome.next]
    | false => simp [hsc, execPScrLo, scrambledPacket_eq_ite, apply_ite Host.Outcome.next]

/-- Step 1 (R132). -/
theorem execPacket_of_badSync (hsync : p.header.sync ≠ syncByte) :
    execPacket p s = .next (s.addEvents [.err .invalidSync none]) := by
  have hcls : p.header.cls = .badsync := by simp [Header.cls, hsync]
  unfold execPacket
  rw [hcls]
  rfl

/-- Step 2 (R133). -/
theorem execPacket_of_tei (hsync : p.header.sync = syncByte) (htei : p.header.tei = true) :
    execPacket p s = .next (s.addEvents [.err .transportError none]) := by
  have hcls : p.header.cls = .tei := by simp [Header.cls, hsync, htei]
  unfold execPacket
  rw [hcls]
  rfl

/-! ### The two classes before the passthrough -/

/-- Settles O23: the class by its test, its meaning by one `ERR`. -/
theorem badSyncOnlyRaises : Obligations.BadSyncOnlyRaises :=
  ⟨fun _ => cls_eq_iff.trans bne_iff_ne, fun _ _ => rfl, rfl⟩

/-- Settles O24: the class by its two tests, its meaning by one `ERR`. -/
theorem transportErrorOnlyRaises : Obligations.TransportErrorOnlyRaises := by
  refine ⟨fun h => ?_, fun _ _ => rfl, rfl⟩
  rw [cls_eq_iff]
  simp [PacketClass.selects, parseHeader]

/-! ### A stride's bytes -/

/-- What a stride decodes to runs as the packet procedure runs the packet read from it. -/
theorem decode_ts_eq_ok {i : Instr} (h : decode (.ts b) = .ok i) :
    b.length = 188 ∧ ∀ s, exec i s = execPacket (parsePacket b) s := by
  change decodePacket b = .ok i at h
  unfold decodePacket at h
  split at h
  next hb =>
    cases h
    exact ⟨hb, fun s => (execPacket_eq_exec _ s).symm⟩
  next => cases h

theorem decode_ts (hb : b.length = 188) :
    decode (.ts b) = .ok ((parsePacket b).header.cls.instr (parsePacket b)) := if_pos hb

/-! ### R131 on the bytes -/

theorem payloadR152_eq (hb : b.length = 188) : payloadR152 b = payload (parsePacket b) := by
  rw [payload_parsePacket, payloadStart_parsePacket, payloadR152, ← hb, List.take_length]
  cases (b.getD 3 0).getLsbD 5 with
  | false => simp [hb]
  | true => rfl

/-- R155's append to the context just written is the append that writes it. -/
theorem appendR155_ctxPut (pid : Pid) (cc : Cc) (buf pl : List Byte) (s : State) :
    appendR155 pid pl (ctxPut pid ⟨cc, buf⟩ s) = appendUnit pid cc buf pl s := by
  simp [appendR155, appendUnit, ctxGet, ctxPut]

theorem passthrough_parsePacket (hb : b.length = 188) (s : State) :
    passthrough (parsePacket b) s =
      if (parsePacket b).header.pid ∈ s.pset ∨ s.pall = true then s.addEvents [.raw (parsePacket b).header.pid b]
      else s := by
  rw [passthrough_eq, rawEvents, bytes_parsePacket hb]
  split
  · rfl
  · simp [State.addEvents]

/-- R131's lines for a start packet: the old unit leaves, the fresh context is written, the payload appended. -/
theorem startUnit_parsePacket (hb : b.length = 188) (s : State) :
    startUnit (parsePacket b) s =
      appendR155 (parsePacket b).header.pid (payloadR152 b)
        (ctxPut (parsePacket b).header.pid ⟨(parsePacket b).header.cc, []⟩
          (emitUnit (parsePacket b).header.pid s)) := by
  rw [payloadR152_eq hb, appendR155_ctxPut, startUnit]

/-- R131's lines for a continuation with a context: the counter is stored, a mismatch reported, the payload
appended. -/
theorem continueUnit_parsePacket (hb : b.length = 188) {c : Ctx}
    (hc : ctxGet (parsePacket b).header.pid s = some c) :
    continueUnit (parsePacket b) s =
      appendR155 (parsePacket b).header.pid (payloadR152 b)
        (if (parsePacket b).header.cc.toNat ≠ (c.cc.toNat + 1) % 16 then
          (ctxPut (parsePacket b).header.pid ⟨(parsePacket b).header.cc, c.buf⟩ s).addEvents
            [.err .discontinuity (some (parsePacket b).header.pid)]
         else ctxPut (parsePacket b).header.pid ⟨(parsePacket b).header.cc, c.buf⟩ s) := by
  rw [payloadR152_eq hb, continueUnit, hc]
  dsimp only
  by_cases hcv : (parsePacket b).header.cc.toNat = (c.cc.toNat + 1) % 16
  · rw [if_pos ((cvOk_iff _ _).2 hcv), if_neg (not_not.2 hcv), appendR155_ctxPut]
  · rw [if_neg (mt (cvOk_iff _ _).1 hcv), if_pos hcv, ← appendR155_ctxPut]
    rfl

/-- The bits that R131 reads are the fields of the packet read from the bytes (R71). -/
theorem headerBits_parsePacket (b : List Byte) :
    let h := headerWord (b.getD 0 0) (b.getD 1 0) (b.getD 2 0) (b.getD 3 0)
    h.extractLsb' 24 8 = (parsePacket b).header.sync ∧ h.getLsbD 23 = (parsePacket b).header.tei ∧
      h.extractLsb' 8 13 = (parsePacket b).header.pid ∧ h.extractLsb' 6 2 = (parsePacket b).header.sc ∧
      h.getLsbD 4 = (parsePacket b).header.hasPl ∧ h.extractLsb' 0 4 = (parsePacket b).header.cc ∧
      h.getLsbD 22 = (parsePacket b).header.pusi :=
  ⟨rfl, rfl, rfl, rfl, rfl, rfl, rfl⟩

/-- Every branch of R131 is a branch of the packet procedure. -/
theorem execPacket_eq_packetR131 (hb : b.length = 188) (s : State) :
    execPacket (parsePacket b) s = packetR131 b s := by
  obtain ⟨hsyncBits, hteiBit, hpid, hsc, hpl, hcc, hpusi⟩ := headerBits_parsePacket b
  unfold packetR131
  simp only [hsyncBits, hteiBit, hpid, hsc, hpl, hcc, hpusi, ← passthrough_parsePacket hb]
  split
  next hsync => exact execPacket_of_badSync hsync
  next hsync =>
  split
  next htei => exact execPacket_of_tei (not_not.1 hsync) htei
  next htei =>
  rw [execPacket_eq_passAndFilter (not_not.1 hsync) (Bool.eq_false_iff.2 htei), passAndFilter]
  generalize passthrough (parsePacket b) s = s1
  by_cases hsel : filtered (parsePacket b).header.pid s
  case neg => rw [if_neg hsel, if_pos (not_filtered_iff.1 hsel)]
  case pos =>
    rw [if_pos hsel, if_neg fun h => not_filtered_iff.2 h hsel, reassemble]
    split
    next => rfl
    split
    next => rfl
    split
    next => exact startUnit_parsePacket hb s1
    cases hc : ctxGet (parsePacket b).header.pid s1 with
    | none => simp only [continueUnit, hc]; rfl
    | some c => exact continueUnit_parsePacket hb hc

/-- Settles O31: a stride's class runs as the packet procedure, which is R131's branch by branch. -/
theorem classesRefinePacketProcedure : Obligations.ClassesRefinePacketProcedure := fun _ s hb =>
  ⟨_, decode_ts hb, ((decode_ts_eq_ok (decode_ts hb)).2 s).trans (execPacket_eq_packetR131 hb s)⟩

/-- The passthrough emits at most one `RAW`, of the packet's own bytes. -/
theorem rawEvents_parsePacket (hb : b.length = 188) (s : State) :
    rawEvents (parsePacket b) s = [] ∨ ∃ pid, rawEvents (parsePacket b) s = [.raw pid b] := by
  unfold rawEvents
  rw [bytes_parsePacket hb]
  split
  · exact .inr ⟨_, rfl⟩
  · exact .inl rfl

/-- Settles O32: a packet appends its raw event, then an error, or the unit that a start packet ends. -/
theorem packetEventsAreOrdered : Obligations.PacketEventsAreOrdered := by
  intro b i s t hd h
  obtain ⟨hb, hexec⟩ := decode_ts_eq_ok hd
  rw [hexec] at h
  have hraw := rawEvents_parsePacket hb s
  rcases execPacket_eq_next h with ⟨raw, rest, rfl, hr, hrest⟩ | ⟨c, rest, rfl, -, -, hcase⟩
  · refine ⟨raw, rest, (List.append_assoc _ _ _).symm, ?_, ?_⟩
    · rcases hr with rfl | rfl
      · exact .inl rfl
      · exact hraw
    · rcases hrest with rfl | ⟨k, q, rfl, -⟩
      · exact .inl rfl
      · exact .inr (.inr ⟨k, q, rfl⟩)
  · refine ⟨_, rest, rfl, hraw, ?_⟩
    rcases hcase with ⟨-, -, rfl⟩ | ⟨-, old, -, -, rfl⟩
    · split
      · exact .inr (.inl ⟨_, _, rfl⟩)
      · exact .inl rfl
    · split
      · exact .inl rfl
      · exact .inr (.inr ⟨_, _, rfl⟩)

end Sys2Proof.Machine
end

section
/-! SUPPORT. DWRITE by its strides (R130): the first stride, then the rest; and a packet offered at the ports as a
DWRITE of its bytes (R80, R90). -/

namespace Sys2Proof.Machine

variable {s t : State} {b : List Byte}

/-! ### The stride loop -/

/-- A chunk that begins with a whole stride is that stride's packet, then the rest of the chunk. -/
theorem demuxWrite_append (hb : b.length = 188) (rest : List Byte) (s : State) :
    demuxWrite (b ++ rest) s = andThen (execPacket (parsePacket b) s) (demuxWrite rest) := by
  have hcount : (b ++ rest).length / 188 = rest.length / 188 + 1 := by rw [List.length_append, hb]; omega
  have hrem : (b ++ rest).length % 188 = rest.length % 188 := by rw [List.length_append, hb]; omega
  unfold demuxWrite lengthCheck
  rw [hcount, hrem, strides_succ, List.take_left' hb, List.drop_left' hb, runStrides, andThen_assoc]

/-- A chunk of one whole stride is its packet. -/
theorem demuxWrite_stride (hb : b.length = 188) (s : State) : demuxWrite b s = execPacket (parsePacket b) s := by
  have h := demuxWrite_append hb [] s
  rw [List.append_nil] at h
  rw [h]
  exact andThen_next_right _

/-- A chunk shorter than a stride is a remainder alone. -/
theorem demuxWrite_of_short (hpos : 0 < b.length) (hlt : b.length < 188) (s : State) :
    demuxWrite b s = .next (s.addEvents [.err .lengthNotMultiple none]) := by
  unfold demuxWrite lengthCheck
  rw [Nat.div_eq_of_lt hlt, Nat.mod_eq_of_lt hlt]
  simp only [if_neg (Nat.ne_of_gt hpos)]
  rfl

/-- Settles O33: the loop's equations for no bytes, a remainder, and a stride with what follows it. -/
theorem dwriteRunsStridesInOrder : Obligations.DwriteRunsStridesInOrder := by
  refine ⟨fun _ => rfl, fun _ => rfl, fun b s hpos hlt => demuxWrite_of_short hpos hlt s,
    fun b rest i s hb hd => ?_, rfl⟩
  rw [(decode_ts_eq_ok hd).2]
  exact demuxWrite_append hb rest s

/-- Settles O34: every stride takes at most its payload of the room. -/
theorem dwriteCompletes : Obligations.DwriteCompletes := by
  intro c s hroom
  obtain ⟨t, ht, -⟩ := demuxWrite_of_roomFor (m := 0) (by rwa [Nat.zero_add])
  obtain ⟨hframe, happended⟩ := demuxWrite_onlyDemux ht
  exact ⟨t, ht, hframe, happended⟩

/-! ### An offered chunk -/

/-- The last beat of an offered chunk completes it. -/
theorem nextOp_offerChunk {dest : Bool} (hne : b ≠ []) (s : State) :
    nextOp (s.offerChunk dest b).part (s.offerChunk dest b).wires = (some (.data dest b), none, s.wires) := by
  have hbytes : b.dropLast ++ [b.getLastD 0] = b := by
    rw [List.getLastD_eq_getLast?, List.getLast?_eq_some_getLast hne]
    exact List.dropLast_append_getLast hne
  apply nextOp_of_completed
  have hbegun : portEdge (some ⟨dest, b.dropLast⟩) (Edge.ofBeat ⟨b.getLastD 0, true, dest⟩) =
      (some (.data dest b), none) := by
    rw [Edge.ofBeat, portEdge_begun_beat, takeBeat_begun_last]
    dsimp only
    rw [hbytes]
  unfold State.offerChunk
  dsimp only
  split
  next hempty =>
    rw [portEdge_idle_beat, ← List.isEmpty_iff.1 hempty]
    exact hbegun
  next => exact hbegun

/-- Settles O11: the step is a DWRITE of one stride. -/
theorem offeredPacketRunsItsClass : Obligations.OfferedPacketRunsItsClass := by
  intro s b i hb hd
  have hne : b ≠ [] := List.ne_nil_of_length_pos (by omega)
  rw [step_of_nextOp (nextOp_offerChunk hne s) (decode_data true b), (decode_ts_eq_ok hd).2]
  exact demuxWrite_stride hb _

end Sys2Proof.Machine
end

section
/-! SUPPORT. The two pairs of selectors (R136): the passthrough pair decides a packet's raw event, and what the filter
pair lets through emits none; the filter pair and the contexts decide the rest, whatever was passed through. -/

namespace Sys2Proof.Machine

variable {s s' t t' u b b' : State} {p : Packet}

/-! ### The tests before the passthrough -/

/-- A packet gets past the tests that stand before the passthrough (R132, R133). -/
abbrev PassesTests (p : Packet) : Prop := p.header.sync = syncByte ∧ p.header.tei = false

/-- A packet that fails a test raises one error without PID, in whatever state; every other does steps 3 to 9. -/
theorem execPacket_cases (p : Packet) :
    (¬ PassesTests p ∧ ∃ k, ∀ s, execPacket p s = .next (s.addEvents [.err k none])) ∨
    (PassesTests p ∧ ∀ s, execPacket p s = passAndFilter p s) := by
  by_cases hsync : p.header.sync = syncByte
  case neg => exact .inl ⟨fun h => hsync h.1, _, fun _ => execPacket_of_badSync hsync⟩
  cases htei : p.header.tei with
  | true => exact .inl ⟨fun ⟨_, hno⟩ => by simp [htei] at hno, _, fun _ => execPacket_of_tei hsync htei⟩
  | false => exact .inr ⟨⟨hsync, htei⟩, fun _ => execPacket_eq_passAndFilter hsync htei⟩

/-! ### The raw events of a DWRITE -/

theorem rawsOf_append (es fs : List Event) : rawsOf (es ++ fs) = rawsOf es ++ rawsOf fs := List.filter_append _ _
theorem nonRawsOf_append (es fs : List Event) : nonRawsOf (es ++ fs) = nonRawsOf es ++ nonRawsOf fs :=
  List.filter_append _ _

theorem rawsOf_rawEvents (p : Packet) (s : State) : rawsOf (rawEvents p s) = rawEvents p s := by
  unfold rawEvents
  split <;> rfl

theorem nonRawsOf_rawEvents (p : Packet) (s : State) : nonRawsOf (rawEvents p s) = [] := by
  unfold rawEvents
  split <;> rfl

theorem rawEvents_congr (hpset : s.pset = s'.pset) (hpall : s.pall = s'.pall) (p : Packet) :
    rawEvents p s = rawEvents p s' := by
  unfold rawEvents
  rw [hpset, hpall]

/-- From `s` to `t` the raw events appended are these. -/
def EmitsRaws (raws : List Event) (s t : State) : Prop := ∃ es, t.events = s.events ++ es ∧ rawsOf es = raws

theorem EmitsRaws.trans {raws raws' : List Event} (h : EmitsRaws raws s t) (k : EmitsRaws raws' t u) :
    EmitsRaws (raws ++ raws') s u := by
  obtain ⟨es, hes, rfl⟩ := h
  obtain ⟨fs, hfs, rfl⟩ := k
  exact ⟨es ++ fs, by rw [hfs, hes, List.append_assoc], rawsOf_append es fs⟩

theorem EmitsRaws.rawsOf_newEvents {raws : List Event} (h : EmitsRaws raws s t) : rawsOf (newEvents s t) = raws := by
  obtain ⟨es, hes, rfl⟩ := h
  rw [newEvents, hes, List.drop_left]

theorem passthrough_emitsRaws (p : Packet) (s : State) : EmitsRaws (rawEvents p s) s (passthrough p s) :=
  ⟨rawEvents p s, by rw [passthrough_eq]; rfl, rawsOf_rawEvents p s⟩

theorem startUnit_emitsRaws (h : startUnit p s = .next t) : EmitsRaws [] s t := by
  obtain ⟨rfl, -⟩ := appendUnit_eq_next h
  rw [emitUnit_eq]
  refine ⟨_, rfl, ?_⟩
  split <;> rfl

theorem continueUnit_emitsRaws (h : continueUnit p s = .next t) : EmitsRaws [] s t := by
  unfold continueUnit at h
  split at h
  next => cases h; exact ⟨_, rfl, rfl⟩
  next c _ =>
    obtain ⟨rfl, -⟩ := appendUnit_eq_next h
    split
    · exact ⟨[], (List.append_nil _).symm, rfl⟩
    · exact ⟨_, rfl, rfl⟩

/-- Behind the filter gate nothing is passed through. -/
theorem reassemble_emitsRaws (h : reassemble p s = .next t) : EmitsRaws [] s t := by
  unfold reassemble at h
  split at h
  next => cases h; exact ⟨_, rfl, rfl⟩
  split at h
  next => cases h; exact ⟨[], (List.append_nil _).symm, rfl⟩
  split at h
  next => exact startUnit_emitsRaws h
  next => exact continueUnit_emitsRaws h

/-- The raw event that a packet emits, if its PID is passed through and no test before stops it (R134). -/
def passedEvents (s : State) (p : Packet) : List Event := if PassesTests p then rawEvents p s else []

theorem execPacket_emitsRaws (h : execPacket p s = .next t) : EmitsRaws (passedEvents s p) s t := by
  unfold passedEvents
  rcases execPacket_cases p with ⟨hfails, k, hexec⟩ | ⟨hpasses, hexec⟩
  · rw [hexec] at h
    cases h
    rw [if_neg hfails]
    exact ⟨_, rfl, rfl⟩
  · rw [hexec, passAndFilter] at h
    rw [if_pos hpasses]
    have hpass := passthrough_emitsRaws p s
    split at h
    next => simpa using hpass.trans (reassemble_emitsRaws h)
    next => cases h; exact hpass

theorem passedEvents_congr (hpset : s.pset = s'.pset) (hpall : s.pall = s'.pall) :
    passedEvents s = passedEvents s' := by
  funext p
  unfold passedEvents
  rw [rawEvents_congr hpset hpall]

/-- The strides' raw events are those of the selectors at the start: no packet writes the passthrough pair. -/
theorem runStrides_emitsRaws {ps : List (List Byte)} (h : runStrides ps s = .next t) :
    EmitsRaws (ps.flatMap fun stride => passedEvents s (parsePacket stride)) s t := by
  induction ps generalizing s with
  | nil => cases h; exact ⟨[], (List.append_nil _).symm, rfl⟩
  | cons stride ps ih =>
    obtain ⟨u, hu, h⟩ := andThen_eq_next h
    have hframe := OnlySwrite.of_onlyDemux (execPacket_onlyDemux hu)
    have hrest := ih h
    rw [passedEvents_congr hframe.pset_eq hframe.pall_eq] at hrest
    exact (execPacket_emitsRaws hu).trans hrest

/-- The raw events of a DWRITE are those of its strides. -/
theorem demuxWrite_emitsRaws {c : List Byte} (h : demuxWrite c s = .next t) :
    EmitsRaws ((strides (c.length / 188) c).flatMap fun stride => passedEvents s (parsePacket stride)) s t := by
  obtain ⟨u, hu, h⟩ := andThen_eq_next h
  have hcheck : EmitsRaws [] u (lengthCheck c u) := by
    unfold lengthCheck
    split
    · exact ⟨[], (List.append_nil _).symm, rfl⟩
    · exact ⟨_, rfl, rfl⟩
  cases h
  simpa using (runStrides_emitsRaws hu).trans hcheck

/-! ### Everything else -/

/-- `s` and `s'` agree in what the filter side of the demultiplexer reads, and since `b` and `b'` the same events other
than raw ones have been emitted. -/
structure FilterAlike (b b' s s' : State) : Prop where
  fset : s.fset = s'.fset
  fall : s.fall = s'.fall
  ctx : s.ctx = s'.ctx
  unitCap : s.cfg.unitCap = s'.cfg.unitCap
  events : ∃ es es', s.events = b.events ++ es ∧ s'.events = b'.events ++ es' ∧ nonRawsOf es = nonRawsOf es'

/-- If the first outcome is a next state, so is the second, and the two are alike. -/
def CompletesAlike (b b' : State) (o o' : Out) : Prop :=
  ∀ t, o = .next t → ∃ t', o' = .next t' ∧ FilterAlike b b' t t'

theorem CompletesAlike.next (h : FilterAlike b b' s s') : CompletesAlike b b' (.next s) (.next s') := by
  intro t ht
  cases ht
  exact ⟨s', rfl, h⟩

namespace FilterAlike

theorem addEvents (h : FilterAlike b b' s s') {es es' : List Event} (heq : nonRawsOf es = nonRawsOf es') :
    FilterAlike b b' (s.addEvents es) (s'.addEvents es') := by
  obtain ⟨fs, fs', hfs, hfs', hsame⟩ := h.events
  refine ⟨h.fset, h.fall, h.ctx, h.unitCap, fs ++ es, fs' ++ es', ?_, ?_, ?_⟩
  · rw [addEvents_events, hfs, List.append_assoc]
  · rw [addEvents_events, hfs', List.append_assoc]
  · rw [nonRawsOf_append, nonRawsOf_append, hsame, heq]

theorem passthrough (h : FilterAlike b b' s s') (p : Packet) :
    FilterAlike b b' (passthrough p s) (passthrough p s') := by
  rw [passthrough_eq, passthrough_eq]
  exact h.addEvents (by rw [nonRawsOf_rawEvents, nonRawsOf_rawEvents])

theorem emitUnit (h : FilterAlike b b' s s') (pid : Pid) : FilterAlike b b' (emitUnit pid s) (emitUnit pid s') := by
  rw [emitUnit_eq, emitUnit_eq, h.ctx]
  exact h.addEvents rfl

theorem ctxPut (h : FilterAlike b b' s s') (pid : Pid) (c : Ctx) :
    FilterAlike b b' (ctxPut pid c s) (ctxPut pid c s') :=
  ⟨h.fset, h.fall, congrArg (tablePut pid c) h.ctx, h.unitCap, h.events⟩

theorem filtered_iff (h : FilterAlike b b' s s') (pid : Pid) : filtered pid s ↔ filtered pid s' := by
  unfold filtered
  rw [h.fset, h.fall]

theorem appendUnit (h : FilterAlike b b' s s') (pid : Pid) (cc : Cc) (buf pl : List Byte) :
    CompletesAlike b b' (appendUnit pid cc buf pl s) (appendUnit pid cc buf pl s') := by
  intro t ht
  obtain ⟨rfl, hcap⟩ := appendUnit_eq_next ht
  exact ⟨_, appendUnit_of_within (h.unitCap ▸ hcap), h.ctxPut _ _⟩

theorem continueUnit (h : FilterAlike b b' s s') (p : Packet) :
    CompletesAlike b b' (continueUnit p s) (continueUnit p s') := by
  have hctx : ctxGet p.header.pid s = ctxGet p.header.pid s' := congrArg (tableGet p.header.pid) h.ctx
  unfold Machine.continueUnit
  rw [hctx]
  split
  next => exact .next (h.addEvents rfl)
  next c _ =>
    split
    · exact h.appendUnit _ _ _ _
    · exact (h.addEvents rfl).appendUnit _ _ _ _

theorem reassemble (h : FilterAlike b b' s s') (p : Packet) :
    CompletesAlike b b' (reassemble p s) (reassemble p s') := by
  unfold Machine.reassemble
  split
  next => exact .next (h.addEvents rfl)
  split
  next => exact .next h
  split
  next => exact (h.emitUnit _).appendUnit _ _ _ _
  next => exact h.continueUnit p

theorem execPacket (h : FilterAlike b b' s s') (p : Packet) :
    CompletesAlike b b' (execPacket p s) (execPacket p s') := by
  rcases execPacket_cases p with ⟨-, k, hexec⟩ | ⟨-, hexec⟩
  · rw [hexec, hexec]
    exact .next (h.addEvents rfl)
  · rw [hexec, hexec, passAndFilter, passAndFilter]
    simp only [h.filtered_iff]
    split
    · exact (h.passthrough p).reassemble p
    · exact .next (h.passthrough p)

theorem runStrides (h : FilterAlike b b' s s') (ps : List (List Byte)) :
    CompletesAlike b b' (runStrides ps s) (runStrides ps s') := by
  induction ps generalizing s s' with
  | nil => exact .next h
  | cons stride ps ih =>
    intro t ht
    obtain ⟨u, hu, ht⟩ := andThen_eq_next ht
    obtain ⟨u', hu', hu⟩ := h.execPacket _ u hu
    obtain ⟨t', ht', ht⟩ := ih hu t ht
    exact ⟨t', by rw [Machine.runStrides, hu']; exact ht', ht⟩

theorem demuxWrite (h : FilterAlike b b' s s') (c : List Byte) :
    CompletesAlike b b' (demuxWrite c s) (demuxWrite c s') := by
  intro t ht
  obtain ⟨u, hu, ht⟩ := andThen_eq_next ht
  obtain ⟨u', hu', hu⟩ := h.runStrides _ u hu
  cases ht
  refine ⟨_, by rw [Machine.demuxWrite, hu']; rfl, ?_⟩
  unfold lengthCheck
  split
  · exact hu
  · exact hu.addEvents rfl

theorem nonRawsOf_newEvents (h : FilterAlike b b' s s') :
    nonRawsOf (newEvents b s) = nonRawsOf (newEvents b' s') := by
  obtain ⟨es, es', hes, hes', hsame⟩ := h.events
  rw [newEvents, newEvents, hes, hes', List.drop_left, List.drop_left, hsame]

end FilterAlike

/-! ### With all four selectors empty -/

/-- All four selectors are empty. -/
structure SelectsNothing (s : State) : Prop where
  pset : s.pset = []
  pall : s.pall = false
  fset : s.fset = []
  fall : s.fall = false

/-- The error of a packet of the two classes that need no selection (R132, R133). -/
def unselectedErrors (p : Packet) : List Event :=
  match p.header.cls with
  | .badsync => [.err .invalidSync none]
  | .tei => [.err .transportError none]
  | _ => []

theorem execPacket_of_selectsNothing (hs : SelectsNothing s) (p : Packet) :
    execPacket p s = .next (s.addEvents (unselectedErrors p)) := by
  have hpass : passthrough p s = s := by simp [passthrough, passed, hs.pset, hs.pall]
  have hsel : selected p.header.pid s = false := by simp [selected, hs.fset, hs.fall]
  have hnone : s = s.addEvents [] := by simp [State.addEvents]
  unfold execPacket unselectedErrors
  cases p.header.cls with
  | badsync => rfl
  | tei => rfl
  | scrHi => simp [execPScrHi, scrambledPacket, hsel, hpass, ← hnone]
  | scrLo => simp [execPScrLo, scrambledPacket, hsel, hpass, ← hnone]
  | nopl => simp [execPNopl, hpass, ← hnone]
  | start => simp [execPStart, hsel, hpass, ← hnone]
  | cont => simp [execPCont, hsel, hpass, ← hnone]

theorem runStrides_of_selectsNothing (hs : SelectsNothing s) (ps : List (List Byte)) :
    runStrides ps s = .next (s.addEvents (ps.flatMap fun stride => unselectedErrors (parsePacket stride))) := by
  induction ps generalizing s with
  | nil => simp [runStrides, State.addEvents]
  | cons stride ps ih =>
    have hs' : SelectsNothing (s.addEvents (unselectedErrors (parsePacket stride))) :=
      ⟨hs.pset, hs.pall, hs.fset, hs.fall⟩
    rw [runStrides, execPacket_of_selectsNothing hs, andThen_next, ih hs', addEvents_addEvents]
    rfl

theorem demuxWrite_of_selectsNothing (hs : SelectsNothing s) (c : List Byte) :
    demuxWrite c s = .next (s.addEvents
      ((strides (c.length / 188) c).flatMap (fun stride => unselectedErrors (parsePacket stride)) ++
        if c.length % 188 = 0 then [] else [.err .lengthNotMultiple none])) := by
  rw [demuxWrite, runStrides_of_selectsNothing hs, andThen_next, ← addEvents_addEvents, lengthCheck]
  split
  · simp [State.addEvents]
  · rfl

theorem mem_unselectedErrors {e : Event} (h : e ∈ unselectedErrors p) :
    e = .err .invalidSync none ∨ e = .err .transportError none := by
  unfold unselectedErrors at h
  split at h
  · exact .inl (List.mem_singleton.1 h)
  · exact .inr (List.mem_singleton.1 h)
  · exact absurd h List.not_mem_nil

theorem unselectedErrors_eq_nil (hbadsync : p.header.cls ≠ .badsync) (htei : p.header.cls ≠ .tei) :
    unselectedErrors p = [] := by
  unfold unselectedErrors
  split
  · exact absurd ‹_› hbadsync
  · exact absurd ‹_› htei
  · rfl

/-- Settles O35, clause by clause: the raw events, everything else, and the errors that need no selection. -/
theorem selectorsAreIndependent : Obligations.SelectorsAreIndependent := by
  refine ⟨fun c s s' t t' hpset hpall h h' => ?_, fun c s s' t hfset hfall hctx hcap h => ?_,
    fun c s t hpset hpall hfset hfall h e he => ?_, fun c s hpset hpall hfset hfall hwhole hclean => ?_⟩
  · have hraws := demuxWrite_emitsRaws h
    rw [passedEvents_congr hpset hpall] at hraws
    rw [hraws.rawsOf_newEvents, (demuxWrite_emitsRaws h').rawsOf_newEvents]
  · have hstart : FilterAlike s s' s s' := ⟨hfset, hfall, hctx, hcap, [], [], by simp, by simp, rfl⟩
    obtain ⟨t', ht', halike⟩ := hstart.demuxWrite c t h
    exact ⟨t', ht', halike.ctx.symm, halike.nonRawsOf_newEvents⟩
  · cases (demuxWrite_of_selectsNothing ⟨hpset, hpall, hfset, hfall⟩ c).symm.trans h
    rw [newEvents, addEvents_events, List.drop_left, List.mem_append, List.mem_flatMap] at he
    rcases he with ⟨stride, -, he⟩ | he
    · exact (mem_unselectedErrors he).imp_right .inl
    · split at he
      · exact absurd he List.not_mem_nil
      · exact .inr (.inr (List.mem_singleton.1 he))
  · have hnone : ((strides (c.length / 188) c).flatMap fun stride => unselectedErrors (parsePacket stride)) = [] := by
      rw [List.flatMap_eq_nil_iff]
      intro stride hstride
      obtain ⟨k, hk, rfl⟩ := mem_strides hstride
      obtain ⟨hbadsync, htei⟩ := hclean k (by omega)
      exact unselectedErrors_eq_nil hbadsync htei
    refine (demuxWrite_of_selectsNothing ⟨hpset, hpall, hfset, hfall⟩ c).trans ?_
    rw [hnone, if_pos hwhole]
    simp [State.addEvents]

end Sys2Proof.Machine
end

section
/-! SUPPORT. The classes behind the passthrough, each by its equations (R150, R151, R153, R154): what a packet of the
class does to a state in which its PID is selected, and that for an unselected PID it is only passed through (R135). -/

namespace Sys2Proof.Machine

variable {s : State} {p : Packet}

/-! ### The continuity validator -/

/-- Settles O30: the validator compares with the successor, which is computed modulo sixteen. -/
theorem continuityIsModSixteen : Obligations.ContinuityIsModSixteen :=
  ⟨cvOk_iff, fun prev => ⟨nextCc prev, beq_self_eq_true _, fun _ h => eq_of_beq h⟩, rfl, rfl⟩

/-! ### `P_NOPL` -/

/-- Settles O26: the class by its tests, its meaning by the passthrough. -/
theorem noPayloadStopsSilently : Obligations.NoPayloadStopsSilently := by
  refine ⟨fun h => ?_, fun p s => congrArg Host.Outcome.next (passthrough_eq p s)⟩
  rw [cls_eq_iff]
  simp [PacketClass.selects, parseHeader, and_assoc]

/-! ### `P_SCR` -/

/-- The table's two rows of `P_SCR` are together the scrambled packets. -/
theorem sc_ne_zero_iff (sc : BitVec 2) : sc ≠ 0#2 ↔ sc.getLsbD 1 = true ∨ sc = 1#2 := by
  revert sc
  decide

theorem scrambledPacket_of_filtered (hsel : filtered p.header.pid s) :
    scrambledPacket p s = s.addEvents (rawEvents p s ++ [.err .scrambled (some p.header.pid)]) := by
  rw [scrambledPacket_eq_ite, if_pos hsel, raiseError_eq, passthrough_eq, addEvents_addEvents]
  rfl

theorem scrambledPacket_of_not_filtered (hsel : ¬ filtered p.header.pid s) :
    scrambledPacket p s = s.addEvents (rawEvents p s) := by
  rw [scrambledPacket_eq_ite, if_neg hsel, passthrough_eq]

/-- Settles O25: both rows run the one procedure for scrambled packets, whose branches are the filter gate's. -/
theorem scrambledRaisesAfterPassthrough : Obligations.ScrambledRaisesAfterPassthrough := by
  refine ⟨fun h => ?_, fun p s hsel => ?_, fun p s hsel => ?_, rfl⟩
  · rw [cls_eq_iff, cls_eq_iff, sc_ne_zero_iff]
    simp only [PacketClass.selects, Bool.and_eq_true, beq_iff_eq, Bool.not_eq_true', ← and_or_left, and_assoc]
    rfl
  · rw [← scrambledPacket_of_filtered hsel]
    exact ⟨rfl, rfl⟩
  · rw [← scrambledPacket_of_not_filtered hsel]
    exact ⟨rfl, rfl⟩

/-! ### `P_START` -/

/-- An append beyond a finite `UNIT_CAP` is refused (R155, R67). -/
theorem appendUnit_of_beyond {pid : Pid} {cc : Cc} {buf pl : List Byte}
    (h : withinCap s.cfg.unitCap (buf ++ pl).length = false) : appendUnit pid cc buf pl s = .refused .unitOverflow :=
  if_neg (by rw [h]; exact Bool.false_ne_true)

theorem exec_pStart (p : Packet) (s : State) :
    exec (.pStart p) s = if filtered p.header.pid s then startUnit p (s.addEvents (rawEvents p s))
      else .next (s.addEvents (rawEvents p s)) := by
  rw [← passthrough_eq]
  exact execPStart_eq p s

theorem startUnit_of_within (hcap : withinCap s.cfg.unitCap (payload p).length = true) :
    startUnit p s = .next (ctxPut p.header.pid ⟨p.header.cc, payload p⟩ (emitUnit p.header.pid s)) :=
  appendUnit_of_within (by rwa [emitUnit_eq])

theorem startUnit_of_beyond (hcap : withinCap s.cfg.unitCap (payload p).length = false) :
    startUnit p s = .refused .unitOverflow :=
  appendUnit_of_beyond (by rwa [emitUnit_eq])

/-- Settles O27: behind the gate the packet starts a unit, which is an append to a fresh buffer. -/
theorem startReplacesContext : Obligations.StartReplacesContext := by
  refine ⟨fun h => ?_, fun p s hsel hcap => ?_, fun p s hsel hcap => ?_,
    fun p s hsel => (exec_pStart p s).trans (if_neg hsel)⟩
  · rw [cls_eq_iff]
    simp [PacketClass.selects, parseHeader, and_assoc]
  · refine ⟨tablePut p.header.pid ⟨p.header.cc, payload p⟩ s.ctx, ?_, tableGet_put_same _ _ _,
      fun q hq => tableGet_put_other hq _ _⟩
    rw [exec_pStart, if_pos hsel, startUnit_of_within (s := s.addEvents _) hcap, emitUnit_eq]
    rfl
  · rw [exec_pStart, if_pos hsel, startUnit_of_beyond (s := s.addEvents _) hcap]

/-! ### `P_CONT` -/

theorem exec_pCont (p : Packet) (s : State) :
    exec (.pCont p) s = if filtered p.header.pid s then continueUnit p (s.addEvents (rawEvents p s))
      else .next (s.addEvents (rawEvents p s)) := by
  rw [← passthrough_eq]
  exact execPCont_eq p s

/-- Without a context a continuation is an orphan (R189). -/
theorem continueUnit_of_orphan (hctx : tableGet p.header.pid s.ctx = none) :
    continueUnit p s = .next (s.addEvents [.err .orphan (some p.header.pid)]) := by
  have hget : ctxGet p.header.pid s = none := hctx
  simp only [continueUnit, hget]
  rfl

/-- The report of a continuation whose counter does not follow the stored one (R154, R190). -/
def discontinuityEvents (prev : Cc) (p : Packet) : List Event :=
  if p.header.cc.toNat = (prev.toNat + 1) % 16 then [] else [.err .discontinuity (some p.header.pid)]

/-- With a context the report is the counter's, and the append is the same either way. -/
theorem continueUnit_of_context {old : Ctx} (hctx : tableGet p.header.pid s.ctx = some old) :
    continueUnit p s = appendUnit p.header.pid p.header.cc old.buf (payload p)
      (s.addEvents (discontinuityEvents old.cc p)) := by
  have hget : ctxGet p.header.pid s = some old := hctx
  simp only [continueUnit, hget, cvOk_iff, discontinuityEvents]
  split
  · simp [State.addEvents]
  · rfl

/-- Settles O28: behind the gate the packet is an orphan or continues the unit, which is an append to its buffer. -/
theorem continuationAppends : Obligations.ContinuationAppends := by
  refine ⟨fun h => ?_, fun p s old hsel hctx hcap => ?_, fun p s old hsel hctx hcap => ?_, fun p s hsel hctx => ?_,
    fun p s hsel => (exec_pCont p s).trans (if_neg hsel), rfl, rfl⟩
  · rw [cls_eq_iff]
    simp [PacketClass.selects, parseHeader, and_assoc]
  · refine ⟨tablePut p.header.pid ⟨p.header.cc, old.buf ++ payload p⟩ s.ctx, ?_, tableGet_put_same _ _ _,
      fun q hq => tableGet_put_other hq _ _⟩
    rw [← List.length_append] at hcap
    rw [exec_pCont, if_pos hsel, continueUnit_of_context (s := s.addEvents _) hctx]
    exact appendUnit_of_within hcap
  · rw [← List.length_append] at hcap
    rw [exec_pCont, if_pos hsel, continueUnit_of_context (s := s.addEvents _) hctx]
    exact appendUnit_of_beyond hcap
  · rw [exec_pCont, if_pos hsel, continueUnit_of_orphan (s := s.addEvents _) hctx, addEvents_addEvents]

end Sys2Proof.Machine
end

section
/-! SUPPORT. A unit from its start to the next (R158): of the packets in between, a continuation of the PID appends its
payload to the PID's buffer, and every other leaves the PID's context as it is and emits no unit of the PID. -/

namespace Sys2Proof.Machine

variable {s t u : State} {pid : Pid} {k : Packet}

/-! ### The units of one PID -/

theorem unitsOf_append (pid : Pid) (es fs : List Event) : unitsOf pid (es ++ fs) = unitsOf pid es ++ unitsOf pid fs :=
  List.filterMap_append

theorem unitsOf_rawEvents (pid : Pid) (p : Packet) (s : State) : unitsOf pid (rawEvents p s) = [] := by
  unfold rawEvents
  split <;> rfl

/-- From `s` to `t` the units of the PID that are appended are these. -/
def EmitsUnits (pid : Pid) (units : List (List Byte)) (s t : State) : Prop :=
  ∃ es, t.events = s.events ++ es ∧ unitsOf pid es = units

theorem EmitsUnits.trans {units units' : List (List Byte)} (h : EmitsUnits pid units s t)
    (h' : EmitsUnits pid units' t u) : EmitsUnits pid (units ++ units') s u := by
  obtain ⟨es, hes, rfl⟩ := h
  obtain ⟨fs, hfs, rfl⟩ := h'
  exact ⟨es ++ fs, by rw [hfs, hes, List.append_assoc], unitsOf_append pid es fs⟩

theorem EmitsUnits.unitsOf_newEvents {units : List (List Byte)} (h : EmitsUnits pid units s t) :
    unitsOf pid (newEvents s t) = units := by
  obtain ⟨es, hes, rfl⟩ := h
  rw [newEvents, hes, List.drop_left]

/-! ### One packet -/

/-- The PID is selected, and the build puts no bound on its buffer. -/
structure Reassembles (pid : Pid) (s : State) : Prop where
  unbounded : s.cfg.unitCap = none
  selected : filtered pid s

theorem Reassembles.of_onlyDemux (hs : Reassembles pid s) (h : OnlyDemux s t) : Reassembles pid t := by
  obtain ⟨hcap, hsel⟩ := hs
  rw [h.frame]
  exact ⟨hcap, hsel⟩

theorem Reassembles.withinCap (hs : Reassembles pid s) (n : Nat) : withinCap s.cfg.unitCap n = true := by
  rw [hs.unbounded]
  rfl

/-- In a build without `UNIT_CAP` every packet completes (R67). -/
theorem execPacket_of_unbounded (hcap : s.cfg.unitCap = none) (k : Packet) : ∃ t, execPacket k s = .next t := by
  rcases execPacket_completes_or_overflows k s with h | ⟨-, -, c, hc, -⟩
  · exact h
  · rw [hcap] at hc
    cases hc

theorem wf_pStart_iff : (Instr.pStart k).wf = true ↔ k.wf = true ∧ k.header.cls = .start := by
  rw [cls_eq_iff, ← Bool.and_eq_true]
  rfl

/-- A start emits the unit in progress, if any, and the PID's context is its own counter and payload (R153). -/
theorem execPacket_starts (hs : Reassembles pid s) (hk : k.header.cls = .start) (hpid : k.header.pid = pid) :
    ∃ t, execPacket k s = .next t ∧ EmitsUnits pid ((tableGet pid s.ctx).map Ctx.buf).toList s t ∧
      tableGet pid t.ctx = some ⟨k.header.cc, payload k⟩ := by
  subst hpid
  obtain ⟨-, replaces, -⟩ := startReplacesContext
  obtain ⟨c, ht, hctx, -⟩ := replaces k s hs.selected (hs.withinCap _)
  refine ⟨_, by rw [execPacket_eq_exec, hk]; exact ht, ⟨_, List.append_assoc _ _ _, ?_⟩, hctx⟩
  rw [unitsOf_append, unitsOf_rawEvents]
  cases tableGet k.header.pid s.ctx with
  | none => rfl
  | some old => simp [unitsOf]

/-- The packet continues the PID's unit. -/
def continues (pid : Pid) (k : Packet) : Bool := k.header.cls == .cont && k.header.pid == pid

/-- A continuation appends its payload and emits no unit, whatever its counter (R154). -/
theorem execPacket_continues {old : Ctx} (hs : Reassembles pid s) (hold : tableGet pid s.ctx = some old)
    (hk : continues pid k = true) :
    ∃ t, execPacket k s = .next t ∧ EmitsUnits pid [] s t ∧
      tableGet pid t.ctx = some ⟨k.header.cc, old.buf ++ payload k⟩ := by
  obtain ⟨hcls, rfl⟩ : k.header.cls = .cont ∧ k.header.pid = pid := by simpa [continues] using hk
  obtain ⟨-, appends, -⟩ := continuationAppends
  obtain ⟨c, ht, hctx, -⟩ := appends k s old hs.selected hold (hs.withinCap _)
  refine ⟨_, by rw [execPacket_eq_exec, hcls]; exact ht, ⟨_, List.append_assoc _ _ _, ?_⟩, hctx⟩
  rw [unitsOf_append, unitsOf_rawEvents]
  split <;> rfl

/-- Every packet that is neither a start nor a continuation of the PID leaves its context and emits no unit of it. -/
theorem execPacket_passes_by (hstart : k.header.cls ≠ .start ∨ k.header.pid ≠ pid) (hcont : continues pid k = false)
    (h : execPacket k s = .next t) : EmitsUnits pid [] s t ∧ tableGet pid t.ctx = tableGet pid s.ctx := by
  rcases execPacket_eq_next h with ⟨raw, rest, rfl, hraw, hrest⟩ | ⟨c, rest, rfl, -, -, hcase⟩
  · refine ⟨⟨raw ++ rest, rfl, ?_⟩, rfl⟩
    have hraws : unitsOf pid raw = [] := by
      rcases hraw with rfl | rfl
      · rfl
      · exact unitsOf_rawEvents pid k s
    rw [unitsOf_append, hraws]
    rcases hrest with rfl | ⟨kind, q, rfl, -⟩ <;> rfl
  · have hother : k.header.pid ≠ pid := by
      rcases hcase with ⟨hcls, -⟩ | ⟨hcls, -⟩
      · exact hstart.resolve_left (not_not.2 hcls)
      · simpa [continues, hcls] using hcont
    refine ⟨⟨_, List.append_assoc _ _ _, ?_⟩, tableGet_put_other hother.symm _ _⟩
    rw [unitsOf_append, unitsOf_rawEvents]
    rcases hcase with ⟨-, -, rfl⟩ | ⟨-, old, -, -, rfl⟩
    · split <;> simp [unitsOf, hother]
    · split <;> rfl

/-- What a packet that is no start of the PID adds to the PID's unit: its payload, if it is a continuation of it. -/
theorem execPacket_extends {old : Ctx} (hs : Reassembles pid s) (hold : tableGet pid s.ctx = some old)
    (hstart : k.header.cls ≠ .start ∨ k.header.pid ≠ pid) :
    ∃ t c, execPacket k s = .next t ∧ EmitsUnits pid [] s t ∧ tableGet pid t.ctx = some c ∧
      c.buf = old.buf ++ ([k].filter (continues pid)).flatMap payload := by
  cases hk : continues pid k with
  | true =>
    obtain ⟨t, ht, hunits, hctx⟩ := execPacket_continues hs hold hk
    exact ⟨t, _, ht, hunits, hctx, by simp [hk]⟩
  | false =>
    obtain ⟨t, ht⟩ := execPacket_of_unbounded hs.unbounded k
    obtain ⟨hunits, hctx⟩ := execPacket_passes_by hstart hk ht
    exact ⟨t, old, ht, hunits, hctx.trans hold, by simp [hk]⟩

/-! ### A DWRITE of packets -/

/-- A DWRITE of a packet's bytes and more runs the packet, then the rest. -/
theorem demuxWrite_flatMap_cons (hk : k.wf = true) (ks : List Packet) (s : State) :
    demuxWrite ((k :: ks).flatMap Packet.bytes) s =
      andThen (execPacket k s) (demuxWrite (ks.flatMap Packet.bytes)) := by
  rw [List.flatMap_cons, demuxWrite_append (bytes_length_of_wf hk), parsePacket_bytes]

/-- With a unit in progress, whatever packets come before the next start of the PID: that start emits the unit with the
payloads of the continuations behind it, in order. -/
theorem demuxWrite_completes_unit {ks : List Packet} {old : Ctx} (hs : Reassembles pid s)
    (hold : tableGet pid s.ctx = some old)
    (hks : ∀ k ∈ ks, k.wf = true ∧ (k.header.cls ≠ .start ∨ k.header.pid ≠ pid))
    (hwf : k.wf = true) (hk : k.header.cls = .start) (hpid : k.header.pid = pid) :
    ∃ t, demuxWrite ((ks ++ [k]).flatMap Packet.bytes) s = .next t ∧
      EmitsUnits pid [old.buf ++ (ks.filter (continues pid)).flatMap payload] s t ∧
      tableGet pid t.ctx = some ⟨k.header.cc, payload k⟩ := by
  induction ks generalizing s old with
  | nil =>
    obtain ⟨t, ht, hunits, hctx⟩ := execPacket_starts hs hk hpid
    rw [hold] at hunits
    exact ⟨t, by rw [List.nil_append, demuxWrite_flatMap_cons hwf, ht]; rfl, by simpa using hunits, hctx⟩
  | cons k' ks ih =>
    obtain ⟨⟨hwf', hstart⟩, hks⟩ := List.forall_mem_cons.1 hks
    obtain ⟨u, c, hu, hnone, hc, hbuf⟩ := execPacket_extends hs hold hstart
    obtain ⟨t, ht, hunits, hctx⟩ := ih (hs.of_onlyDemux (execPacket_onlyDemux hu)) hc hks
    refine ⟨t, by rw [List.cons_append, demuxWrite_flatMap_cons hwf', hu]; exact ht, ?_, hctx⟩
    have hsplit : (k' :: ks).filter (continues pid) = [k'].filter (continues pid) ++ ks.filter (continues pid) :=
      List.filter_append [k'] ks
    rw [hsplit, List.flatMap_append, ← List.append_assoc, ← hbuf]
    exact hnone.trans hunits

/-- Settles O36: the first start opens the unit, and the packets up to the second start complete it. -/
theorem unitIsConcatenationOfPayloads : Obligations.UnitIsConcatenationOfPayloads := by
  intro s pid k0 k1 ks hcap hsel hwf0 hpid0 hwf1 hpid1 hks
  obtain ⟨hwf0, hk0⟩ := wf_pStart_iff.1 hwf0
  obtain ⟨hwf1, hk1⟩ := wf_pStart_iff.1 hwf1
  have hs : Reassembles pid s := ⟨hcap, hsel⟩
  obtain ⟨u, hu, hold, hopen⟩ := execPacket_starts hs hk0 hpid0
  obtain ⟨t, ht, hunit, hctx⟩ :=
    demuxWrite_completes_unit (hs.of_onlyDemux (execPacket_onlyDemux hu)) hopen hks hwf1 hk1 hpid1
  refine ⟨t, ?_, ?_, hctx⟩
  · change demuxWrite ((k0 :: (ks ++ [k1])).flatMap Packet.bytes) s = _
    rw [demuxWrite_flatMap_cons hwf0, hu]
    exact ht
  · rw [(hold.trans hunit).unitsOf_newEvents]
    cases tableGet pid s.ctx <;> rfl

end Sys2Proof.Machine
end

section
/-! SUPPORT. The configuration operations and RESET (R170 to R177): one write each to a set, a flag or every element,
and nothing else. What a set or a table holds after the write is said by the laws of the tables. -/

namespace Sys2Proof.Machine

/-! ### What each operation answers -/

section
variable (p : Pid) (b : Bool) (s : State)

theorem exec_addf : exec (.addf p) s = .next { s with fset := pidInsert p s.fset } := rfl
theorem exec_addp : exec (.addp p) s = .next { s with pset := pidInsert p s.pset } := rfl
theorem exec_rmp : exec (.rmp p) s = .next { s with pset := pidErase p s.pset } := rfl
theorem exec_setfall : exec (.setfall b) s = .next { s with fall := b } := rfl
theorem exec_setpall : exec (.setpall b) s = .next { s with pall := b } := rfl

/-- In this hardware `RMF_DROPS_CTX` is 1 (R7, D15), so the context goes with the membership. -/
theorem exec_rmf :
    exec (.rmf p) s = .next { s with fset := pidErase p s.fset, ctx := tableDrop p s.ctx } := rfl

end

/-! ### The statements: the answer, the law of the set or table it writes, and the row of the command map -/

/-- Settles O18: the new set is the old one with the PID inserted. -/
theorem addSetsOneBit : Obligations.AddSetsOneBit := by
  intro p s
  refine ⟨⟨_, exec_addf p s, fun q => mem_pidInsert p q s.fset⟩, ⟨_, exec_addp p s, fun q => mem_pidInsert p q s.pset⟩,
    fun w hw => ?_, fun w hw => ?_⟩
  all_goals obtain ⟨haddf, -, haddp, -⟩ := commandWordMap w
  · exact (haddf p).2 hw
  · exact (haddp p).2 hw

/-- Settles O19: the PID is erased from the set and its entry dropped from the table. -/
theorem rmfDestroysContext : Obligations.RmfDestroysContext := by
  intro p s
  refine ⟨⟨_, _, exec_rmf p s, fun q => mem_pidErase p q s.fset, tableGet_drop_same p s.ctx,
    fun q hq => tableGet_drop_other hq s.ctx⟩, fun w hw => ?_⟩
  obtain ⟨-, hrmf, -⟩ := commandWordMap w
  exact (hrmf p).2 hw

/-- Settles O20: the new set is the old one with the PID erased. -/
theorem rmpClearsOneBit : Obligations.RmpClearsOneBit := by
  intro p s
  refine ⟨⟨_, exec_rmp p s, fun q => mem_pidErase p q s.pset⟩, fun w hw => ?_⟩
  obtain ⟨-, -, -, hrmp, -⟩ := commandWordMap w
  exact (hrmp p).2 hw

/-- Settles O16: RESET answers `State.reset` with the build, the caller's edges and the delivered events kept. -/
theorem resetValues : Obligations.ResetValues := fun _ => ⟨rfl, rfl⟩

/-- Settles O21: each flag operation is one write of its flag. -/
theorem flagWrites : Obligations.FlagWrites := by
  intro b s
  refine ⟨exec_setfall b s, exec_setpall b s, fun w hw => ?_, fun w hw => ?_⟩
  all_goals obtain ⟨-, -, -, -, hsetfall, hsetpall, -⟩ := commandWordMap w
  · exact (hsetfall b).2 hw
  · exact (hsetpall b).2 hw

end Sys2Proof.Machine
end

section
/-! SUPPORT. The handshakes at an edge where no operation executes (R89, R92, R210): when each ready signal is 1, and
what the edge transfers. -/

namespace Sys2Proof.Machine

variable {c : Option PartChunk} {e : Edge} {w : BitVec 17} {b : InBeat}

/-! ### When a port is ready -/

/-- R92: a command word is taken in idle only. -/
theorem cmdReady_iff : cmdReady c e = true ↔ e.rst = false ∧ c = none := by
  simp [cmdReady]

/-- R92, log entries 17 and 23: a beat is taken with a chunk begun, and in idle where no command is offered with it. -/
theorem inReady_iff :
    inReady c e = true ↔ e.rst = false ∧ (c.isSome = true ∨ e.cmd = none ∨ e.beat = none) := by
  simp [inReady, or_assoc]

theorem waitingOutputs_of_rst (h : e.rst = true) : waitingOutputs c e = ⟨false, false, none⟩ := by
  simp [waitingOutputs, inReady, cmdReady, h]

theorem waitingOutputs_idle (hrst : e.rst = false) (h : e.cmd = none ∨ e.beat = none) :
    waitingOutputs none e = ⟨true, true, none⟩ := by
  rw [waitingOutputs, inReady_iff.2 ⟨hrst, .inr h⟩, cmdReady_iff.2 ⟨hrst, rfl⟩]

theorem waitingOutputs_begun (p : PartChunk) (hrst : e.rst = false) :
    waitingOutputs (some p) e = ⟨true, false, none⟩ := by
  rw [waitingOutputs, inReady_iff.2 ⟨hrst, .inl rfl⟩]
  simp [cmdReady]

theorem executingOutputs_evValid_iff (q : List EvtBeat) : (executingOutputs false q).evValid = true ↔ q ≠ [] := by
  simp [Outputs.evValid]

/-! ### What an edge transfers -/

theorem portEdge_of_cmdReady (hready : cmdReady c e = true) (hcmd : e.cmd = some w) :
    portEdge c e = (some (.cmd w), c) := by
  obtain ⟨hrst, -⟩ := cmdReady_iff.1 hready
  simp [portEdge, hrst, hready, hcmd]

/-- The two ports exclude each other: where an offered beat is taken, no command word is. -/
theorem cmd_waits_of_inReady (hready : inReady c e = true) (hbeat : e.beat = some b) :
    (cmdReady c e && e.cmd.isSome) = false := by
  obtain ⟨-, hbegun | hcmd | hnone⟩ := inReady_iff.1 hready
  · obtain ⟨p, rfl⟩ := Option.isSome_iff_exists.1 hbegun
    simp [cmdReady]
  · simp [hcmd]
  · simp [hnone] at hbeat

theorem portEdge_of_inReady (hready : inReady c e = true) (hbeat : e.beat = some b) :
    portEdge c e = takeBeat c b := by
  obtain ⟨hrst, -⟩ := inReady_iff.1 hready
  simp [portEdge, hrst, cmd_waits_of_inReady hready hbeat, hbeat, hready]

/-- An edge that transfers nothing completes nothing and leaves the chunk as it is. -/
theorem portEdge_of_no_transfer (hrst : e.rst = false) (hcmd : cmdReady c e = false ∨ e.cmd = none)
    (hbeat : inReady c e = false ∨ e.beat = none) : portEdge c e = (none, c) := by
  have hnocmd : (cmdReady c e && e.cmd.isSome) = false := by
    rcases hcmd with h | h <;> simp [h]
  unfold portEdge
  rw [hrst, hnocmd]
  rcases hbeat with h | h
  · cases e.beat <;> simp [h]
  · simp [h]

/-- Settles O14: the signals phase by phase, then what an edge transfers by who offers and is ready. -/
theorem portSignals : Obligations.PortSignals :=
  ⟨fun _ _ hrst => ⟨waitingOutputs_of_rst hrst, portEdge_of_rst hrst⟩,
    fun q => ⟨rfl, rfl, executingOutputs_evValid_iff q⟩,
    fun _ => waitingOutputs_idle,
    fun _ _ => rfl,
    fun p _ => waitingOutputs_begun p,
    fun _ _ hrst => ⟨fun _ => portEdge_of_cmdReady, fun _ => portEdge_of_inReady, portEdge_of_no_transfer hrst⟩⟩

end Sys2Proof.Machine
end

section
/-! SUPPORT. The words that the spec writes out (95_test_vectors.md sections 3 and 5), each read by the general laws of
its format. -/

namespace Sys2Proof

/-- Settles O1: a command word is the encoding of its instruction, a header word meets the condition of its row. -/
theorem specWordsDecode : Obligations.SpecWordsDecode :=
  ⟨decode_eq_ok_iff.2 (by decide), decode_eq_ok_iff.2 (by decide), decode_eq_ok_iff.2 (by decide),
    decode_eq_ok_iff.2 (by decide), decode_eq_ok_iff.2 (by decide), decode_eq_ok_iff.2 (by decide),
    decode_eq_ok_iff.2 (by decide), rfl,
    cls_eq_iff.2 (by decide), cls_eq_iff.2 (by decide), cls_eq_iff.2 (by decide), cls_eq_iff.2 (by decide),
    cls_eq_iff.2 (by decide), cls_eq_iff.2 (by decide), cls_eq_iff.2 (by decide)⟩

end Sys2Proof
end

section
/-! SUPPORT. Cutting a chunk in two (C11, S1): the synchronizer decides one stride or one search at a time, each
decision by bytes that it holds. Bytes that come later change no decision, so every way to cut the bytes makes the
same ones, one way earlier than another. -/

namespace Sys2Proof.Machine

open Relation (ReflTransGen)

variable {s t u : State} {n : Nat}

/-! ### The synchronizer's decisions -/

/-- What the synchronizer decides by and what it has emitted: the lock, the bytes held, the run bytes so far. -/
structure SyncView where
  locked : Bool
  held : List Byte
  emitted : List Byte

/-- The bytes that a later write brings. -/
def SyncView.more (c : List Byte) (x : SyncView) : SyncView := { x with held := x.held ++ c }

@[simp] theorem SyncView.more_locked (c : List Byte) (x : SyncView) : (x.more c).locked = x.locked := rfl
@[simp] theorem SyncView.more_emitted (c : List Byte) (x : SyncView) : (x.more c).emitted = x.emitted := rfl

/-- One decision: the lock is acquired (R105), a stride is valid and leaves in a run, or it is not and the lock is lost
(R107, R108). -/
inductive Decides (n : Nat) : SyncView → SyncView → Prop
  | acquire {b e o} : (n + 1) * 188 ≤ b.length → findLock b n = some o → Decides n ⟨false, b, e⟩ ⟨true, b.drop o, e⟩
  | emit {b e} : 188 ≤ b.length → b[0]? = some syncByte → Decides n ⟨true, b, e⟩ ⟨true, b.drop 188, e ++ b.take 188⟩
  | lose {b e} : 188 ≤ b.length → b[0]? ≠ some syncByte → Decides n ⟨true, b, e⟩ ⟨false, b, e⟩

/-- The bytes held decide nothing more. -/
def Undecided (n : Nat) (x : SyncView) : Prop := ∀ y, ¬ Decides n x y

/-- What an undecided drain leaves: everything as it is, or after a failed search the bytes that a match can still begin
in (R104). -/
inductive Leaves (n : Nat) : SyncView → SyncView → Prop
  | all {x} : Leaves n x x
  | failed {b e} : findLock b n = none → Leaves n ⟨false, b, e⟩ ⟨false, b.drop (b.length - n * 188), e⟩

theorem decides_rightUnique (n : Nat) : Relator.RightUnique (Decides n) := by
  intro x y z hy hz
  cases hy with
  | acquire _ ho => cases hz with | acquire _ ho' => rw [Option.some.inj (ho.symm.trans ho')]
  | emit _ hsync => cases hz with
    | emit => rfl
    | lose _ hbad => exact absurd hsync hbad
  | lose _ hbad => cases hz with
    | emit _ hsync => exact absurd hsync hbad
    | lose => rfl

theorem Undecided.eq_of_reflTransGen {x y : SyncView} (hx : Undecided n x) (h : ReflTransGen (Decides n) x y) :
    x = y := by
  rcases h.cases_head with rfl | ⟨z, hz, -⟩
  · rfl
  · exact absurd hz (hx z)

/-- Wherever the decisions have come to, they lead on to where they end. -/
theorem Undecided.reached {x y z : SyncView} (hz : Undecided n z) (hxy : ReflTransGen (Decides n) x y)
    (hxz : ReflTransGen (Decides n) x z) : ReflTransGen (Decides n) y z := by
  rcases hxy.total_of_right_unique (decides_rightUnique n) hxz with h | h
  · exact h
  · rw [hz.eq_of_reflTransGen h]

theorem emitted_prefix {x y : SyncView} (h : ReflTransGen (Decides n) x y) : x.emitted <+: y.emitted := by
  induction h with
  | refl => exact List.prefix_refl _
  | tail _ hstep ih =>
    cases hstep with
    | acquire => exact ih
    | emit => exact ih.trans (List.prefix_append _ _)
    | lose => exact ih

theorem undecided_of_locked {x : SyncView} (hl : x.locked = true) (h : x.held.length < 188) : Undecided n x := by
  intro y hy
  cases hy with
  | acquire => cases hl
  | emit hlen => exact absurd h (Nat.not_lt.2 hlen)
  | lose hlen => exact absurd h (Nat.not_lt.2 hlen)

theorem undecided_of_hunting {x : SyncView} (hl : x.locked = false)
    (h : (n + 1) * 188 ≤ x.held.length → findLock x.held n = none) : Undecided n x := by
  intro y hy
  cases hy with
  | acquire hlen ho => exact absurd ((h hlen).symm.trans ho) nofun
  | emit => cases hl
  | lose => cases hl

theorem decides_of_hunting_iff {b e : List Byte} {z : SyncView} : Decides n ⟨false, b, e⟩ z ↔
    ∃ o, (n + 1) * 188 ≤ b.length ∧ findLock b n = some o ∧ z = ⟨true, b.drop o, e⟩ := by
  constructor
  · intro h
    cases h with
    | acquire hlen ho => exact ⟨_, hlen, ho, rfl⟩
  · rintro ⟨o, hlen, ho, rfl⟩
    exact .acquire hlen ho

/-! ### Bytes that come later -/

/-- An offset whose probes all lie in the bytes held matches whatever comes behind them. -/
theorem probesMatch_append {b c : List Byte} {o : Nat} (h : o + 188 * n < b.length) :
    probesMatch (b ++ c) n o = probesMatch b n o := by
  rw [Bool.eq_iff_iff, probesMatch_iff, probesMatch_iff]
  refine forall₂_congr fun i hi => ?_
  rw [List.getElem?_append_left (by omega)]

theorem probesMatch_drop (b : List Byte) (n d o : Nat) : probesMatch (b.drop d) n o = probesMatch b n (d + o) := by
  simp [probesMatch, Nat.add_assoc]

theorem findLock_append {b c : List Byte} {o : Nat} (h : findLock b n = some o) : findLock (b ++ c) n = some o := by
  have hin := (findLock_some h).2
  obtain ⟨hmatch, hleast⟩ := findLock_eq_some_iff.1 h
  refine findLock_eq_some_iff.2 ⟨(probesMatch_append hin).trans hmatch, fun o' ho' => ?_⟩
  exact (probesMatch_append (by omega)).trans (hleast o' ho')

/-- After a failed search no match begins in the bytes that are discarded, whatever comes behind. -/
theorem findLock_append_of_failed {b c : List Byte} {o : Nat} (hnone : findLock b n = none)
    (h : findLock (b.drop (b.length - n * 188) ++ c) n = some o) :
    findLock (b ++ c) n = some (b.length - n * 188 + o) := by
  rw [← List.drop_append_of_le_length (Nat.sub_le _ _)] at h
  obtain ⟨hmatch, hleast⟩ := findLock_eq_some_iff.1 h
  refine findLock_eq_some_iff.2 ⟨(probesMatch_drop _ _ _ _).symm.trans hmatch, fun o' ho' => ?_⟩
  rcases Nat.lt_or_ge o' (b.length - n * 188) with hlt | hge
  · exact (probesMatch_append (by omega)).trans (findLock_eq_none_iff.1 hnone o')
  · have hrest := hleast (o' - (b.length - n * 188)) (by omega)
    rwa [probesMatch_drop, Nat.add_sub_of_le hge] at hrest

/-- A decision is made by bytes held, so it stands whatever comes behind them. -/
theorem Decides.more {x y : SyncView} (h : Decides n x y) (c : List Byte) : Decides n (x.more c) (y.more c) := by
  cases h with
  | @acquire b e o hlen ho =>
    have hin := (findLock_some ho).2
    have h := Decides.acquire (e := e) (by rw [List.length_append]; omega) (findLock_append (c := c) ho)
    rwa [List.drop_append_of_le_length (by omega)] at h
  | @emit b e hlen hsync =>
    have h := Decides.emit (n := n) (b := b ++ c) (e := e) (by rw [List.length_append]; omega)
      (by rwa [List.getElem?_append_left (by omega)])
    rwa [List.drop_append_of_le_length hlen, List.take_append_of_le_length hlen] at h
  | @lose b e hlen hbad =>
    exact Decides.lose (b := b ++ c) (by rw [List.length_append]; omega)
      (by rwa [List.getElem?_append_left (by omega)])

theorem reflTransGen_more {x y : SyncView} (h : ReflTransGen (Decides n) x y) (c : List Byte) :
    ReflTransGen (Decides n) (x.more c) (y.more c) :=
  ReflTransGen.lift (SyncView.more c) (fun _ _ hstep => hstep.more c) _ _ h

/-- What a failed search discards decides nothing later. -/
theorem Leaves.decides_more {x y z : SyncView} {c : List Byte} (h : Leaves n x y) (hz : Decides n (y.more c) z) :
    Decides n (x.more c) z := by
  cases h with
  | all => exact hz
  | @failed b e hnone =>
    obtain ⟨o, hlen, ho, rfl⟩ := decides_of_hunting_iff.1 hz
    refine decides_of_hunting_iff.2 ⟨_, ?_, findLock_append_of_failed hnone ho, ?_⟩
    · rw [List.length_append] at hlen ⊢
      have hdrop : (b.drop (b.length - n * 188)).length ≤ b.length := (List.drop_sublist _ _).length_le
      exact hlen.trans (Nat.add_le_add_right hdrop _)
    · rw [← List.drop_drop, List.drop_append_of_le_length (Nat.sub_le _ _)]

/-! ### One cut -/

theorem Leaves.emitted_eq {x y : SyncView} (h : Leaves n x y) : y.emitted = x.emitted := by cases h <;> rfl
theorem Leaves.locked_eq {x y : SyncView} (h : Leaves n x y) : y.locked = x.locked := by cases h <;> rfl

theorem Leaves.eq_of_locked {x y : SyncView} (h : Leaves n x y) (hl : x.locked = true) : y = x := by
  cases h with
  | all => rfl
  | failed => cases hl

/-- A drain makes all the decisions that the bytes held allow (R101). -/
def DrainsTo (n : Nat) (x z : SyncView) : Prop := ∃ y, ReflTransGen (Decides n) x y ∧ Undecided n y ∧ Leaves n y z

/-- A write of the first bytes and a write of the rest decide what one write of all decides, but that the one write,
which holds bytes that a failed search has discarded in between, may find a lock that they still wait for. -/
theorem DrainsTo.cut {x z₁ z₂ z : SyncView} {c : List Byte} (h₁ : DrainsTo n x z₁) (h₂ : DrainsTo n (z₁.more c) z₂)
    (h : DrainsTo n (x.more c) z) : z₂.emitted <+: z.emitted ∧ (z₂.locked = true → z₂ = z) := by
  obtain ⟨y₁, hto₁, -, hleaves₁⟩ := h₁
  obtain ⟨y₂, hto₂, hend₂, hleaves₂⟩ := h₂
  obtain ⟨y, hto, hend, hleaves⟩ := h
  have hrest : ReflTransGen (Decides n) (y₁.more c) y := hend.reached (reflTransGen_more hto₁ c) hto
  have reached_eq (hall : ReflTransGen (Decides n) (y₁.more c) y₂) : y₂ = y :=
    hend₂.eq_of_reflTransGen (hend.reached hall hrest)
  rw [hleaves₂.emitted_eq, hleaves₂.locked_eq, hleaves.emitted_eq]
  rcases hto₂.cases_head with rfl | ⟨w, hw, hto₂⟩
  · rw [SyncView.more_emitted, SyncView.more_locked, hleaves₁.emitted_eq, hleaves₁.locked_eq]
    refine ⟨(emitted_prefix hrest :), fun hl => ?_⟩
    obtain rfl := hleaves₁.eq_of_locked hl
    obtain rfl := reached_eq .refl
    rw [hleaves₂.eq_of_locked hl, hleaves.eq_of_locked hl]
  · obtain rfl := reached_eq (.head (hleaves₁.decides_more hw) hto₂)
    refine ⟨List.prefix_refl _, fun hl => ?_⟩
    rw [hleaves₂.eq_of_locked hl, hleaves.eq_of_locked hl]

/-! ### The drain makes these decisions -/

/-- The synchronizer's part of the state, with the bytes of the runs delivered so far. -/
def State.syncView (s : State) : SyncView := ⟨s.locked, s.acc, runBytes s.events⟩

theorem runBytes_append (es fs : List Event) : runBytes (es ++ fs) = runBytes es ++ runBytes fs := List.flatMap_append

theorem runBytes_of_ofDemux {es : List Event} (h : ∀ e ∈ es, OfDemux e) : runBytes es = [] := by
  refine List.flatMap_eq_nil_iff.2 fun e he => ?_
  cases e with
  | run d => exact absurd rfl ((h _ he).1 d)
  | _ => rfl

theorem runBytes_eq_append_newEvents (h : s.events <+: t.events) :
    runBytes t.events = runBytes s.events ++ runBytes (newEvents s t) := by
  rw [← runBytes_append, newEvents, List.prefix_iff_eq_append.1 h]

/-- Valid strides leave one after the other. -/
theorem reaches_of_sync {b e : List Byte} {k : Nat} (hlen : 188 * k ≤ b.length)
    (hsync : ∀ j, j < k → b[188 * j]? = some syncByte) :
    ReflTransGen (Decides n) ⟨true, b, e⟩ ⟨true, b.drop (188 * k), e ++ b.take (188 * k)⟩ := by
  induction k with
  | zero => simpa using ReflTransGen.refl
  | succ k ih =>
    have hstep := Decides.emit (n := n) (b := b.drop (188 * k)) (e := e ++ b.take (188 * k))
      (by rw [List.length_drop]; omega) (by simpa using hsync k (Nat.lt_succ_self k))
    rw [List.drop_drop, List.append_assoc, ← List.take_add] at hstep
    exact (ih (by omega) fun j hj => hsync j (by omega)).tail hstep

theorem scanAndRun_syncView (h : scanAndRun s = .next t) : t.syncView =
    ⟨!scanLost s.acc, s.acc.drop (scanPtr s.acc), runBytes s.events ++ s.acc.take (scanPtr s.acc)⟩ := by
  obtain ⟨hacc, hlocked⟩ := emitRun_acc_locked h
  have hrun : runBytes t.events = runBytes s.events ++ s.acc.take (scanPtr s.acc) := by
    rcases scanAndRun_eq_next h with rfl | ⟨-, -, -, es, hes, hdemux⟩
    · have hzero : scanPtr s.acc = 0 := by
        have hle := scanPtr_le s.acc
        have hlen : s.acc.length = s.acc.length - scanPtr s.acc := (congrArg List.length hacc).trans List.length_drop
        omega
      simp [hzero]
    · have hbehind := runBytes_of_ofDemux fun e he => (hdemux e he).1
      rw [hes, runBytes_append]
      change _ ++ (_ ++ runBytes es) = _
      rw [hbehind, List.append_nil]
  rw [State.syncView, hacc, hlocked, hrun]
  rfl

/-- The scan and the run are a decision for each stride, the last of them the loss of the lock (R107, R108). -/
theorem scanAndRun_reaches (hl : s.locked = true) (h : scanAndRun s = .next t) :
    ReflTransGen (Decides n) s.syncView t.syncView := by
  have hstrides := reaches_of_sync (n := n) (e := runBytes s.events) (scanPtr_le s.acc) fun j hj =>
    sync_of_lt_scanPtr (Nat.mul_lt_mul_of_pos_left hj (by decide))
  rw [scanAndRun_syncView h, State.syncView, hl]
  cases hlost : scanLost s.acc with
  | false => exact hstrides
  | true =>
    have hlen : 188 ≤ (s.acc.drop (scanPtr s.acc)).length := by
      have hstride := scanLost_iff.1 hlost
      rw [List.length_drop]
      omega
    have hbad : (s.acc.drop (scanPtr s.acc))[0]? ≠ some syncByte := by
      rw [List.getElem?_drop]
      exact not_sync_at_scanPtr hlost
    exact hstrides.tail (.lose hlen hbad)

/-- Where step 1 goes on, the lock was held or is acquired (R105). -/
theorem hunt_reaches (h : (hunt s).2 = true) :
    (hunt s).1.locked = true ∧ ReflTransGen (Decides s.nlock.toNat) s.syncView (hunt s).1.syncView := by
  rcases hunt_cases s with ⟨hl, he⟩ | ⟨-, -, he⟩ | ⟨-, -, -, he⟩ | ⟨o, hl, hlong, ho, he⟩ <;> rw [he] at h ⊢
  · exact ⟨hl, .refl⟩
  · cases h
  · cases h
  · refine ⟨rfl, .single ?_⟩
    have hdiscard : runBytes (if o = 0 then [] else [.discard o]) = [] := by split <;> rfl
    have hview : (State.addEvents { s with locked := true, acc := s.acc.drop o }
        (if o = 0 then [] else [.discard o])).syncView = ⟨true, s.acc.drop o, runBytes s.events⟩ := by
      simp [State.syncView, runBytes_append, hdiscard]
    rw [hview, State.syncView, hl]
    exact .acquire hlong ho

/-- Where step 1 ends the drain, no lock can be found in the bytes held (R102, R104). -/
theorem hunt_drainsTo (h : (hunt s).2 = false) : DrainsTo s.nlock.toNat s.syncView (hunt s).1.syncView := by
  rcases hunt_cases s with ⟨-, he⟩ | ⟨hl, hshort, he⟩ | ⟨hl, -, hnone, he⟩ | ⟨o, -, -, -, he⟩ <;> rw [he] at h ⊢
  · cases h
  · exact ⟨_, .refl, undecided_of_hunting hl fun hlong => absurd hshort (Nat.not_lt.2 hlong), .all⟩
  · refine ⟨_, .refl, undecided_of_hunting hl fun _ => hnone, ?_⟩
    have hview : (discardFront (s.acc.length - s.nlock.toNat * 188) s).syncView =
        ⟨false, s.acc.drop (s.acc.length - s.nlock.toNat * 188), runBytes s.events⟩ := by
      simp [State.syncView, hl, runBytes]
    rw [hview, State.syncView, hl]
    exact .failed hnone
  · cases h

/-- The drain, by induction on its passes: the decisions of one pass, then those of the passes after it. -/
theorem drainLoop_drainsTo {k : Nat} (h : drainLoop k s = .next t) :
    DrainsTo s.nlock.toNat s.syncView t.syncView := by
  have hdrained := (drainLoop_drained h).1
  induction k generalizing s with
  | zero => cases h
  | succ k ih =>
    rcases drainBody_eq_next h with ⟨rfl, hwaits⟩ | ⟨u, hgo, hu, hnext⟩
    · cases hgo : (hunt s).2 with
      | false => exact hunt_drainsTo hgo
      | true =>
        obtain ⟨hl, hreach⟩ := hunt_reaches hgo
        exact ⟨_, hreach, undecided_of_locked hl (hwaits hgo), .all⟩
    · obtain ⟨hl, hreach⟩ := hunt_reaches hgo
      have hpass := hreach.trans (scanAndRun_reaches hl hu)
      rcases hnext with ⟨hkept, rfl⟩ | ⟨-, hagain⟩
      · exact ⟨_, hpass, undecided_of_locked hkept (hdrained hkept), .all⟩
      · have hnlock : u.nlock = s.nlock :=
          (emitRun_drainWrites hu).onlySwrite.nlock_eq.trans (hunt_drainWrites s).onlySwrite.nlock_eq
        obtain ⟨y, hto, hend⟩ := ih hagain
        rw [hnlock] at hto hend
        exact ⟨y, hpass.trans hto, hend⟩

theorem execSwrite_drainsTo {c : List Byte} (h : execSwrite c s = .next t) :
    DrainsTo s.nlock.toNat (s.syncView.more c) t.syncView :=
  drainLoop_drainsTo (execSwrite_eq_next h).2

/-- Settles O50: the three writes are the drains of one cut. That the two writes end locked is enough for the second
part: the one write then ends there too. -/
theorem cuttingAChunkNeverDisagrees : Obligations.CuttingAChunkNeverDisagrees := by
  intro a b s t u v ht hu hv
  have ft := (execSwrite_drainWrites ht).onlySwrite
  have fu := (execSwrite_drainWrites hu).onlySwrite
  have fv := (execSwrite_drainWrites hv).onlySwrite
  have hone : DrainsTo s.nlock.toNat ((s.syncView.more a).more b) t.syncView := by
    have h := execSwrite_drainsTo ht
    rwa [SyncView.more, ← List.append_assoc] at h
  have htwo : DrainsTo s.nlock.toNat (u.syncView.more b) v.syncView := by
    have hnlock : u.nlock = s.nlock := fu.nlock_eq
    exact hnlock ▸ execSwrite_drainsTo hv
  obtain ⟨hprefix, hsame⟩ := (execSwrite_drainsTo hu).cut htwo hone
  have hruns : ∀ {w : State}, s.events <+: w.events →
      w.syncView.emitted = runBytes s.events ++ runBytes (newEvents s w) := runBytes_eq_append_newEvents
  have hsv : s.events <+: v.events := fu.appended.trans fv.appended
  rw [hruns hsv, hruns ft.appended, List.prefix_append_right_inj] at hprefix
  refine ⟨hprefix, fun _ hl => ?_⟩
  have hview : v.syncView = t.syncView := hsame hl
  have hemitted := congrArg SyncView.emitted hview
  rw [hruns hsv, hruns ft.appended, List.append_cancel_left_eq] at hemitted
  exact ⟨hemitted, congrArg SyncView.held hview⟩

end Sys2Proof.Machine
end
